-- ==== Sys2Proof/Word.lean ====
section
/-! DEFINITION. Word.lean: the one word of this hardware, the byte (00_scope.md R9, R12). No datum of any memory of the
core is wider than a byte (20_memory.md R80); counters, cursors and addresses are naturals whose ranges the rules state
(R12; log entry 6). -/

namespace Sys2Proof

/-- A byte: an unsigned integer 0 to 255, bit 0 the least significant. `a + b` on bytes is the spec's `a +8 b`, `a - b`
its `a -8 b` (R12). -/
abbrev Byte := BitVec 8

end Sys2Proof
end

