-- ==== Sys2Proof/Config.lean ====
section
/-! DEFINITION. Config.lean: the named parameters of 00_scope.md R8, the answers of the Transport (R16), and the two free
values of the model that answer for the Transport once the script that State holds is used up (10_state.md R49,
93_implementation_defined.md U12; log entry 3), beside one for the size of an image that no register can hold (log entry 17).

Every parameter of R8 is an argument of a run, with the spec's value as the default: `Params`, which State holds (10_state.md
R50; log entries 15, 21). `T_POLL` and `T_GAP` are times and change no state (R346), so they are not here. -/

namespace Sys2Proof

/-- The answer of one `RxPoll()` (00_scope.md R16). -/
inductive RxAnswer where
  /-- No byte is waiting. -/
  | none
  /-- One byte, removed from the Transport (20_memory.md R86). -/
  | byte (b : Byte)
  /-- The read failed. -/
  | fail
  deriving DecidableEq, Repr, Inhabited

/-- The answer of one `TxWrite(s)` (00_scope.md R16). -/
inductive TxAnswer where
  /-- The Transport says it took `k` bytes. -/
  | count (k : Nat)
  /-- The write failed. -/
  | fail
  deriving DecidableEq, Repr, Inhabited

/-- The parameters of a run (00_scope.md R8, 10_state.md R50). No rule writes one. -/
structure Params where
  /-- `FEND`, the frame delimiter (R102). -/
  fend : Byte
  /-- `FESC`, the escape byte (R102). -/
  fesc : Byte
  /-- `TFEND`, the transposed delimiter (R102). -/
  tfend : Byte
  /-- `TFESC`, the transposed escape (R102). -/
  tfesc : Byte
  /-- `CS_TARGET`, the value the running sum of a valid frame reaches. -/
  csTarget : Byte
  /-- `RX_CAP`, the capacity of the receive frame buffer. -/
  rxCap : Nat
  /-- `TX_CHUNK`, the longest first write of a split frame (R212). -/
  txChunk : Nat
  /-- `TMO_ITER`, the poll iterations without a qualifying frame before Timeout (R218). -/
  tmoIter : Nat
  /-- `FAIL_MAX`, the failure threshold of one read-all pass (R304). -/
  failMax : Nat
  /-- `PAGE_SIZE`, the bytes of a page. -/
  pageSize : Nat
  /-- `IMAGE_SIZE`, the bytes of the Memory Image. -/
  imageSize : Nat
  /-- `SECTOR_SIZE`, the sector-erase granule. -/
  sectorSize : Nat
  /-- `FILL`, the erased-flash value. -/
  fill : Byte
  /-- `BULK_ACK`, the secondary field of a READY frame that confirms a bulk erase (R114, D18). -/
  bulkAck : Byte
  /-- `PROG_RETRY_MAX`, the bound on program retries: `none` is unbounded (D24; log entry 15). -/
  progRetryMax : Option Nat
  deriving DecidableEq, Repr

/-- The value R8 gives each parameter. -/
def Params.default : Params where
  fend := 0xC0#8
  fesc := 0xDB#8
  tfend := 0xDC#8
  tfesc := 0xDD#8
  csTarget := 0xFF#8
  rxCap := 512
  txChunk := 255
  tmoIter := 5000
  failMax := 25
  pageSize := 256
  imageSize := 2097152
  sectorSize := 65536
  fill := 0xFF#8
  bulkAck := 0xC7#8
  progRetryMax := none

/-- `DATA_MAX`, the most data bytes in one frame, "equal to `PAGE_SIZE`" (R8); 256 by default. -/
def Params.dataMax (p : Params) : Nat := p.pageSize

/-- `PAYLOAD_MAX`, "two address bytes plus `DATA_MAX` data bytes" (R8, C1); 258 by default. -/
def Params.payloadMax (p : Params) : Nat := 2 + p.dataMax

/-- `TX_CAP`: two delimiters, an opcode, and two bytes for each payload and checksum byte (10_state.md R27, D6); 521 by
default. -/
def Params.txCap (p : Params) : Nat := 5 + 2 * p.payloadMax

/-- `PAGE_COUNT`, the entries of the Page Bitmap, `IMAGE_SIZE / PAGE_SIZE` (R8); 8192 by default. -/
def Params.pageCount (p : Params) : Nat := p.imageSize / p.pageSize

/-- The least length of a READ frame: tag, two address bytes, `DATA_MAX` data bytes, checksum (30_encoding.md R113, D16); 260 by
default. -/
def Params.readMin (p : Params) : Nat := 4 + p.dataMax

namespace Config

/-- What an address of a bound image reads as where no cell lists it: how an image is written down (log entry 10). -/
abbrev unlistedImageByte : Byte := 0xFF#8

/-- FREE VALUE: the answer of the `n`-th `RxPoll` made after the script of State is used up. The spec leaves it to the
environment: "any answer at any poll" (10_state.md R49, U12). DESIGN CHOICE, safe (log entry 3). -/
opaque freeRxAnswer : Nat → RxAnswer

/-- FREE VALUE: the answer of the `n`-th `TxWrite` made after the script of State is used up (10_state.md R49, U12).
DESIGN CHOICE, safe (log entry 3). -/
opaque freeTxAnswer : Nat → TxAnswer

/-- FREE VALUE: what `src_len` or `ref_len` latches of an image of `n` bytes, above the range of the register, that is bound while
an operation that does not read it starts (10_state.md R39, 70_reset_and_hazards.md R376). DESIGN CHOICE, safe (log entry 17). -/
opaque freeImageLen : Nat → Nat

end Config
end Sys2Proof
end

