-- ==== Sys2Proof/Syntax.lean ====
section
/-! DEFINITION. Syntax.lean: the opcodes of the wire protocol (30_encoding.md R116) and the instructions, one constructor
per row of spec/opcode_table.json: eleven commands (41_commands.md), the same eleven as response tags (41_commands.md),
and the five classes of raw wire byte (40_codec.md R141 to R145). -/

namespace Sys2Proof

/-- The closed enumeration of eleven opcodes (00_scope.md R2, 30_encoding.md R116). Their byte values are `opcodeByte` in
Decode.lean. -/
inductive Opcode where
  | readId | powerUp | powerDown | writeEnable | bulkErase | sectorErase | program | read | ready | readAll | empty
  deriving DecidableEq, Repr

/-- The instructions.

A COMMAND is one call `EXECUTE(op, payload, expected)` of 42_engine.md R210; it carries the two operands of the call
beside the opcode. The forms the command rules give (R170 to R190: `READ a`, `PROGRAM a, data`, ...) are the values of
these operands that Machine/Operands.lean builds (`cmdRead`, `cmdProgram`, ...); any other value is a hand-made EXECUTE,
which "encode[s] and send[s] like any payload" (93_implementation_defined.md U11, U15; log entry 11).

A RESPONSE is the handling of a completed frame by its tag (42_engine.md R220); its fields are the bytes of the receive
buffer (30_encoding.md R110 to R115), which State holds.

A WIRE BYTE is one `DEC_STEP(b)` (40_codec.md R148). -/
inductive Instr where
  /-- READ_ID as a command, R170. -/
  | readId (payload : List Byte) (expected : Byte)
  /-- POWER_UP as a command, R172. -/
  | powerUp (payload : List Byte) (expected : Byte)
  /-- POWER_DOWN as a command, R174. -/
  | powerDown (payload : List Byte) (expected : Byte)
  /-- WRITE_ENABLE as a command, R176. -/
  | writeEnable (payload : List Byte) (expected : Byte)
  /-- BULK_ERASE as a command, R178. -/
  | bulkErase (payload : List Byte) (expected : Byte)
  /-- SECTOR_ERASE as a command, R180. -/
  | sectorErase (payload : List Byte) (expected : Byte)
  /-- PROGRAM as a command, R182. -/
  | program (payload : List Byte) (expected : Byte)
  /-- READ as a command, R184. -/
  | read (payload : List Byte) (expected : Byte)
  /-- READY as a command, R186. -/
  | ready (payload : List Byte) (expected : Byte)
  /-- READ_ALL as a command, R188. -/
  | readAll (payload : List Byte) (expected : Byte)
  /-- EMPTY as a command, R190. -/
  | empty (payload : List Byte) (expected : Byte)
  /-- READ_ID as a response tag, R171. -/
  | readIdRsp
  /-- POWER_UP as a response tag, R173. -/
  | powerUpRsp
  /-- POWER_DOWN as a response tag, R175. -/
  | powerDownRsp
  /-- WRITE_ENABLE as a response tag, R177. -/
  | writeEnableRsp
  /-- BULK_ERASE as a response tag, R179. -/
  | bulkEraseRsp
  /-- SECTOR_ERASE as a response tag, R181. -/
  | sectorEraseRsp
  /-- PROGRAM as a response tag, R183. -/
  | programRsp
  /-- READ as a response tag, R185. -/
  | readRsp
  /-- READY as a response tag, R187. -/
  | readyRsp
  /-- READ_ALL as a response tag, R189. -/
  | readAllRsp
  /-- EMPTY as a response tag, R191. -/
  | emptyRsp
  /-- The raw byte `0xC0`, R141. -/
  | fend
  /-- The raw byte `0xDB`, R142. -/
  | fesc
  /-- The raw byte `0xDD`, R143. -/
  | tfesc
  /-- The raw byte `0xDC`, R144. -/
  | tfend
  /-- Any other raw byte, R145. -/
  | ordinary (b : Byte)
  deriving DecidableEq, Repr

end Sys2Proof
end

