-- ==== Sys2Proof/WellFormed.lean ====
section
/-! DEFINITION. WellFormed.lean: the operands an instruction may carry. A command's payload has at most `PAYLOAD_MAX`
bytes (40_codec.md R131, R133; 42_engine.md R210); an ordinary wire byte is none of the four special ones (R145). Nothing
else is constrained: `expected` may be any byte (10_state.md R31). -/

namespace Sys2Proof

/-- A payload of legal length, under the parameters of the run (R131, C1). -/
def payloadOk (p : Params) (payload : List Byte) : Bool := payload.length ≤ p.payloadMax

/-- One of the four special raw bytes (R102). -/
def isSpecial (p : Params) (b : Byte) : Bool := b == p.fend || b == p.fesc || b == p.tfend || b == p.tfesc

/-- The check on an instruction's operands. -/
def Instr.wf (i : Instr) (q : Params) : Bool :=
  match i with
  | .readId p _ => payloadOk q p
  | .powerUp p _ => payloadOk q p
  | .powerDown p _ => payloadOk q p
  | .writeEnable p _ => payloadOk q p
  | .bulkErase p _ => payloadOk q p
  | .sectorErase p _ => payloadOk q p
  | .program p _ => payloadOk q p
  | .read p _ => payloadOk q p
  | .ready p _ => payloadOk q p
  | .readAll p _ => payloadOk q p
  | .empty p _ => payloadOk q p
  | .readIdRsp => true
  | .powerUpRsp => true
  | .powerDownRsp => true
  | .writeEnableRsp => true
  | .bulkEraseRsp => true
  | .sectorEraseRsp => true
  | .programRsp => true
  | .readRsp => true
  | .readyRsp => true
  | .readAllRsp => true
  | .emptyRsp => true
  | .fend => true
  | .fesc => true
  | .tfesc => true
  | .tfend => true
  | .ordinary b => !isSpecial q b

end Sys2Proof
end

