-- ==== Sys2Proof/Decode.lean ====
section
/-! DEFINITION. Decode.lean: the decoder, total on what any of the three ports presents and rejecting by name, and after it
the encoder, both from the same tables: the opcode map of 30_encoding.md R116 and the wire bytes of R102.

THREE PORTS (DESIGN CHOICE, log entry 1). The core fetches no instructions from memory (20_memory.md R94). What selects an
action is one of: a call of EXECUTE (42_engine.md R210), a completed frame in the receive buffer (R220), a raw byte from
the Transport (40_codec.md R148). The same byte value means a different row of the opcode table at each: `0x9F` is
READ_ID at the first, READ_ID.rsp at the second and ORDINARY at the third. So a decoded word carries its port. -/

namespace Sys2Proof

/-- What a port presents to the decoder. -/
inductive Code where
  /-- The arguments of `EXECUTE(op, payload, expected)`, `op` still a byte (R210). -/
  | call (op : Byte) (payload : List Byte) (expected : Byte)
  /-- The un-escaped bytes `rx_buf[0 .. rx_cur-1]` of a completed frame; index 0 is the tag (R110, R111). -/
  | frame (bytes : List Byte)
  /-- One raw byte from the Transport (R148). -/
  | wire (b : Byte)
  deriving DecidableEq, Repr

/-- Why the decoder rejects. -/
inductive DecodeError where
  /-- A call whose opcode byte is outside the closed enumeration (30_encoding.md R119, U7). -/
  | opcodeNotInEnumeration (op : Byte)
  /-- A call whose payload has more than `PAYLOAD_MAX` bytes (30_encoding.md R100, 40_codec.md R133, U8). -/
  | payloadTooLong (n : Nat)
  /-- A frame whose tag is none of the eleven opcodes. No error of the hardware: the engine ignores the frame (R118). -/
  | tagNotAnOpcode (tag : Byte)
  /-- A frame of no bytes. A valid frame has at least one (10_state.md R26). -/
  | emptyFrame
  deriving DecidableEq, Repr

/-- The opcode map (R116): all eight bits take part. -/
def opcodeTable : List (Byte × Opcode) :=
  [(0x9F#8, .readId), (0xAB#8, .powerUp), (0xB9#8, .powerDown), (0x06#8, .writeEnable), (0xC7#8, .bulkErase),
   (0xD8#8, .sectorErase), (0x02#8, .program), (0x03#8, .read), (0x44#8, .ready), (0x83#8, .readAll), (0x45#8, .empty)]

/-- The opcode a byte stands for, if it is one of the eleven. -/
def opcodeOf (b : Byte) : Option Opcode := (opcodeTable.find? (fun row => row.1 == b)).map (·.2)

/-- The command constructor of an opcode. -/
def commandOf (op : Opcode) (payload : List Byte) (expected : Byte) : Instr :=
  match op with
  | .readId => .readId payload expected
  | .powerUp => .powerUp payload expected
  | .powerDown => .powerDown payload expected
  | .writeEnable => .writeEnable payload expected
  | .bulkErase => .bulkErase payload expected
  | .sectorErase => .sectorErase payload expected
  | .program => .program payload expected
  | .read => .read payload expected
  | .ready => .ready payload expected
  | .readAll => .readAll payload expected
  | .empty => .empty payload expected

/-- The response constructor of an opcode. -/
def responseOf (op : Opcode) : Instr :=
  match op with
  | .readId => .readIdRsp
  | .powerUp => .powerUpRsp
  | .powerDown => .powerDownRsp
  | .writeEnable => .writeEnableRsp
  | .bulkErase => .bulkEraseRsp
  | .sectorErase => .sectorEraseRsp
  | .program => .programRsp
  | .read => .readRsp
  | .ready => .readyRsp
  | .readAll => .readAllRsp
  | .empty => .emptyRsp

/-- The wire-byte constructor of a raw byte: total on the 256 values (R148). Where a run makes two of the four special bytes equal,
the order of R141 to R144 decides: DESIGN CHOICE, log entry 21. -/
def wireOf (p : Params) (b : Byte) : Instr :=
  if b = p.fend then .fend
  else if b = p.fesc then .fesc
  else if b = p.tfesc then .tfesc
  else if b = p.tfend then .tfend
  else .ordinary b

/-- The decoder, under the parameters of the run: `PAYLOAD_MAX` bounds the payload of a call (log entry 11). -/
def decode (p : Params) (c : Code) : Except DecodeError Instr :=
  match c with
  | .call op payload expected =>
    match opcodeOf op with
    | none => .error (.opcodeNotInEnumeration op)
    | some o => if payloadOk p payload then .ok (commandOf o payload expected) else .error (.payloadTooLong payload.length)
  | .frame [] => .error .emptyFrame
  | .frame (tag :: _) =>
    match opcodeOf tag with
    | none => .error (.tagNotAnOpcode tag)
    | some o => .ok (responseOf o)
  | .wire b => .ok (wireOf p b)

/-! ### The encoder -/

/-- The byte value of an opcode (R2, R116). -/
def opcodeByte : Opcode → Byte
  | .readId => 0x9F#8
  | .powerUp => 0xAB#8
  | .powerDown => 0xB9#8
  | .writeEnable => 0x06#8
  | .bulkErase => 0xC7#8
  | .sectorErase => 0xD8#8
  | .program => 0x02#8
  | .read => 0x03#8
  | .ready => 0x44#8
  | .readAll => 0x83#8
  | .empty => 0x45#8

/-- The word of an instruction: the call of a command, the tag of a response, the raw byte of a wire byte. How a call's
opcode and payload travel on the wire is the codec's `ENC` (`rawFrame`, Machine/Operands.lean). -/
def encode (q : Params) : Instr → Code
  | .readId p e => .call 0x9F#8 p e
  | .powerUp p e => .call 0xAB#8 p e
  | .powerDown p e => .call 0xB9#8 p e
  | .writeEnable p e => .call 0x06#8 p e
  | .bulkErase p e => .call 0xC7#8 p e
  | .sectorErase p e => .call 0xD8#8 p e
  | .program p e => .call 0x02#8 p e
  | .read p e => .call 0x03#8 p e
  | .ready p e => .call 0x44#8 p e
  | .readAll p e => .call 0x83#8 p e
  | .empty p e => .call 0x45#8 p e
  | .readIdRsp => .frame [0x9F#8]
  | .powerUpRsp => .frame [0xAB#8]
  | .powerDownRsp => .frame [0xB9#8]
  | .writeEnableRsp => .frame [0x06#8]
  | .bulkEraseRsp => .frame [0xC7#8]
  | .sectorEraseRsp => .frame [0xD8#8]
  | .programRsp => .frame [0x02#8]
  | .readRsp => .frame [0x03#8]
  | .readyRsp => .frame [0x44#8]
  | .readAllRsp => .frame [0x83#8]
  | .emptyRsp => .frame [0x45#8]
  | .fend => .wire q.fend
  | .fesc => .wire q.fesc
  | .tfesc => .wire q.tfesc
  | .tfend => .wire q.tfend
  | .ordinary b => .wire b

/-! ### The words of the opcode table

A table row has eight bits and names no port. DESIGN CHOICE (log entry 1): an opcode value is read as the COMMAND, the four
special values and every other value as the WIRE BYTE; the eleven `.rsp` rows, whose eight bits are those of the command
rows, are reached only through `decode (.frame ..)`. -/

/-- Byte `k` of a word whose bit 0 is the least significant bit of its first byte. -/
def tableByte (w k : Nat) : Byte := BitVec.ofNat 8 (w / 256 ^ k)

/-- How many payload bytes the shortest form of a command has: F0 none, FA two address bytes, FAD two address bytes and
one data byte (R106). A command for which the source gives no format is taken with none (log entry 18). -/
def tablePayloadLen : Opcode → Nat
  | .sectorErase => 2
  | .read => 2
  | .program => 3
  | .readId => 0
  | .powerUp => 0
  | .powerDown => 0
  | .writeEnable => 0
  | .bulkErase => 0
  | .ready => 0
  | .readAll => 0
  | .empty => 0

/-- The `expected` of the command rules (R170, R178, R180, R182, R184, R188). For the five commands whose expected response
is open (D38, R186, R190) the table word is read with `expected` zero (log entry 18). -/
def tableExpected : Opcode → Byte
  | .readId => 0x9F#8
  | .bulkErase => 0xC7#8
  | .sectorErase => 0x44#8
  | .program => 0x44#8
  | .read => 0x03#8
  | .readAll => 0x44#8
  | .powerUp => 0x00#8
  | .powerDown => 0x00#8
  | .writeEnable => 0x00#8
  | .ready => 0x00#8
  | .empty => 0x00#8

/-- The word at its port: the bytes after the first are the payload of the shortest form. -/
def tableCode (w : Nat) : Code :=
  let b := tableByte w 0
  match opcodeOf b with
  | some op => .call b ((List.range (tablePayloadLen op)).map (fun k => tableByte w (k + 1))) (tableExpected op)
  | none => .wire b

/-- The instruction the decoder, under the default parameters, reads from a word of the opcode table; `nbits` below eight
holds no byte. Bits at `nbits` and above are zero. -/
def decodeTableWord (nbits w : Nat) : Option Instr :=
  if nbits < 8 then none
  else
    match decode .default (tableCode (w % 2 ^ nbits)) with
    | .ok i => some i
    | .error _ => none

end Sys2Proof
end

