-- ==== Sys2Proof/Machine/State.lean ====
section
/-! DEFINITION. Machine/State.lean: the state of the link core, one instance of each item of 10_state.md R20, grouped as
R20 groups them (decoder, encoder, engine, tracker, image, sequencer, faults) with the ports of R45 to R49 behind them; the
reasons a step can stop; and the state after reset (70_reset_and_hazards.md R371).

ONE HOME FOR A BUFFER AND ITS LENGTH (log entry 5). `rx_buf`/`rx_cur`, `tx_buf`/`tx_len` and `res_frame`/`res_len` are
each ONE list: the elements below the cursor. Elements at or above it "hold no value: a rule never reads them" (R21), and
a model should make reading them "unrepresentable" (U6). `rx_cur`, `tx_len` and `res_len` are the lists' lengths
(`Decoder.cur`, `Encoder.len`, `Engine.resLen`).

Counters, cursors and addresses are naturals (R12, D40; log entry 6). -/

namespace Sys2Proof.Machine

/-- A memory in canonical form, of bytes (`mem_image`, 20_memory.md R71: cells are `Host.Cell`s) or of bits (`page_dirty`,
R72): the listed cells, and what an unlisted address reads as (`none`: no value). `bg` is data because
44_flash_operations.md R301 changes it for the whole memory at once. -/
structure Memory (α : Type) where
  bg : Option α
  cells : List (Nat × α)
  deriving DecidableEq, Repr

/-- What an unlisted address reads as. For the Memory Image and the Page Bitmap: no value until the first R301, then the
fill byte and "dirty" (R36, R37, R371). -/
def Memory.unlisted {α : Type} (m : Memory α) : Option α := m.bg

/-- The canonical form: addresses strictly rising, and no entry equal to what an unlisted address reads as. -/
abbrev Memory.wf {α : Type} (m : Memory α) : Prop :=
  m.cells.Pairwise (fun x y => x.1 < y.1) ∧ ∀ c ∈ m.cells, some c.2 ≠ m.unlisted

/-- The memory of which nothing has a value (R36, R37, R371). -/
def Memory.blank {α : Type} : Memory α := ⟨none, []⟩

/-- An image the caller binds to a port (10_state.md R45, R46): its size, and its bytes that are not the fill byte. Every
address below `len` has a value, the fill byte where no cell lists it (log entry 10). -/
structure Image where
  len : Nat
  cells : List Host.Cell
  deriving DecidableEq, Repr

/-- `eng_state` (R30). -/
inductive EngState where
  | idle | send1 | gap | send2 | poll | done
  deriving DecidableEq, Repr

/-- `eng_outcome` (R33). -/
inductive EngOutcome where
  | none | success | timeout | transportFailure
  deriving DecidableEq, Repr

/-- `op_state` (R38). -/
inductive OpState where
  | idle | idWait | beWait | seNext | seWait | pgNext | pgWait | raInit | raStartWait | raPass | raScan | raWait | vfRun | done
  deriving DecidableEq, Repr

/-- `op_sel` (R39). -/
inductive OpSel where
  | identify | bulkErase | sectorErase | program | readAll | verify
  deriving DecidableEq, Repr

/-- `op_status` (R42). -/
inductive OpStatus where
  | none | busy | ok | fail
  deriving DecidableEq, Repr

/-- The error classes of 60_exceptions.md R321; their codes are `ErrCode.code` (Machine/Flags.lean). `none` is code 0. -/
inductive ErrCode where
  | none | transportFailure | protocolTimeout | frameCorruption | verificationMismatch | convergenceFailure
  | malformedFrame | addressRange
  deriving DecidableEq, Repr

/-- The `info` of a report (R48, R321). -/
inductive ReportInfo where
  /-- The three identification bytes (R285). -/
  | ids (mfr dev0 dev1 : Byte)
  /-- The operation (R282, R285, R302). -/
  | operation (sel : OpSel)
  /-- A flash or image address (R290, R295, R310). -/
  | address (a : Nat)
  /-- A page index (R304). -/
  | page (p : Nat)
  /-- The text "no answer from programmer" (R287, D37). -/
  | noAnswerFromProgrammer
  deriving DecidableEq, Repr

/-- One event of the report stream, `Report(code, info)` (R48). -/
structure Report where
  code : ErrCode
  info : ReportInfo
  deriving DecidableEq, Repr

/-- What the caller gives when it starts an operation (44_flash_operations.md R280): the operation, its configuration, and
the images it has bound to the two image ports (70_reset_and_hazards.md R376); `none` is a port not bound. -/
structure OpArgs where
  sel : OpSel
  forceFill : Bool
  source : Option Image
  reference : Option Image
  deriving DecidableEq, Repr

/-- One move of the caller (00_scope.md R10 (c); log entry 4). -/
inductive CallerMove where
  /-- No move in this step. -/
  | pass
  /-- No move until the core rests. -/
  | await
  /-- Start a flash operation (R280). -/
  | start (args : OpArgs)
  /-- A hand-made `EXECUTE(op, payload, expected)` (R210, U11). -/
  | execute (op : Byte) (payload : List Byte) (expected : Byte)
  /-- Collect the outcome of a hand-made EXECUTE (R230). -/
  | collect
  /-- Read one byte through the dump port (R47). -/
  | dump (a : Nat)
  /-- `RESET` (R370). -/
  | reset
  deriving DecidableEq, Repr

/-- Decoder state (R21 to R25). `rx_cur` is `Decoder.cur`. -/
structure Decoder where
  /-- `rx_buf[0 .. rx_cur-1]` (R21). -/
  buf : List Byte
  /-- `rx_sum` (R23). -/
  sum : Byte
  /-- `rx_esc` (R24). -/
  esc : Bool
  /-- `rx_ready` (R25). -/
  ready : Bool
  deriving DecidableEq, Repr

/-- `rx_cur`: the number of un-escaped bytes stored (R22). -/
def Decoder.cur (d : Decoder) : Nat := d.buf.length

/-- Encoder state (R27 to R29). `tx_len` is `Encoder.len`. -/
structure Encoder where
  /-- `tx_buf[0 .. tx_len-1]` (R27). -/
  buf : List Byte
  /-- `tx_sum` (R29). -/
  sum : Byte
  deriving DecidableEq, Repr

/-- `tx_len` (R28). -/
def Encoder.len (e : Encoder) : Nat := e.buf.length

/-- Engine state (R30 to R34). `res_len` is `Engine.resLen`. -/
structure Engine where
  /-- `eng_state` (R30). -/
  state : EngState
  /-- `eng_expected` (R31). -/
  expected : Byte
  /-- `eng_tmo` (R32). -/
  tmo : Nat
  /-- `eng_outcome` (R33). -/
  outcome : EngOutcome
  /-- `res_frame[0 .. res_len-1]` (R34). -/
  resFrame : List Byte
  deriving DecidableEq, Repr

/-- `res_len` (R34). -/
def Engine.resLen (e : Engine) : Nat := e.resFrame.length

/-- The identification registers (R35). -/
structure Ident where
  /-- `id_mfr`. -/
  mfr : Byte
  /-- `id_dev0`. -/
  dev0 : Byte
  /-- `id_dev1`. -/
  dev1 : Byte
  /-- `id_valid`. -/
  valid : Bool
  deriving DecidableEq, Repr

/-- Sequencer state (R38 to R42). -/
structure Sequencer where
  /-- `op_state` (R38). -/
  state : OpState
  /-- `op_sel` (R39). -/
  sel : OpSel
  /-- `cfg_force_fill` (R39). -/
  forceFill : Bool
  /-- `src_len` (R39). -/
  srcLen : Nat
  /-- `ref_len` (R39). -/
  refLen : Nat
  /-- `op_addr` (R40). -/
  addr : Nat
  /-- `op_page` (R40). -/
  page : Nat
  /-- `op_found` (R40). -/
  found : Bool
  /-- `any_fail` (R40). -/
  anyFail : Bool
  /-- `fail_count` (R41). -/
  failCount : Nat
  /-- `op_status` (R42). -/
  status : OpStatus
  /-- `op_err` (R42). -/
  err : ErrCode
  /-- `prog_tries` (R42). -/
  tries : Nat
  /-- MODEL'S OWN: a read-all has ended `S_OK` since the last reset. 70_reset_and_hazards.md R376 makes it a condition of
  verify and names no register that remembers it (log entry 22). -/
  readAllOk : Bool
  deriving DecidableEq, Repr

/-- The sticky flags (R43, R44). -/
structure FaultFlags where
  /-- `flt_malformed` (R43). -/
  malformed : Bool
  /-- `flt_addr_range` (R43). -/
  addrRange : Bool
  /-- `err_transport` (R44). -/
  transport : Bool
  deriving DecidableEq, Repr

/-- The ports (R45 to R49) and what the environment and the caller will do at them. `reports` is the spec's own state; the
image ports are the spec's parameters of a run (R50); the rest is the model's own (log entries 3, 4, 19). -/
structure Ports where
  /-- The contents of the source image port (R45); its size is `src_len`. -/
  source : List Host.Cell
  /-- The contents of the reference image port (R46); its size is `ref_len`. -/
  reference : List Host.Cell
  /-- The report stream, oldest first (R48). -/
  reports : List Report
  /-- MODEL'S OWN: the Transport's answers to the coming `RxPoll`s, first first (R49). -/
  rxScript : List RxAnswer
  /-- MODEL'S OWN: how many `RxPoll`s were answered by the free value after the script. -/
  rxDraws : Nat
  /-- MODEL'S OWN: the Transport's answers to the coming `TxWrite`s, first first (R49). -/
  txScript : List TxAnswer
  /-- MODEL'S OWN: how many `TxWrite`s were answered by the free value after the script. -/
  txDraws : Nat
  /-- MODEL'S OWN: the byte sequences offered to the Transport, one per `TxWrite`, oldest first (R76). -/
  wireOut : List (List Byte)
  /-- MODEL'S OWN: what the caller has read through the dump port, oldest first (R47). -/
  dumped : List Host.Cell
  /-- MODEL'S OWN: the caller's coming moves, first first. -/
  moves : List CallerMove
  deriving DecidableEq, Repr

/-- The state of the link core. -/
structure State where
  dec : Decoder
  enc : Encoder
  eng : Engine
  ident : Ident
  /-- `page_dirty`, the Page Bitmap (R36): the bit at address `p` is page `p`, `true` is dirty. -/
  pageDirty : Memory Bool
  /-- `mem_image`, the Memory Image (R37). -/
  memImage : Memory Byte
  seq : Sequencer
  flags : FaultFlags
  /-- The parameters of the run (00_scope.md R8, R50); no step changes them (log entries 15, 21). -/
  params : Params
  ports : Ports
  deriving DecidableEq, Repr

/-- Why the machine stops with a fault. -/
inductive Fault where
  /-- Raised by verify (R310) and by the dump port (R47) on a byte of `mem_image` read before the first R301 since reset,
  whatever a READ frame has written there: the spec gives such a read no meaning (R37), and "a model with
  unspecified-until-written cells faults on the read" (U5; log entry 9). Safe. -/
  | imageByteUnspecified (a : Nat)
  /-- Raised by the dump port on an address at or above `IMAGE_SIZE`, which the Memory Image does not have (R71). R47 names
  no outcome for such a read and R15 bounds the reads of rules only; that the model stops, and by a fault and not by a
  refusal, is its choice (DESIGN CHOICE, log entry 23). Safe. -/
  | noSuchImageAddress (a : Nat)
  /-- Raised by the scan of a read-all (R304) on a bit of `page_dirty` that nothing has written (R371, U5). No run reaches
  it: `PT_INIT` comes before the scan (Safety.lean, `SeqInv`). Safe. -/
  | pageBitUnspecified (p : Nat)
  deriving DecidableEq, Repr

/-- Why the machine gives an input no step: the spec's `refuse` (R17), each safe, since the spec gives no meaning. -/
inductive Refusal where
  /-- An instruction that has no meaning yet. Raised by no arm. Safe. -/
  | notModelled (mnemonic : String)
  /-- `EXECUTE` when `eng_state` is not `E_IDLE`, or an operation started then (R210, R280, U10). Safe. -/
  | engineBusy
  /-- `EXECUTE` or an operation by the caller while an operation is in progress (R280, U10), or the collecting of an outcome
  then, which is the operation's to collect (R230 names no outcome: DESIGN CHOICE, log entry 11). Safe. -/
  | operationInProgress
  /-- `EXECUTE` with an opcode byte outside the enumeration (R119, R133, U7). Safe. -/
  | opcodeNotInEnumeration (op : Byte)
  /-- `ENC` with a payload longer than `PAYLOAD_MAX` bytes (R133, U8). Safe. -/
  | payloadTooLong (n : Nat)
  /-- `DEC_STEP` while `rx_ready = 1` (R147, U2). Safe. -/
  | frameNotConsumed
  /-- A response handled while `rx_ready = 0`: the rules R171 to R191 have `rx_ready = 1`. Raised by no step. Safe. -/
  | noFrameReady
  /-- A ready frame of no bytes, which R26 excludes. Safe. -/
  | emptyFrame
  /-- The instruction ORDINARY with one of the four special bytes, which is no encoding of it (R145). Raised by no step.
  Safe. -/
  | notAnOrdinaryByte (b : Byte)
  /-- Program or sector erase started with no source image bound (R376). Safe. -/
  | sourceNotBound
  /-- Verify started with no reference image bound (R376). Safe. -/
  | referenceNotBound
  /-- Verify started when no read-all has ended `S_OK` since the last reset (R376). Safe. -/
  | noReadAllSinceReset
  /-- An operation started whose image has more than `IMAGE_SIZE` bytes (R290, R293, R310, U9). Safe. -/
  | imageTooLarge (len : Nat)
  /-- The caller collects an outcome when none is latched (R230). Safe. -/
  | nothingToCollect
  /-- The caller reads the dump port during an operation (R47). Safe. -/
  | dumpDuringOperation
  /-- An outcome is latched but the control registers stand where no rule collects it: `eng_state = E_DONE` with
  `eng_outcome = O_NONE`, or with `op_state` at a label that waits for nothing. No run reaches it (Safety.lean,
  `EngineInv`, `SeqInv`). Safe. -/
  | controlOutOfStep
  deriving DecidableEq, Repr

/-- The decoder after `DEC_RESET` (40_codec.md R140). -/
def Decoder.clear : Decoder := { buf := [], sum := 0#8, esc := false, ready := false }

/-- The state after reset (R370, R371). Where R371 says "unspecified" a register holds zero, `op_sel` IDENTIFY (DESIGN
CHOICE, unsafe, log entry 7); no bit of the Page Bitmap and no byte of the Memory Image has a value (log entries 8, 9), and no
read-all has ended (log entry 22). No image is bound, the scripts are empty, the parameters
have R8's values. -/
def State.reset : State where
  dec := Decoder.clear
  enc := { buf := [], sum := 0#8 }
  eng := { state := .idle, expected := 0#8, tmo := 0, outcome := .none, resFrame := [] }
  ident := { mfr := 0#8, dev0 := 0#8, dev1 := 0#8, valid := false }
  pageDirty := Memory.blank
  memImage := Memory.blank
  seq := { state := .idle, sel := .identify, forceFill := false, srcLen := 0, refLen := 0, addr := 0, page := 0,
           found := false, anyFail := false, failCount := 0, status := .none, err := .none, tries := 0,
           readAllOk := false }
  flags := { malformed := false, addrRange := false, transport := false }
  params := .default
  ports := { source := [], reference := [], reports := [], rxScript := [], rxDraws := 0, txScript := [], txDraws := 0,
             wireOut := [], dumped := [], moves := [] }

end Sys2Proof.Machine
end

