-- ==== Sys2Proof/Machine/Flags.lean ====
section
/-! DEFINITION. Machine/Flags.lean: the sums and the flags. The only arithmetic of the core is the mod-256 sum, whose carry
out is discarded; there are no condition codes (10_state.md R43). -/

namespace Sys2Proof.Machine

/-- `sum8(s)`: the sum of all bytes mod 256 (00_scope.md R13). -/
def sum8 : List Byte → Byte
  | [] => 0#8
  | b :: s => b + sum8 s

/-- `CHECKSUM(op, payload) = CS_TARGET -8 sum8([op] ++ payload)` (30_encoding.md R104, 40_codec.md R132). -/
def checksum (p : Params) (op : Byte) (payload : List Byte) : Byte := p.csTarget - sum8 (op :: payload)

/-- The delimiter's test: the running sum of everything accumulated equals `CS_TARGET` (40_codec.md R141). -/
def sumIsTarget (p : Params) (d : Decoder) : Bool := d.sum == p.csTarget

/-- `flt_malformed <- 1`, sticky (R43, 42_engine.md R228). -/
def setMalformed (s : State) : State := { s with flags := { s.flags with malformed := true } }

/-- `flt_addr_range <- 1`, sticky (R43, 42_engine.md R229). -/
def setAddrRange (s : State) : State := { s with flags := { s.flags with addrRange := true } }

/-- `err_transport <- 1`, sticky (R44, 42_engine.md R214, R216). -/
def setErrTransport (s : State) : State := { s with flags := { s.flags with transport := true } }

/-- The codes of 60_exceptions.md R321. -/
def errCode : ErrCode → BitVec 4
  | .none => 0#4
  | .transportFailure => 1#4
  | .protocolTimeout => 2#4
  | .frameCorruption => 3#4
  | .verificationMismatch => 4#4
  | .convergenceFailure => 5#4
  | .malformedFrame => 6#4
  | .addressRange => 7#4

end Sys2Proof.Machine
end

