-- ==== Sys2Proof/Machine/Operands.lean ====
section
/-! DEFINITION. Machine/Operands.lean: every operand form. Outbound: the escape rule and the raw frame (40_codec.md R130,
R131), the address bytes (30_encoding.md R107) and the forms of the commands (41_commands.md R170 to R190). Inbound: the
fields of a received frame (30_encoding.md R110 to R115). Images: the bytes of the two image ports (10_state.md R45, R46).
-/

namespace Sys2Proof.Machine

/-! ### Outbound -/

/-- `ESC(b)`: one byte escaped (R103, R130). -/
def esc (p : Params) (b : Byte) : List Byte :=
  if b = p.fend then [p.fesc, p.tfend]
  else if b = p.fesc then [p.fesc, p.tfesc]
  else [b]

/-- The escaped bytes of a sequence, in order (R131). -/
def escAll (p : Params) : List Byte → List Byte
  | [] => []
  | b :: s => esc p b ++ escAll p s

/-- The raw frame `ENC(op, payload)` leaves in `tx_buf` (R101, R131). The opcode is not escaped. -/
def rawFrame (p : Params) (op : Byte) (payload : List Byte) : List Byte :=
  p.fend :: op :: (escAll p payload ++ (esc p (checksum p op payload) ++ [p.fend]))

/-- The address bytes of a flash address: `[a[23:16], a[15:8]]` (R107, R78). The radix 256 is the wire's, whatever `PAGE_SIZE`
is in the run (DESIGN CHOICE, log entry 24). -/
def addrBytes (a : Nat) : List Byte := [BitVec.ofNat 8 (a / 65536), BitVec.ofNat 8 (a / 256)]

/-- The address bytes of a page index: `[p[12:8], p[7:0]]` (R107, R266), so that the wire names flash address `256 * p`, whatever
`PAGE_SIZE` is in the run, and `p` counts mod 65536 (DESIGN CHOICE, log entry 24). -/
def pageBytes (p : Nat) : List Byte := [BitVec.ofNat 8 (p / 256), BitVec.ofNat 8 p]

/-- `READ_ID` (R170): format F0, expected `0x9F`. -/
def cmdReadId : Instr := .readId [] 0x9F#8
/-- `BULK_ERASE` (R178): format F0, expected `0xC7`. -/
def cmdBulkErase : Instr := .bulkErase [] 0xC7#8
/-- `SECTOR_ERASE a` (R180): format FA, expected READY. -/
def cmdSectorErase (a : Nat) : Instr := .sectorErase (addrBytes a) 0x44#8
/-- `PROGRAM a, data` (R182): format FAD, expected READY. -/
def cmdProgram (a : Nat) (data : List Byte) : Instr := .program (addrBytes a ++ data) 0x44#8
/-- `READ a` (R184): format FA, expected READ. -/
def cmdRead (a : Nat) : Instr := .read (addrBytes a) 0x03#8
/-- `READ` of a page index (R184, R305). -/
def cmdReadPage (p : Nat) : Instr := .read (pageBytes p) 0x03#8
/-- `READ_ALL` (R188): format F0, expected READY. -/
def cmdReadAll : Instr := .readAll [] 0x44#8

/-! ### Inbound

A field is read only where the frame is long enough to hold it (R112 to R115): the rules that read one test `rx_cur`
first, so the zero that `getD` names for an index at or above `rx_cur` reaches no state. -/

/-- `rx_buf[i]`, for `i < rx_cur`. -/
def frameByte (d : Decoder) (i : Nat) : Byte := d.buf.getD i 0#8

/-- The page index `rx_buf[1] * 256 + rx_buf[2]`, 0 to 65535 (R78, R113, R115, R266). -/
def framePage (d : Decoder) : Nat := (frameByte d 1).toNat * 256 + (frameByte d 2).toNat

/-- The `DATA_MAX` data bytes `rx_buf[3 ..]` of a READ response (R113). -/
def frameData (p : Params) (d : Decoder) : List Byte := (d.buf.drop 3).take p.dataMax

/-- The secondary field of a READY response confirms a bulk erase: `n >= 3` and `rx_buf[1] = BULK_ACK` (R114). -/
def bulkAcknowledged (p : Params) (d : Decoder) : Bool := 3 ≤ d.cur && frameByte d 1 == p.bulkAck

/-! ### The image ports -/

/-- The value a list of cells gives an address, if it lists it. -/
def cellAt {α : Type} (a : Nat) : List (Nat × α) → Option α
  | [] => none
  | (b, v) :: cs => if b = a then some v else cellAt a cs

/-- One byte of an image port: the listed value, `0xFF` where none is listed (log entry 10). -/
def imageByte (cells : List Host.Cell) (a : Nat) : Byte := (cellAt a cells).getD Config.unlistedImageByte

/-- `SrcRead(addr, n)` and `RefRead(addr, n)`: `n` bytes in ascending address order (R15, R45, R46). -/
def imageBytes (cells : List Host.Cell) (a : Nat) : Nat → List Byte
  | 0 => []
  | n + 1 => imageByte cells a :: imageBytes cells (a + 1) n

/-- `m = min(PAGE_SIZE, src_len - op_addr)`, the size of the chunk being handled (44_flash_operations.md R293). -/
def chunkLen (p : Params) (q : Sequencer) : Nat := min p.pageSize (q.srcLen - q.addr)

/-- The chunk being handled, `SrcRead(op_addr, m)` (R293). -/
def chunk (s : State) : List Byte := imageBytes s.ports.source s.seq.addr (chunkLen s.params s.seq)

/-- `ALL_FILL(chunk)`: every byte is the fill byte (R294). -/
def allFill (p : Params) (bytes : List Byte) : Bool := bytes.all (fun b => b == p.fill)

end Sys2Proof.Machine
end

