-- ==== Sys2Proof/Machine/Ops.lean ====
section
/-! DEFINITION. Machine/Ops.lean: the operations the meanings share: memory (20_memory.md R71), the Page Bitmap
(43_page_tracker.md), the decoder and encoder (40_codec.md), the Transport calls (00_scope.md R16), the start and the
endings of EXECUTE (42_engine.md), and TAKING AN ERROR, which on this hardware is not a trap: an error of the engine latches
an outcome (`transportError`, `timeoutExpiry`), an error of an operation reports, latches `op_err` and goes to `OP_DONE`
(`raiseOp`), as 60_exceptions.md R322 to R327 and R332 say. There is no return instruction (R333). -/

namespace Sys2Proof.Machine

/-! ### Outcomes -/

/-- Go on from a next state; a fault or a refusal stays. -/
def andThen (o : Host.Outcome State Fault Refusal) (f : State → Host.Outcome State Fault Refusal) :
    Host.Outcome State Fault Refusal :=
  match o with
  | .next t => f t
  | .fault r => .fault r
  | .refused r => .refused r

/-! ### Memory -/

/-- One element of a memory; `none` where it has no value. -/
def Memory.read {α : Type} (m : Memory α) (a : Nat) : Option α :=
  match cellAt a m.cells with
  | some v => some v
  | none => m.unlisted

/-- A cell list with address `a` at value `v`, in canonical form over the background `bg`. -/
def writeCell {α : Type} [DecidableEq α] (bg : Option α) (a : Nat) (v : α) : List (Nat × α) → List (Nat × α)
  | [] => if some v = bg then [] else [(a, v)]
  | (b, w) :: cs =>
    if a < b then (if some v = bg then (b, w) :: cs else (a, v) :: (b, w) :: cs)
    else if a = b then (if some v = bg then cs else (a, v) :: cs)
    else (b, w) :: writeCell bg a v cs

/-- Write one element. -/
def Memory.write {α : Type} [DecidableEq α] (m : Memory α) (a : Nat) (v : α) : Memory α :=
  { m with cells := writeCell m.bg a v m.cells }

/-- `MemWrite(addr, n, v)`: bytes in ascending address order (R15, R79). -/
def Memory.writeBytes (m : Memory Byte) (a : Nat) : List Byte → Memory Byte
  | [] => m
  | v :: vs => (m.write a v).writeBytes (a + 1) vs

/-- `IMG_FILL`: every byte reads as the fill byte (44_flash_operations.md R301). -/
def Memory.filled (fill : Byte) : Memory Byte := ⟨some fill, []⟩

/-- A rule or the caller reads `mem_image`. Outside the image (R71) the spec names no outcome and the model faults (DESIGN
CHOICE, log entry 23). Before the first R301 since reset every read faults, also of a byte a READ frame has written (R37,
U5; log entry 9); from then on the background has a value, and so has every byte. -/
def imageRead (s : State) (a : Nat) : Except Fault Byte :=
  if s.params.imageSize ≤ a then .error (.noSuchImageAddress a)
  else
    match s.memImage.unlisted with
    | none => .error (.imageByteUnspecified a)
    | some v => .ok ((cellAt a s.memImage.cells).getD v)

/-! ### The Page Bitmap -/

/-- `PT_INIT`: every page dirty (43_page_tracker.md R261). -/
def ptInit : Memory Bool := ⟨some true, []⟩

/-- `PT_CLEAR(p)`: one page resolved (R262). -/
def ptClear (d : Memory Bool) (p : Nat) : Memory Bool := d.write p false

/-- `PT_TEST(p)` (R263); `none` where nothing has written the bit. -/
def ptTest (d : Memory Bool) (p : Nat) : Option Bool := d.read p

/-- `PT_COUNT`: the number of dirty pages among `PAGE_COUNT`, a derived quantity (R264). A bit without a value, before the
first `PT_INIT` since reset, is not counted: the spec gives it no value (U5), and counting it as not dirty is the model's
choice (DESIGN CHOICE, log entry 8). No rule of the machine computes `PT_COUNT`. -/
def ptCount (pages : Nat) (d : Memory Bool) : Nat := (List.range pages).countP (fun p => ptTest d p == some true)

/-! ### The decoder -/

/-- `DEC_RESET` (40_codec.md R140): the elements of `rx_buf` above the new cursor hold no value. -/
def decReset (_ : Decoder) : Decoder := Decoder.clear

/-- `STORE(v)` (R146): `RX_CAP` bytes fit; the next one resets the decoder and is dropped. -/
def decStore (cap : Nat) (v : Byte) (d : Decoder) : Decoder :=
  if cap ≤ d.cur then decReset d
  else { d with buf := d.buf ++ [v], sum := d.sum + v, esc := false }

/-- The delimiter (R141). -/
def decFend (p : Params) (d : Decoder) : Decoder := if sumIsTarget p d then { d with ready := true } else decReset d

/-- The escape byte (R142). -/
def decFesc (d : Decoder) : Decoder := { d with esc := true }

/-- A transposed byte: the real byte after an escape, itself otherwise (R143, R144). -/
def decTransposed (cap : Nat) (real literal : Byte) (d : Decoder) : Decoder :=
  if d.esc then decStore cap real d else decStore cap literal d

/-- `DEC_STEP` on the state, under its precondition `rx_ready = 0` (R147). -/
def decStepWith (f : Decoder → Decoder) (s : State) : Host.Outcome State Fault Refusal :=
  if s.dec.ready then .refused .frameNotConsumed else .next { s with dec := f s.dec }

/-! ### The encoder -/

/-- `ENC(op, payload)` for a payload of legal length: fills `tx_buf`, `tx_len` and `tx_sum` (R131). -/
def encodeFrame (p : Params) (op : Byte) (payload : List Byte) : Encoder :=
  { buf := rawFrame p op payload, sum := sum8 (op :: payload) }

/-! ### The Transport -/

/-- `RxPoll()`: the next answer of the script, then the free value (R16, R49). A destructive read (R86). -/
def rxPoll (s : State) : RxAnswer × State :=
  match s.ports.rxScript with
  | r :: rest => (r, { s with ports := { s.ports with rxScript := rest } })
  | [] => (Config.freeRxAnswer s.ports.rxDraws, { s with ports := { s.ports with rxDraws := s.ports.rxDraws + 1 } })

/-- `TxWrite(bytes)`: the bytes are offered in one call and the next answer of the script, then the free value, comes back
(R16, R49). -/
def txWrite (bytes : List Byte) (s : State) : TxAnswer × State :=
  let offered : Ports := { s.ports with wireOut := s.ports.wireOut ++ [bytes] }
  match s.ports.txScript with
  | r :: rest => (r, { s with ports := { offered with txScript := rest } })
  | [] => (Config.freeTxAnswer s.ports.txDraws, { s with ports := { offered with txDraws := s.ports.txDraws + 1 } })

/-! ### Ending an EXECUTE -/

/-- Latch an outcome: `eng_outcome <- o; eng_state <- E_DONE`. -/
def latchOutcome (o : EngOutcome) (s : State) : State :=
  { s with eng := { s.eng with outcome := o, state := .done } }

/-- Taking TransportFailure (R214, R216, R322): the sticky flag and the outcome; everything else stays. -/
def transportError (s : State) : State := latchOutcome .transportFailure (setErrTransport s)

/-- Taking ProtocolTimeout when the budget is used up (R218, R323). -/
def timeoutExpiry (s : State) : State :=
  if s.eng.tmo = s.params.tmoIter then latchOutcome .timeout s else s

/-- The counting half of `TIMEOUT_TICK`: `eng_tmo <- eng_tmo + 1`, then the test (R218). -/
def timeoutTick (s : State) : State :=
  timeoutExpiry { s with eng := { s.eng with tmo := s.eng.tmo + 1 } }

/-- The start of `EXECUTE(op, payload, expected)` (R210, R211), with `ENC`'s refusal of a long payload (R133). -/
def executeStart (op : Byte) (payload : List Byte) (expected : Byte) (s : State) : Host.Outcome State Fault Refusal :=
  if s.eng.state ≠ .idle then .refused .engineBusy
  else if s.flags.transport then .next (latchOutcome .transportFailure s)
  else if s.params.payloadMax < payload.length then .refused (.payloadTooLong payload.length)
  else
    .next { s with
      enc := encodeFrame s.params op payload
      eng := { s.eng with expected := expected, tmo := 0, outcome := .none, state := .send1 } }

/-! ### The endings of CLASSIFY (R225 to R229) -/

/-- How the classification of a frame ends (R220). -/
inductive Verdict where
  | succeed | absorb | ignoreOther | malformed | addrRange
  deriving DecidableEq, Repr

/-- The decoder reset that every ending performs (R226 to R229, D10). -/
def consumeFrame (s : State) : State := { s with dec := decReset s.dec }

/-- `eng_tmo <- 0`. -/
def refreshTimeout (s : State) : State := { s with eng := { s.eng with tmo := 0 } }

/-- `SUCCEED` (R226). `eng_tmo` is left as it is. -/
def succeed (s : State) : State :=
  latchOutcome .success (consumeFrame { s with eng := { s.eng with resFrame := s.dec.buf } })

/-- `ABSORB` (R227). -/
def absorb (s : State) : State := refreshTimeout (consumeFrame s)

/-- `IGNORE_OTHER` (R225). -/
def ignoreOther (s : State) : State := refreshTimeout (consumeFrame s)

/-- `MALFORMED` (R228). -/
def malformed (s : State) : State := consumeFrame (setMalformed s)

/-- `ADDR_RANGE` (R229). -/
def addrRange (s : State) : State := consumeFrame (setAddrRange s)

/-- The ending a verdict names. -/
def ending : Verdict → State → State
  | .succeed => succeed
  | .absorb => absorb
  | .ignoreOther => ignoreOther
  | .malformed => malformed
  | .addrRange => addrRange

/-- The verdict on a READ_ID frame (41_commands.md R171). -/
def verdictReadId (s : State) : Verdict :=
  if s.eng.expected = 0x9F#8 then (if s.dec.cur < 5 then .malformed else .succeed) else .ignoreOther

/-- The verdict on a frame that names a page and needs `minLen` bytes: READ `readMin` (R185), EMPTY 4 (R191). MalformedFrame is
tested before AddressRange (60_exceptions.md R331). -/
def verdictPage (minLen : Nat) (s : State) : Verdict :=
  if s.dec.cur < minLen then .malformed
  else if s.params.pageCount ≤ framePage s.dec then .addrRange
  else if s.eng.expected = 0x03#8 then .succeed else .absorb

/-- The verdict on a READY frame (R187). -/
def verdictReady (s : State) : Verdict :=
  if s.eng.expected = 0x44#8 then .succeed
  else if s.eng.expected = 0xC7#8 && bulkAcknowledged s.params s.dec then .succeed
  else .absorb

/-- `CLASSIFY`'s verdict by tag (42_engine.md R220). -/
def classifyVerdict (s : State) : Verdict :=
  if frameByte s.dec 0 = 0x9F#8 then verdictReadId s
  else if frameByte s.dec 0 = 0x03#8 then verdictPage s.params.readMin s
  else if frameByte s.dec 0 = 0x44#8 then verdictReady s
  else if frameByte s.dec 0 = 0x45#8 then verdictPage 4 s
  else .ignoreOther

/-- A page was resolved: the handler's side effect happens (R185, R191). -/
def resolvesPage : Verdict → Bool
  | .succeed => true
  | .absorb => true
  | .ignoreOther => false
  | .malformed => false
  | .addrRange => false

/-- The side effect of a READ frame: the page's bytes and its bit (R185). Page `p` stands at `p * PAGE_SIZE` in the image; the
wire's `hi * 256 + mid` is the page index (R78). With a `PAGE_SIZE` other than 256 the flash address R78 assembles from the two
bytes, `256 * p`, and the image address part: DESIGN CHOICE, log entry 24. -/
def storePage (s : State) : State :=
  { s with
    memImage := s.memImage.writeBytes (framePage s.dec * s.params.pageSize) (frameData s.params s.dec)
    pageDirty := ptClear s.pageDirty (framePage s.dec) }

/-- The side effect of an EMPTY frame: the page's bit (R191). -/
def clearPage (s : State) : State := { s with pageDirty := ptClear s.pageDirty (framePage s.dec) }

/-- The side effect of an expected READ_ID frame: the identification registers (R171). -/
def latchIds (s : State) : State :=
  { s with ident := { mfr := frameByte s.dec 1, dev0 := frameByte s.dec 2, dev1 := frameByte s.dec 3, valid := true } }

/-- A handler runs on a completed frame: in every response rule `rx_ready = 1` (41_commands.md). -/
def onFrame (f : State → State) (s : State) : Host.Outcome State Fault Refusal :=
  if s.dec.ready then .next (f s) else .refused .noFrameReady

/-! ### Ending an operation (44_flash_operations.md R281) -/

/-- `Report(code, info)` appends one event (00_scope.md R16, 10_state.md R48). -/
def report (code : ErrCode) (info : ReportInfo) (s : State) : State :=
  { s with ports := { s.ports with reports := s.ports.reports ++ [⟨code, info⟩] } }

/-- End with `S_OK`. -/
def finishOk (s : State) : State := { s with seq := { s.seq with status := .ok, state := .done } }

/-- A read-all ends with `S_OK` (44_flash_operations.md R306), which verify needs to have happened (R376; log entry 22). -/
def finishReadAll (s : State) : State := finishOk { s with seq := { s.seq with readAllOk := true } }

/-- End with `S_FAIL` and the code of the cause. -/
def finishFail (code : ErrCode) (s : State) : State :=
  { s with seq := { s.seq with status := .fail, err := code, state := .done } }

/-- Taking an error that ends the operation: one report, `op_err`, `OP_DONE`; nothing is saved or unwound (R322, R325,
R326, R332). -/
def raiseOp (code : ErrCode) (info : ReportInfo) (s : State) : State := finishFail code (report code info s)

/-- The operation goes to another label. -/
def goTo (l : OpState) (s : State) : State := { s with seq := { s.seq with state := l } }

/-- `eng_state <- E_IDLE` when the outcome is collected; outcome and frame keep their values (42_engine.md R230). -/
def collected (s : State) : State := { s with eng := { s.eng with state := .idle } }

/-! ### Reset -/

/-- `RESET` (70_reset_and_hazards.md R370): every register at its reset value. The Transport and the caller are not the
core's (R372), nor are the images and the parameters of the run (R50). -/
def resetCore (s : State) : State :=
  { State.reset with params := s.params, ports := { s.ports with reports := [] } }

/-- No operation is in progress. -/
def opResting (s : State) : Bool := s.seq.state == .idle || s.seq.state == .done

/-- Nothing is in progress: no operation, and no EXECUTE that has not latched its outcome. -/
def coreResting (s : State) : Bool := opResting s && (s.eng.state == .idle || s.eng.state == .done)

end Sys2Proof.Machine
end

