-- ==== Sys2Proof/Machine/Codec.lean ====
section
/-! DEFINITION. Machine/Codec.lean: the wire-byte family, one `DEC_STEP` each (40_codec.md R141 to R145). -/

namespace Sys2Proof.Machine

/-- `DEC_STEP(0xC0)` (R141). -/
def execFend (s : State) : Host.Outcome State Fault Refusal := decStepWith (decFend s.params) s

/-- `DEC_STEP(0xDB)` (R142). -/
def execFesc (s : State) : Host.Outcome State Fault Refusal := decStepWith decFesc s

/-- `DEC_STEP(0xDD)` (R143): `0xDB` after an escape, `0xDD` otherwise. -/
def execTfesc (s : State) : Host.Outcome State Fault Refusal :=
  decStepWith (decTransposed s.params.rxCap s.params.fesc s.params.tfesc) s

/-- `DEC_STEP(0xDC)` (R144): `0xC0` after an escape, `0xDC` otherwise. -/
def execTfend (s : State) : Host.Outcome State Fault Refusal :=
  decStepWith (decTransposed s.params.rxCap s.params.fend s.params.tfend) s

/-- `DEC_STEP(b)` for any other byte (R145). With a special byte the instruction is ill-formed (log entry 20). -/
def execOrdinary (b : Byte) (s : State) : Host.Outcome State Fault Refusal :=
  if isSpecial s.params b then .refused (.notAnOrdinaryByte b) else decStepWith (decStore s.params.rxCap b) s

end Sys2Proof.Machine
end

