-- ==== Sys2Proof/Machine/Commands.lean ====
section
/-! DEFINITION. Machine/Commands.lean: the command family (41_commands.md R170 to R190). A command is sent only through
EXECUTE, whose start encodes the frame and puts the engine in `E_SEND1` (42_engine.md R211); the engine's own steps
(Machine/Engine.lean) send it and wait. -/

namespace Sys2Proof.Machine

/-- READ_ID (R170). -/
def execReadId (payload : List Byte) (expected : Byte) (s : State) : Host.Outcome State Fault Refusal :=
  executeStart (opcodeByte .readId) payload expected s

/-- POWER_UP (R172). -/
def execPowerUp (payload : List Byte) (expected : Byte) (s : State) : Host.Outcome State Fault Refusal :=
  executeStart (opcodeByte .powerUp) payload expected s

/-- POWER_DOWN (R174). -/
def execPowerDown (payload : List Byte) (expected : Byte) (s : State) : Host.Outcome State Fault Refusal :=
  executeStart (opcodeByte .powerDown) payload expected s

/-- WRITE_ENABLE (R176). -/
def execWriteEnable (payload : List Byte) (expected : Byte) (s : State) : Host.Outcome State Fault Refusal :=
  executeStart (opcodeByte .writeEnable) payload expected s

/-- BULK_ERASE (R178). -/
def execBulkErase (payload : List Byte) (expected : Byte) (s : State) : Host.Outcome State Fault Refusal :=
  executeStart (opcodeByte .bulkErase) payload expected s

/-- SECTOR_ERASE (R180). -/
def execSectorErase (payload : List Byte) (expected : Byte) (s : State) : Host.Outcome State Fault Refusal :=
  executeStart (opcodeByte .sectorErase) payload expected s

/-- PROGRAM (R182). -/
def execProgram (payload : List Byte) (expected : Byte) (s : State) : Host.Outcome State Fault Refusal :=
  executeStart (opcodeByte .program) payload expected s

/-- READ (R184). -/
def execRead (payload : List Byte) (expected : Byte) (s : State) : Host.Outcome State Fault Refusal :=
  executeStart (opcodeByte .read) payload expected s

/-- READY (R186). -/
def execReady (payload : List Byte) (expected : Byte) (s : State) : Host.Outcome State Fault Refusal :=
  executeStart (opcodeByte .ready) payload expected s

/-- READ_ALL (R188). -/
def execReadAll (payload : List Byte) (expected : Byte) (s : State) : Host.Outcome State Fault Refusal :=
  executeStart (opcodeByte .readAll) payload expected s

/-- EMPTY (R190). -/
def execEmpty (payload : List Byte) (expected : Byte) (s : State) : Host.Outcome State Fault Refusal :=
  executeStart (opcodeByte .empty) payload expected s

end Sys2Proof.Machine
end

