-- ==== Sys2Proof/Machine/Responses.lean ====
section
/-! DEFINITION. Machine/Responses.lean: the response family (41_commands.md R171 to R191), one handler per tag. Seven of the
eleven tags have no handler of their own and end in IGNORE_OTHER (42_engine.md R225). -/

namespace Sys2Proof.Machine

/-- READ_ID.rsp (R171): the identification registers are written exactly when the frame is expected and long enough. -/
def execReadIdRsp (s : State) : Host.Outcome State Fault Refusal :=
  onFrame (fun s => ending (verdictReadId s) (if verdictReadId s = .succeed then latchIds s else s)) s

/-- POWER_UP.rsp (R173). -/
def execPowerUpRsp (s : State) : Host.Outcome State Fault Refusal := onFrame ignoreOther s

/-- POWER_DOWN.rsp (R175). -/
def execPowerDownRsp (s : State) : Host.Outcome State Fault Refusal := onFrame ignoreOther s

/-- WRITE_ENABLE.rsp (R177). -/
def execWriteEnableRsp (s : State) : Host.Outcome State Fault Refusal := onFrame ignoreOther s

/-- BULK_ERASE.rsp (R179). -/
def execBulkEraseRsp (s : State) : Host.Outcome State Fault Refusal := onFrame ignoreOther s

/-- SECTOR_ERASE.rsp (R181). -/
def execSectorEraseRsp (s : State) : Host.Outcome State Fault Refusal := onFrame ignoreOther s

/-- PROGRAM.rsp (R183). -/
def execProgramRsp (s : State) : Host.Outcome State Fault Refusal := onFrame ignoreOther s

/-- READ.rsp (R185): the side effect happens whatever the caller expects. -/
def execReadRsp (s : State) : Host.Outcome State Fault Refusal :=
  onFrame (fun s => ending (verdictPage s.params.readMin s)
    (if resolvesPage (verdictPage s.params.readMin s) then storePage s else s)) s

/-- READY.rsp (R187). -/
def execReadyRsp (s : State) : Host.Outcome State Fault Refusal := onFrame (fun s => ending (verdictReady s) s) s

/-- READ_ALL.rsp (R189). -/
def execReadAllRsp (s : State) : Host.Outcome State Fault Refusal := onFrame ignoreOther s

/-- EMPTY.rsp (R191): the Memory Image is not written. -/
def execEmptyRsp (s : State) : Host.Outcome State Fault Refusal :=
  onFrame (fun s => ending (verdictPage 4 s) (if resolvesPage (verdictPage 4 s) then clearPage s else s)) s

end Sys2Proof.Machine
end

