-- ==== Sys2Proof/Machine/Dispatch.lean ====
section
/-! DEFINITION. Machine/Dispatch.lean: one arm per instruction. -/

namespace Sys2Proof.Machine

def exec (i : Instr) (s : State) : Host.Outcome State Fault Refusal :=
  match i with
  -- commands
  | .readId payload expected => Sys2Proof.Machine.execReadId payload expected s
  | .powerUp payload expected => Sys2Proof.Machine.execPowerUp payload expected s
  | .powerDown payload expected => Sys2Proof.Machine.execPowerDown payload expected s
  | .writeEnable payload expected => Sys2Proof.Machine.execWriteEnable payload expected s
  | .bulkErase payload expected => Sys2Proof.Machine.execBulkErase payload expected s
  | .sectorErase payload expected => Sys2Proof.Machine.execSectorErase payload expected s
  | .program payload expected => Sys2Proof.Machine.execProgram payload expected s
  | .read payload expected => Sys2Proof.Machine.execRead payload expected s
  | .ready payload expected => Sys2Proof.Machine.execReady payload expected s
  | .readAll payload expected => Sys2Proof.Machine.execReadAll payload expected s
  | .empty payload expected => Sys2Proof.Machine.execEmpty payload expected s
  -- responses
  | .readIdRsp => Sys2Proof.Machine.execReadIdRsp s
  | .powerUpRsp => Sys2Proof.Machine.execPowerUpRsp s
  | .powerDownRsp => Sys2Proof.Machine.execPowerDownRsp s
  | .writeEnableRsp => Sys2Proof.Machine.execWriteEnableRsp s
  | .bulkEraseRsp => Sys2Proof.Machine.execBulkEraseRsp s
  | .sectorEraseRsp => Sys2Proof.Machine.execSectorEraseRsp s
  | .programRsp => Sys2Proof.Machine.execProgramRsp s
  | .readRsp => Sys2Proof.Machine.execReadRsp s
  | .readyRsp => Sys2Proof.Machine.execReadyRsp s
  | .readAllRsp => Sys2Proof.Machine.execReadAllRsp s
  | .emptyRsp => Sys2Proof.Machine.execEmptyRsp s
  -- wire bytes
  | .fend => Sys2Proof.Machine.execFend s
  | .fesc => Sys2Proof.Machine.execFesc s
  | .tfesc => Sys2Proof.Machine.execTfesc s
  | .tfend => Sys2Proof.Machine.execTfend s
  | .ordinary b => Sys2Proof.Machine.execOrdinary b s

end Sys2Proof.Machine
end

