-- ==== Sys2Proof/Machine/Engine.lean ====
section
/-! DEFINITION. Machine/Engine.lean: the engine's own steps, one per value of `eng_state` (42_engine.md R213 to R218), and
the running of the instruction a port presents: a raw byte by `decode (.wire b)`, a completed frame by
`decode (.frame rx_buf)`. The sleeps change no state and are dropped (60_exceptions.md R346). -/

namespace Sys2Proof.Machine

/-- `CHECK_WRITE(r, k)` (R214): only the full count goes on. -/
def checkWrite (r : TxAnswer) (k : Nat) (onward : EngState) (s : State) : State :=
  if r = .count k then { s with eng := { s.eng with state := onward } } else transportError s

/-- `E_SEND1` (R212, R213): the first or only write. -/
def firstWrite (s : State) : State :=
  let bytes := s.enc.buf.take s.params.txChunk
  let (r, t) := txWrite bytes s
  checkWrite r bytes.length (if s.enc.len ≤ s.params.txChunk then .poll else .gap) t

/-- `E_GAP` (R215). -/
def gapStep (s : State) : State := { s with eng := { s.eng with state := .send2 } }

/-- `E_SEND2` (R215): the rest in one write, however long (C6). -/
def secondWrite (s : State) : State :=
  let bytes := s.enc.buf.drop s.params.txChunk
  let (r, t) := txWrite bytes s
  checkWrite r bytes.length .poll t

/-- Run the instruction a port presents, decoded under the parameters of the run. -/
def runCode (c : Code) (s : State) : Host.Outcome State Fault Refusal :=
  match decode s.params c with
  | .ok i => exec i s
  | .error (.opcodeNotInEnumeration op) => .refused (.opcodeNotInEnumeration op)
  | .error (.payloadTooLong n) => .refused (.payloadTooLong n)
  | .error (.tagNotAnOpcode _) => onFrame ignoreOther s
  | .error .emptyFrame => .refused .emptyFrame

/-- `TIMEOUT_TICK` after a classification (R218): an ended EXECUTE does not tick, an absorbed or ignored frame leaves the
counter at zero, the two fault endings count the iteration. -/
def afterVerdict : Verdict → State → State
  | .succeed => id
  | .absorb => timeoutExpiry
  | .ignoreOther => timeoutExpiry
  | .malformed => timeoutTick
  | .addrRange => timeoutTick

/-- The second half of a poll iteration (R217): classify a ready frame (R220; a tag that is no opcode is IGNORE_OTHER,
R118), then tick. -/
def afterByte (s : State) : Host.Outcome State Fault Refusal :=
  if s.dec.ready then
    andThen (runCode (.frame s.dec.buf) s) (fun t => .next (afterVerdict (classifyVerdict s) t))
  else .next (timeoutTick s)

/-- `POLL_ITERATION` (R217): one poll, at most one byte, at most one frame, one tick. -/
def pollIteration (s : State) : Host.Outcome State Fault Refusal :=
  match rxPoll s with
  | (.fail, t) => .next (transportError t)
  | (.none, t) => afterByte t
  | (.byte b, t) => andThen (runCode (.wire b) t) afterByte

end Sys2Proof.Machine
end

