-- ==== Sys2Proof/Machine/Sequencer.lean ====
section
/-! DEFINITION. Machine/Sequencer.lean: the six flash operations (44_flash_operations.md), one step per label of `op_state`.
A `_WAIT` label with the engine idle issues its EXECUTE; with an outcome latched it collects it and applies the operation's
policy (60_exceptions.md R323). Every fixed command is run through `exec`, as the instruction of its command rule. -/

namespace Sys2Proof.Machine

/-! ### The labels with the engine idle -/

/-- `SE_NEXT` (R290). -/
def sectorNext (s : State) : State :=
  if s.seq.addr < s.seq.srcLen then goTo .seWait s
  else if s.seq.anyFail then finishFail .protocolTimeout s
  else finishOk s

/-- `op_addr <- op_addr + n` and back to a label. -/
def advanceAddr (n : Nat) (l : OpState) (s : State) : State :=
  { s with seq := { s.seq with addr := s.seq.addr + n, state := l } }

/-- `PG_NEXT` (R293, R294): a chunk that is all fill is skipped unless the caller forces it. -/
def programNext (s : State) : State :=
  if s.seq.addr < s.seq.srcLen then
    if s.seq.forceFill || !allFill s.params (chunk s) then { s with seq := { s.seq with tries := 0, state := .pgWait } }
    else advanceAddr s.params.pageSize .pgNext s
  else finishOk s

/-- `RA_INIT` (R301): `IMG_FILL` and `PT_INIT` before any command is sent. -/
def readAllInit (s : State) : State :=
  goTo .raStartWait { s with memImage := Memory.filled s.params.fill, pageDirty := ptInit }

/-- `RA_PASS` (R303). -/
def readAllPass (s : State) : State :=
  { s with seq := { s.seq with failCount := 0, found := false, page := 0, state := .raScan } }

/-- `op_page <- op_page + 1` and back to the scan. -/
def nextPage (s : State) : State := { s with seq := { s.seq with page := s.seq.page + 1, state := .raScan } }

/-- A dirty page of the scan (R304): the threshold test comes before the READ. -/
def dirtyPage (s : State) : State :=
  if s.params.failMax < s.seq.failCount then raiseOp .convergenceFailure (.page s.seq.page) s else goTo .raWait s

/-- `RA_SCAN` (R304, R306): one page of the scan; past the last page, another pass if this one met a dirty page. -/
def readAllScan (s : State) : Host.Outcome State Fault Refusal :=
  if s.seq.page < s.params.pageCount then
    match ptTest s.pageDirty s.seq.page with
    | some true => .next (dirtyPage { s with seq := { s.seq with found := true } })
    | some false => .next (nextPage s)
    | none => .fault (.pageBitUnspecified s.seq.page)
  else if s.seq.found then .next (goTo .raPass s)
  else .next (finishReadAll s)

/-- The comparison of `VF_RUN` (R310): `n` bytes from `a` up, to the first difference; a read that faults ends it. -/
def compareFrom (s : State) (a : Nat) : Nat → Except Fault (Option Nat)
  | 0 => .ok none
  | n + 1 =>
    match imageRead s a with
    | .error r => .error r
    | .ok v => if v = imageByte s.ports.reference a then compareFrom s (a + 1) n else .ok (some a)

/-- `VF_RUN` (R310): the whole comparison is one internal action (log entry 2). -/
def verifyRun (s : State) : Host.Outcome State Fault Refusal :=
  if s.params.imageSize < s.seq.refLen then .refused (.imageTooLarge s.seq.refLen)
  else
    match compareFrom s 0 s.seq.refLen with
    | .error r => .fault r
    | .ok none => .next (finishOk s)
    | .ok (some a) => .next (raiseOp .verificationMismatch (.address a) s)

/-- One step of the operation in progress with the engine idle. -/
def sequencerStep (s : State) : Host.Outcome State Fault Refusal :=
  match s.seq.state with
  | .idle => .next s
  | .idWait => exec cmdReadId s
  | .beWait => exec cmdBulkErase s
  | .seNext => .next (sectorNext s)
  | .seWait => exec (cmdSectorErase s.seq.addr) s
  | .pgNext => .next (programNext s)
  | .pgWait => exec (cmdProgram s.seq.addr (chunk s)) s
  | .raInit => .next (readAllInit s)
  | .raStartWait => exec cmdReadAll s
  | .raPass => .next (readAllPass s)
  | .raScan => readAllScan s
  | .raWait => exec (cmdReadPage s.seq.page) s
  | .vfRun => verifyRun s
  | .done => .next s

/-! ### Collecting an outcome -/

/-- TransportFailure in any operation (R282). -/
def onTransportFailure (s : State) : State := raiseOp .transportFailure (.operation s.seq.sel) s

/-- Success of the EXECUTE that a label waits for. -/
def onSuccess (s : State) : Host.Outcome State Fault Refusal :=
  match s.seq.state with
  | .idWait => .next (finishOk (report .none (.ids s.ident.mfr s.ident.dev0 s.ident.dev1) s))
  | .beWait => .next (finishOk s)
  | .seWait => .next (advanceAddr s.params.sectorSize .seNext s)
  | .pgWait => .next (advanceAddr s.params.pageSize .pgNext s)
  | .raStartWait => .next (goTo .raPass s)
  | .raWait => .next (nextPage s)
  | .idle => .refused .controlOutOfStep
  | .seNext => .refused .controlOutOfStep
  | .pgNext => .refused .controlOutOfStep
  | .raInit => .refused .controlOutOfStep
  | .raPass => .refused .controlOutOfStep
  | .raScan => .refused .controlOutOfStep
  | .vfRun => .refused .controlOutOfStep
  | .done => .refused .controlOutOfStep

/-- A sector erase timed out: report, remember, go on (R290, D22). -/
def sectorTimeout (s : State) : State :=
  let t := report .protocolTimeout (.address s.seq.addr) s
  advanceAddr s.params.sectorSize .seNext { t with seq := { t.seq with anyFail := true } }

/-- The retry bound `PROG_RETRY_MAX = some(k)` is reached (R295, D24). -/
def retriesExhausted (bound : Option Nat) (tries : Nat) : Bool :=
  match bound with
  | none => false
  | some k => k ≤ tries

/-- A program send timed out: report and send again, unless the bound is reached (R293, R295). -/
def programTimeout (s : State) : State :=
  let t := report .protocolTimeout (.address s.seq.addr) s
  let u := { t with seq := { t.seq with tries := t.seq.tries + 1 } }
  if retriesExhausted s.params.progRetryMax u.seq.tries then finishFail .protocolTimeout u else u

/-- An explicit READ timed out: counted, not reported; the page stays dirty (R305). -/
def readTimeout (s : State) : State :=
  nextPage { s with seq := { s.seq with failCount := s.seq.failCount + 1 } }

/-- Timeout of the EXECUTE that a label waits for: the operation's policy (R323). -/
def onTimeout (s : State) : Host.Outcome State Fault Refusal :=
  match s.seq.state with
  | .idWait => .next (raiseOp .protocolTimeout (.operation .identify) s)
  | .beWait => .next (raiseOp .protocolTimeout .noAnswerFromProgrammer s)
  | .seWait => .next (sectorTimeout s)
  | .pgWait => .next (programTimeout s)
  | .raStartWait => .next (raiseOp .protocolTimeout (.operation .readAll) s)
  | .raWait => .next (readTimeout s)
  | .idle => .refused .controlOutOfStep
  | .seNext => .refused .controlOutOfStep
  | .pgNext => .refused .controlOutOfStep
  | .raInit => .refused .controlOutOfStep
  | .raPass => .refused .controlOutOfStep
  | .raScan => .refused .controlOutOfStep
  | .vfRun => .refused .controlOutOfStep
  | .done => .refused .controlOutOfStep

/-- The operation in progress collects the outcome (R230) and goes on by it. -/
def collectOutcome (s : State) : Host.Outcome State Fault Refusal :=
  match s.eng.outcome with
  | .success => onSuccess (collected s)
  | .timeout => onTimeout (collected s)
  | .transportFailure => .next (onTransportFailure (collected s))
  | .none => .refused .controlOutOfStep

/-- One step of the core on its own: the engine's when an EXECUTE is outstanding, the sequencer's otherwise. At rest, and
with the outcome of a hand-made EXECUTE not yet collected, nothing moves (R370; log entry 4). -/
def coreStep (s : State) : Host.Outcome State Fault Refusal :=
  match s.eng.state with
  | .idle => sequencerStep s
  | .send1 => .next (firstWrite s)
  | .gap => .next (gapStep s)
  | .send2 => .next (secondWrite s)
  | .poll => pollIteration s
  | .done => if opResting s then .next s else collectOutcome s

end Sys2Proof.Machine
end

