-- ==== Sys2Proof/Machine/Caller.lean ====
section
/-! DEFINITION. Machine/Caller.lean: the moves of the caller (00_scope.md R10 (c)): starting an operation
(44_flash_operations.md R280), a hand-made EXECUTE and the collecting of its outcome (42_engine.md R210, R230), the dump
port (10_state.md R47), and RESET (70_reset_and_hazards.md R370). -/

namespace Sys2Proof.Machine

/-- The size of a bound image, 0 where none is bound. -/
def imageLen : Option Image → Nat
  | none => 0
  | some i => i.len

/-- The contents of a bound image. -/
def imageCells : Option Image → List Host.Cell
  | none => []
  | some i => i.cells

/-- The first label of an operation (R285 to R310). -/
def firstLabel : OpSel → OpState
  | .identify => .idWait
  | .bulkErase => .beWait
  | .sectorErase => .seNext
  | .program => .pgNext
  | .readAll => .raInit
  | .verify => .vfRun

/-- The operation needs the source image (R376). -/
def needsSource : OpSel → Bool
  | .sectorErase => true
  | .program => true
  | .identify => false
  | .bulkErase => false
  | .readAll => false
  | .verify => false

/-- The operation needs the reference image (R376). -/
def needsReference : OpSel → Bool
  | .verify => true
  | .identify => false
  | .bulkErase => false
  | .sectorErase => false
  | .program => false
  | .readAll => false

/-- The operation needs a read-all that ended `S_OK` since the last reset (R376). -/
def needsReadAll : OpSel → Bool
  | .verify => true
  | .identify => false
  | .bulkErase => false
  | .sectorErase => false
  | .program => false
  | .readAll => false

/-- What `src_len` or `ref_len` latches of an image's size (R39): the size. An operation that does not read an image may start
with one bound whose size the register cannot hold (R376); what it then latches is a free value in the register's range (log
entry 17). -/
def latchedLen (p : Params) (len : Nat) : Nat :=
  if len ≤ p.imageSize then len else Config.freeImageLen len % (p.imageSize + 1)

/-- The effect of a start that meets its preconditions (R280, R39): the arguments latched, `S_BUSY`, `op_err` 0, the first
label; sector erase and program begin with `op_addr <- 0`, sector erase with `any_fail <- 0` (R290, R293). -/
def latchArgs (a : OpArgs) (s : State) : State :=
  { s with
    seq := { s.seq with
      state := firstLabel a.sel
      sel := a.sel
      forceFill := a.forceFill
      srcLen := latchedLen s.params (imageLen a.source)
      refLen := latchedLen s.params (imageLen a.reference)
      addr := if needsSource a.sel then 0 else s.seq.addr
      anyFail := if a.sel = .sectorErase then false else s.seq.anyFail
      status := .busy
      err := .none }
    ports := { s.ports with source := imageCells a.source, reference := imageCells a.reference } }

/-- Start an operation (R280), with the preconditions of R376: the image the operation reads is bound and, by R290, R293 and R310,
no longer than `IMAGE_SIZE`; for verify, a read-all ended `S_OK` since the last reset (log entries 17, 22). The operations that
need only the Transport start whatever is bound. -/
def startOp (a : OpArgs) (s : State) : Host.Outcome State Fault Refusal :=
  if !opResting s then .refused .operationInProgress
  else if s.eng.state ≠ .idle then .refused .engineBusy
  else if needsSource a.sel && a.source.isNone then .refused .sourceNotBound
  else if needsReference a.sel && a.reference.isNone then .refused .referenceNotBound
  else if needsReadAll a.sel && !s.seq.readAllOk then .refused .noReadAllSinceReset
  else if needsSource a.sel && s.params.imageSize < imageLen a.source then .refused (.imageTooLarge (imageLen a.source))
  else if needsReference a.sel && s.params.imageSize < imageLen a.reference then .refused (.imageTooLarge (imageLen a.reference))
  else .next (latchArgs a s)

/-- A hand-made EXECUTE (R210): the instruction the decoder reads from the call, refused during an operation and while an
EXECUTE is outstanding (U10; log entry 11). -/
def handExecute (op : Byte) (payload : List Byte) (expected : Byte) (s : State) : Host.Outcome State Fault Refusal :=
  if !opResting s then .refused .operationInProgress
  else if s.eng.state ≠ .idle then .refused .engineBusy
  else runCode (.call op payload expected) s

/-- Collect the outcome of a hand-made EXECUTE (R230). During an operation the EXECUTE is the operation's, and so is the
collecting: R230 names no outcome for the outer caller's move then, and the model refuses it (DESIGN CHOICE, log entry 11). -/
def handCollect (s : State) : Host.Outcome State Fault Refusal :=
  if !opResting s then .refused .operationInProgress
  else if s.eng.state = .done then .next (collected s)
  else .refused .nothingToCollect

/-- Read one byte through the dump port, only while no operation is in progress (R47). -/
def dumpByte (a : Nat) (s : State) : Host.Outcome State Fault Refusal :=
  if opResting s then
    match imageRead s a with
    | .ok v => .next { s with ports := { s.ports with dumped := s.ports.dumped ++ [(a, v)] } }
    | .error r => .fault r
  else .refused .dumpDuringOperation

/-- The core's step under a move of the caller, already taken from the list. -/
def callerStep (m : CallerMove) (s : State) : Host.Outcome State Fault Refusal :=
  match m with
  | .pass => coreStep s
  | .await => coreStep s
  | .start a => startOp a s
  | .execute op payload expected => handExecute op payload expected s
  | .collect => handCollect s
  | .dump a => dumpByte a s
  | .reset => .next (resetCore s)

/-- The caller still waits: its next move is `await` and the core does not rest. -/
def stillAwaiting (m : CallerMove) (s : State) : Bool := m == .await && !coreResting s

/-- Take the caller's next moves off the list. -/
def setMoves (rest : List CallerMove) (s : State) : State := { s with ports := { s.ports with moves := rest } }

end Sys2Proof.Machine
end

