-- ==== Sys2Proof/Machine/Step.lean ====
section
/-! DEFINITION. Machine/Step.lean: one step of the link core (00_scope.md R11), and the placing of a table word where the
next step fetches it. -/

namespace Sys2Proof.Machine

/-- One step. The caller's next move, if it has one, is taken off the list and applied; otherwise, and under `pass` and
`await`, the core takes its own step. -/
def step (s : State) : Host.Outcome State Fault Refusal :=
  match s.ports.moves with
  | [] => coreStep s
  | m :: rest => if stillAwaiting m s then coreStep s else callerStep m (setMoves rest s)

/-- `s` with the code a port will present next (log entry 18). A call: the engine idle, no operation in progress, and the
caller's next move a hand-made EXECUTE. A frame: the engine polling, the frame complete in the receive buffer, no byte
at the next poll. A wire byte: the engine polling, no frame pending, the byte the next answer of the Transport. -/
def State.withCode (s : State) : Code → State
  | .call op payload expected =>
    { s with
      eng := { s.eng with state := .idle }
      seq := { s.seq with state := if opResting s then s.seq.state else .idle }
      ports := { s.ports with moves := .execute op payload expected :: s.ports.moves } }
  | .frame bytes =>
    { s with
      eng := { s.eng with state := .poll }
      dec := { s.dec with buf := bytes, ready := true }
      ports := { s.ports with moves := .pass :: s.ports.moves, rxScript := .none :: s.ports.rxScript } }
  | .wire b =>
    { s with
      eng := { s.eng with state := .poll }
      dec := { s.dec with ready := false }
      ports := { s.ports with moves := .pass :: s.ports.moves, rxScript := .byte b :: s.ports.rxScript } }

/-- `s` with the instruction of a table word placed where `step` fetches next. -/
def State.withFetchWord (s : State) (nbits w : Nat) : State := s.withCode (tableCode (w % 2 ^ nbits))

end Sys2Proof.Machine
end

