-- ==== Sys2Proof/Safety.lean ====
section
/-! DEFINITION. Safety.lean: what a safe run is, in the terms claims use. `Sound` is the invariant of every state between two
steps: the ranges of the registers (10_state.md R20 to R42), the decoder invariant (R26, 42_engine.md R235), the canonical
form and the background of the two memories, and the agreement of the two control registers `eng_state` and `op_state`.
`Defined` is the premise the spec asks of every claim about a run: both fault flags are 0 (R43). -/

namespace Sys2Proof.Machine

/-- What the five bytes of the frame format must satisfy for the framing to work: the four special bytes differ, no opcode, which
`ENC` sends as it is (40_codec.md R131), is the delimiter or the escape byte, and the sum of no bytes is not the target (10_state.md
R26). The defaults satisfy it. -/
structure FramingInv (p : Params) : Prop where
  fend_fesc : p.fend ≠ p.fesc
  fend_tfend : p.fend ≠ p.tfend
  fend_tfesc : p.fend ≠ p.tfesc
  fesc_tfend : p.fesc ≠ p.tfend
  fesc_tfesc : p.fesc ≠ p.tfesc
  tfend_tfesc : p.tfend ≠ p.tfesc
  opcode : ∀ op, opcodeByte op ≠ p.fend ∧ opcodeByte op ≠ p.fesc
  target : p.csTarget ≠ 0#8

/-- What the parameters of a run must satisfy for the rules to make sense: a first write offers a byte (00_scope.md R16), a wait
has an iteration, and pages divide sectors and sectors the image, so that no access crosses its top (20_memory.md R71, R81 to
R83). The defaults satisfy it. -/
structure ParamsInv (p : Params) : Prop where
  framing : FramingInv p
  txChunk_pos : 1 ≤ p.txChunk
  tmoIter_pos : 1 ≤ p.tmoIter
  sector_pos : 1 ≤ p.sectorSize
  page_sector : p.pageSize ∣ p.sectorSize
  sector_image : p.sectorSize ∣ p.imageSize

/-- The decoder invariant, after every decoder operation (R26). -/
structure DecoderInv (p : Params) (d : Decoder) : Prop where
  sum_eq : d.sum = sum8 d.buf
  cur_le : d.cur ≤ p.rxCap
  ready_sum : d.ready = true → d.sum = p.csTarget
  ready_cur : d.ready = true → 1 ≤ d.cur

/-- The engine is sending or waiting. -/
def engActive (e : EngState) : Bool := e == .send1 || e == .gap || e == .send2 || e == .poll

/-- The engine has not begun to wait. -/
def engSending (e : EngState) : Bool := e == .send1 || e == .gap || e == .send2

/-- The engine's registers (R27, R28, R30 to R34, R44). -/
structure EngineInv (s : State) : Prop where
  tmo_le : s.eng.tmo ≤ s.params.tmoIter
  tmo_poll : s.eng.state = .poll → s.eng.tmo < s.params.tmoIter
  tmo_sending : engSending s.eng.state = true → s.eng.tmo = 0
  active_outcome : engActive s.eng.state = true → s.eng.outcome = .none
  active_transport : engActive s.eng.state = true → s.flags.transport = false
  done_outcome : s.eng.state = .done → s.eng.outcome ≠ .none
  res_le : s.eng.resLen ≤ s.params.rxCap
  tx_le : s.enc.len ≤ s.params.txCap
  tx_send1 : s.eng.state = .send1 → 4 ≤ s.enc.len
  tx_split : s.eng.state = .gap ∨ s.eng.state = .send2 → s.params.txChunk < s.enc.len

/-- A label with an EXECUTE outstanding (R38). -/
def opWaiting (l : OpState) : Bool :=
  l == .idWait || l == .beWait || l == .seWait || l == .pgWait || l == .raStartWait || l == .raWait

/-- A label of a read-all after its initialisation. -/
def opDumping (l : OpState) : Bool := l == .raStartWait || l == .raPass || l == .raScan || l == .raWait

/-- The sequencer's registers (R38 to R42). -/
structure SeqInv (s : State) : Prop where
  engine_waits : s.eng.state ≠ .idle → opWaiting s.seq.state = true ∨ opResting s = true
  src_le : s.seq.srcLen ≤ s.params.imageSize
  ref_le : s.seq.refLen ≤ s.params.imageSize
  addr_le : s.seq.addr ≤ s.params.imageSize
  addr_page : s.seq.addr % s.params.pageSize = 0
  addr_sector : s.seq.state = .seNext ∨ s.seq.state = .seWait → s.seq.addr % s.params.sectorSize = 0
  addr_wait : s.seq.state = .seWait ∨ s.seq.state = .pgWait → s.seq.addr < s.seq.srcLen
  page_le : s.seq.page ≤ s.params.pageCount
  page_wait : s.seq.state = .raWait → s.seq.page < s.params.pageCount
  found_wait : s.seq.state = .raWait → s.seq.found = true
  fails_le : s.seq.failCount ≤ s.params.failMax + 1
  fails_wait : s.seq.state = .raWait → s.seq.failCount ≤ s.params.failMax
  scan_clean : s.seq.state = .raScan → s.seq.found = false → ∀ p < s.seq.page, ptTest s.pageDirty p = some false
  dump_filled : opDumping s.seq.state = true → s.memImage.bg = some s.params.fill
  dump_marked : opDumping s.seq.state = true → s.pageDirty.bg = some true
  status_busy : opResting s = false → s.seq.status = .busy
  status_rest : opResting s = true → s.seq.status ≠ .busy
  err_none : s.seq.status ≠ .fail → s.seq.err = .none
  err_fail : s.seq.status = .fail → s.seq.err ≠ .none
  verify_after_read_all : s.seq.state = .vfRun → s.seq.readAllOk = true
  read_all_filled : s.seq.readAllOk = true → s.memImage.bg = some s.params.fill

/-- The Memory Image: canonical, no cell outside it (R71), and filled by R301 or not filled since reset (R37). -/
structure ImageInv (p : Params) (m : Memory Byte) : Prop where
  canonical : m.wf
  in_range : ∀ c ∈ m.cells, c.1 < p.imageSize
  background : m.bg = none ∨ m.bg = some p.fill

/-- The Page Bitmap: canonical, no cell outside it (R72), and marked by R261 or not marked since reset (R36). -/
structure BitmapInv (p : Params) (m : Memory Bool) : Prop where
  canonical : m.wf
  in_range : ∀ c ∈ m.cells, c.1 < p.pageCount
  background : m.bg = none ∨ m.bg = some true

/-- The invariant of every state between two steps. -/
structure Sound (s : State) : Prop where
  params : ParamsInv s.params
  decoder : DecoderInv s.params s.dec
  not_ready : s.dec.ready = false
  engine : EngineInv s
  sequencer : SeqInv s
  image : ImageInv s.params s.memImage
  bitmap : BitmapInv s.params s.pageDirty

/-- A raw byte sequence fed to the decoder, one `DEC_STEP` a byte, each the instruction the decoder reads from the byte
(40_codec.md R148, R150). -/
def feedRaw : List Byte → State → Host.Outcome State Fault Refusal
  | [], s => .next s
  | b :: bs, s => andThen (runCode (.wire b) s) (feedRaw bs)

/-- `n` steps, stopping at the first fault or refusal. -/
def steps : Nat → State → Host.Outcome State Fault Refusal
  | 0, s => .next s
  | n + 1, s => andThen (step s) (steps n)

/-- The run has not left what the source defines: both fault flags are 0 (R43, R327). -/
def Defined (s : State) : Prop := s.flags.malformed = false ∧ s.flags.addrRange = false

end Sys2Proof.Machine
end

