-- ==== Sys2Proof/Certificates/Slice0/Obligations.lean ====
section
/-! DEFINITION. Certificates/Slice0/Obligations.lean: the statements for the provers. They hold for every value of the
parameters of a run (00_scope.md R8; `Params` in Config.lean, log entry 21); the spec's literals are the defaults. A per-label
statement is about `coreStep`; `StepTakesTheCallersMoveOrTheCoreStep` says when `step` is `coreStep`. An equation with a next
state written as an update of `s` is also the frame: whatever the update does not name is as before. -/

open Sys2Proof Sys2Proof.Machine

/-! ### Encoding -/

/-- 30_encoding.md R116, R102 (sanity): words written out bit by bit decode, each at its port, to the instruction they stand
for; a call outside the enumeration and a tag outside it are rejected by name. -/
def Obligations.SomeTableWordsDecodeAtTheirPorts : Prop :=
  decode .default (.call 0b10011111#8 [] 0x9F#8) = .ok (.readId [] 0x9F#8) ∧
  decode .default (.call 0b00000010#8 [0x00#8, 0x01#8, 0xA5#8] 0x44#8) = .ok (.program [0x00#8, 0x01#8, 0xA5#8] 0x44#8) ∧
  decode .default (.frame [0b01000100#8, 0xBB#8]) = .ok .readyRsp ∧
  decode .default (.frame [0b01000101#8, 0x00#8, 0x01#8, 0xB9#8]) = .ok .emptyRsp ∧
  decode .default (.wire 0b11000000#8) = .ok .fend ∧
  decode .default (.wire 0b11011100#8) = .ok .tfend ∧
  decode .default (.wire 0b10011111#8) = .ok (.ordinary 0x9F#8) ∧
  decode .default (.call 0xC0#8 [] 0x00#8) = .error (.opcodeNotInEnumeration 0xC0#8) ∧
  decode .default (.frame [0xFF#8]) = .error (.tagNotAnOpcode 0xFF#8)

/-- 30_encoding.md R116, R102: decoding the encoding of any well-formed instruction gives it back, with every operand, under any
parameters that keep the four special bytes apart (`FramingInv`, which the defaults meet; log entry 21). -/
def Obligations.DecodeUndoesEncode : Prop :=
  ∀ (p : Params) (i : Instr), FramingInv p → i.wf p = true → decode p (encode p i) = .ok i

/-- 30_encoding.md R116, R111, R102: whatever decodes encodes back to the call or the raw byte it was read from; of a frame the tag
comes back. That it is well-formed says for a call that its payload has at most `PAYLOAD_MAX` bytes: the bound is 30_encoding.md
R100, 40_codec.md R131, R133 (D4, C1), and that the decoder itself rejects a longer one is the model's choice (log entry 11). -/
def Obligations.DecodedInstructionsAreWellFormedAndEncodeBack : Prop :=
  ∀ p c i, decode p c = .ok i → i.wf p = true ∧
    match c with
    | .call op payload expected => encode p i = .call op payload expected
    | .wire b => encode p i = .wire b
    | .frame bytes => ∃ tag rest, bytes = tag :: rest ∧ encode p i = .frame [tag]

/-- 30_encoding.md R104: by default the checksum is `0xFF` minus the sum of opcode and payload mod 256; under any parameters it
completes the sum of the un-escaped frame to `CS_TARGET`. -/
def Obligations.ChecksumIsTargetMinusSum : Prop :=
  ∀ op payload,
    (checksum .default op payload).toNat = 255 - (op.toNat + (payload.map BitVec.toNat).sum) % 256 ∧
    sum8 ((op :: payload) ++ [checksum .default op payload]) = 0xFF#8 ∧
    ∀ p : Params, sum8 ((op :: payload) ++ [checksum p op payload]) = p.csTarget

/-- 40_codec.md R134: the length of a raw frame, and its bounds for a payload of legal length
(`PAYLOAD_MAX` and `TX_CAP`, 258 and 521 by default). -/
def Obligations.RawFrameLength : Prop :=
  ∀ (p : Params) op payload, payload.length ≤ p.payloadMax →
    (rawFrame p op payload).length =
      4 + payload.length + (payload ++ [checksum p op payload]).countP (fun b => b == p.fend || b == p.fesc) ∧
    4 ≤ (rawFrame p op payload).length ∧ (rawFrame p op payload).length ≤ p.txCap

/-- 40_codec.md R135: the delimiter only first and last, every escape byte followed by a transposed byte, two raw bytes for
each payload or checksum byte that is the delimiter or the escape byte (`0xC0` or `0xDB` by default) and one for every other. -/
def Obligations.EscapeSymmetry : Prop :=
  (Params.default.fend, Params.default.fesc, Params.default.tfend, Params.default.tfesc) = (0xC0#8, 0xDB#8, 0xDC#8, 0xDD#8) ∧
  FramingInv .default ∧
  ∀ (p : Params) (op : Opcode) payload, FramingInv p → ∃ body,
    rawFrame p (opcodeByte op) payload = p.fend :: (body ++ [p.fend]) ∧
    p.fend ∉ body ∧
    (∀ i, body[i]? = some p.fesc → body[i + 1]? = some p.tfend ∨ body[i + 1]? = some p.tfesc) ∧
    body = opcodeByte op :: (payload ++ [checksum p (opcodeByte op) payload]).flatMap (esc p) ∧
    ∀ b, (esc p b).length = if b = p.fend ∨ b = p.fesc then 2 else 1

/-- 40_codec.md R150, the round trip: fed to a freshly reset decoder, the raw bytes of `ENC(op, payload)` leave a ready frame
of exactly opcode, payload and checksum, and change nothing else, if these fit `RX_CAP`. By default every payload of legal
length does. -/
def Obligations.EncodedFrameRoundTrip : Prop :=
  State.reset.params.payloadMax + 2 ≤ State.reset.params.rxCap ∧ FramingInv State.reset.params ∧
  ∀ (op : Opcode) payload s, FramingInv s.params → payload.length + 2 ≤ s.params.rxCap →
    s.dec = { buf := [], sum := 0#8, esc := false, ready := false } →
    feedRaw (encodeFrame s.params (opcodeByte op) payload).buf s =
      .next { s with dec := {
        buf := opcodeByte op :: (payload ++ [checksum s.params (opcodeByte op) payload]),
        sum := s.params.csTarget, esc := false, ready := true } }

/-- 40_codec.md R152: after any garbage that does not itself sum to `CS_TARGET` (`0xFF` by default), the next complete frame that
fits `RX_CAP` is decoded. -/
def Obligations.ResynchronisesAtTheNextDelimiter : Prop :=
  ∀ (op : Opcode) payload garbage s t, FramingInv s.params → payload.length + 2 ≤ s.params.rxCap →
    feedRaw garbage s = .next t → t.dec.ready = false → t.dec.sum ≠ s.params.csTarget →
    feedRaw (garbage ++ rawFrame s.params (opcodeByte op) payload) s =
      .next { t with dec := {
        buf := opcodeByte op :: (payload ++ [checksum s.params (opcodeByte op) payload]),
        sum := s.params.csTarget, esc := false, ready := true } }

/-- 40_codec.md R151: with any one bit of the raw checksum bytes flipped (one byte, or either byte of an escape pair), the
frame never makes the decoder ready. The frame fits `RX_CAP`, and the five bytes of the frame format have their default values:
the rule rests on these (95_test_vectors.md section 2.6). A frame ready before the last byte would make that byte refused (R147). -/
def Obligations.FlippedChecksumBitIsRejected : Prop :=
  ∀ (op : Opcode) payload s j k,
    (s.params.fend, s.params.fesc, s.params.tfend, s.params.tfesc, s.params.csTarget) =
      (0xC0#8, 0xDB#8, 0xDC#8, 0xDD#8, 0xFF#8) →
    payload.length + 2 ≤ s.params.rxCap → k < 8 →
    j < (esc s.params (checksum s.params (opcodeByte op) payload)).length →
    s.dec = { buf := [], sum := 0#8, esc := false, ready := false } →
    ∃ t, feedRaw (0xC0#8 :: opcodeByte op :: (escAll s.params payload ++
        ((esc s.params (checksum s.params (opcodeByte op) payload)).modify j (fun b => b ^^^ (1#8 <<< k)) ++
          [0xC0#8]))) s = .next t ∧
      t.dec.ready = false

/-! ### Wire bytes -/

/-- 40_codec.md R141 (`CS_TARGET` is `0xFF` by default). -/
def Obligations.DelimiterSignalsOrResets : Prop :=
  State.reset.params.csTarget = 0xFF#8 ∧
  ∀ s : State, s.dec.ready = false →
    exec .fend s = .next { s with dec :=
      if s.dec.sum = s.params.csTarget then { s.dec with ready := true }
      else { buf := [], sum := 0#8, esc := false, ready := false } }

/-- 40_codec.md R142. -/
def Obligations.EscapeByteSetsTheFlagOnly : Prop :=
  ∀ s : State, s.dec.ready = false → exec .fesc s = .next { s with dec := { s.dec with esc := true } }

/-- 40_codec.md R143, R144, R146 (the four bytes by default `0xDB`, `0xDD`, `0xC0`, `0xDC`; the literal is summed: D7; `RX_CAP`
bytes fit, 512 by default: D8). -/
def Obligations.TransposedBytesStoreByTheFlag : Prop :=
  ∀ (s : State) (i : Instr) (real literal : Byte),
    (i = .tfesc ∧ real = s.params.fesc ∧ literal = s.params.tfesc ∨
      i = .tfend ∧ real = s.params.fend ∧ literal = s.params.tfend) →
    s.dec.ready = false →
    exec i s = .next { s with dec :=
      if s.params.rxCap ≤ s.dec.buf.length then { buf := [], sum := 0#8, esc := false, ready := false }
      else { buf := s.dec.buf ++ [if s.dec.esc then real else literal],
             sum := s.dec.sum + (if s.dec.esc then real else literal), esc := false, ready := false } }

/-- 40_codec.md R145, R146 (`RX_CAP` bytes fit, 512 by default, and the next is dropped: D8). -/
def Obligations.OrdinaryByteIsStoredAndSummed : Prop :=
  ∀ (s : State) (b : Byte), b ≠ s.params.fend → b ≠ s.params.fesc → b ≠ s.params.tfend → b ≠ s.params.tfesc →
    s.dec.ready = false →
    exec (.ordinary b) s = .next { s with dec :=
      if s.params.rxCap ≤ s.dec.buf.length then { buf := [], sum := 0#8, esc := false, ready := false }
      else { buf := s.dec.buf ++ [b], sum := s.dec.sum + b, esc := false, ready := false } }

/-- 40_codec.md R148: `DEC_STEP` is total on the 256 byte values, dispatches by value, and reads and writes decoder state
only (beside the parameters of the run). By default the four special values are those R148 names. In a run that makes two of them
equal, the order of the tests in the second clause, `FEND`, `FESC`, `TFESC`, `TFEND`, is the model's choice (log entry 21). -/
def Obligations.DecodeStepIsTotalAndLocalToTheDecoder : Prop :=
  (∀ b : Byte, decode .default (.wire b) = .ok (
    if b = 0xC0#8 then .fend else if b = 0xDB#8 then .fesc else if b = 0xDD#8 then .tfesc
    else if b = 0xDC#8 then .tfend else .ordinary b)) ∧
  (∀ (p : Params) (b : Byte), decode p (.wire b) = .ok (
    if b = p.fend then .fend else if b = p.fesc then .fesc else if b = p.tfesc then .tfesc
    else if b = p.tfend then .tfend else .ordinary b)) ∧
  ∃ f : Params → Byte → Decoder → Decoder, ∀ (b : Byte) (s : State), s.dec.ready = false →
    runCode (.wire b) s = .next { s with dec := f s.params b s.dec }

/-- 10_state.md R26 (derived there): every decoder operation keeps `rx_sum = sum8(rx_buf[0..rx_cur-1])`, `rx_cur <= RX_CAP`, and
"ready implies sum `CS_TARGET` and a byte" (with a target of zero the empty buffer would be a frame). -/
def Obligations.DecodeStepKeepsTheDecoderInvariant : Prop :=
  ∀ (b : Byte) (s t : State), s.params.csTarget ≠ 0#8 → DecoderInv s.params s.dec → runCode (.wire b) s = .next t →
    DecoderInv t.params t.dec

/-! ### Commands -/

/-- 42_engine.md R211, for each of the eleven opcodes (R116): with the engine idle and a payload of legal length, EXECUTE
starts: the frame is encoded and the engine is about to send; after a transport failure it ends at once. The decoder state is
not touched. -/
def Obligations.CommandsStartAnExecute : Prop :=
  ∀ (i : Instr) (op : Byte) (payload : List Byte) (expected : Byte) (s : State),
    (i, op) ∈ [
      (Instr.readId payload expected, 0x9F#8), (Instr.powerUp payload expected, 0xAB#8),
      (Instr.powerDown payload expected, 0xB9#8), (Instr.writeEnable payload expected, 0x06#8),
      (Instr.bulkErase payload expected, 0xC7#8), (Instr.sectorErase payload expected, 0xD8#8),
      (Instr.program payload expected, 0x02#8), (Instr.read payload expected, 0x03#8),
      (Instr.ready payload expected, 0x44#8), (Instr.readAll payload expected, 0x83#8),
      (Instr.empty payload expected, 0x45#8)] →
    payload.length ≤ s.params.payloadMax → s.eng.state = .idle →
    exec i s = .next (
      if s.flags.transport then { s with eng := { s.eng with outcome := .transportFailure, state := .done } }
      else { s with
        enc := { buf := rawFrame s.params op payload, sum := sum8 (op :: payload) }
        eng := { s.eng with expected := expected, tmo := 0, outcome := .none, state := .send1 } })

/-- 42_engine.md R210, 40_codec.md R133 (D36, D4): a command is refused while the engine is not idle, and, with the engine
idle and no transport failure, when its payload is longer than `PAYLOAD_MAX` bytes (258 by default). -/
def Obligations.CommandsRefusedWhenBusyOrTooLong : Prop :=
  ∀ (op : Opcode) (payload : List Byte) (expected : Byte) (s : State),
    (s.eng.state ≠ .idle → exec (commandOf op payload expected) s = .refused .engineBusy) ∧
    (s.eng.state = .idle → s.flags.transport = false → s.params.payloadMax < payload.length →
      exec (commandOf op payload expected) s = .refused (.payloadTooLong payload.length))

/-- 41_commands.md R170, R178, R188: the raw frames and the expected responses of the commands without operands, the raw frames
written out for the default parameters. -/
def Obligations.CommandsWithoutOperandsPutTheirFrame : Prop :=
  ∀ (s : State) (i : Instr) (op : Byte) (raw : List Byte) (expected : Byte),
    (i, op, raw, expected) ∈ [
      (cmdReadId, 0x9F#8, [0xC0#8, 0x9F#8, 0x60#8, 0xC0#8], 0x9F#8),
      (cmdBulkErase, 0xC7#8, [0xC0#8, 0xC7#8, 0x38#8, 0xC0#8], 0xC7#8),
      (cmdReadAll, 0x83#8, [0xC0#8, 0x83#8, 0x7C#8, 0xC0#8], 0x44#8)] →
    s.eng.state = .idle → s.flags.transport = false →
    rawFrame .default op [] = raw ∧
    ∃ t, exec i s = .next t ∧ t.enc.buf = rawFrame s.params op [] ∧ t.eng.expected = expected ∧ t.eng.state = .send1

/-- 41_commands.md R180, R182, R184, 30_encoding.md R107, 20_memory.md R78: the commands with an address carry its high and
mid byte, first high; by default a SECTOR_ERASE frame is always six raw bytes with mid byte zero. That the radix stays 256 in a run
with another `PAGE_SIZE` is the model's choice (log entry 24). -/
def Obligations.AddressedCommandsCarryHighAndMidByte : Prop :=
  ∀ (s : State) (a : Nat) (data : List Byte), a < 2097152 → a % 256 = 0 → 1 ≤ data.length →
    data.length ≤ s.params.dataMax → s.eng.state = .idle → s.flags.transport = false →
    ∃ hi mid : Byte, hi.toNat * 65536 + mid.toNat * 256 = a ∧ hi.toNat ≤ 0x1F ∧
      (∃ t, exec (cmdRead a) s = .next t ∧ t.enc.buf = rawFrame s.params 0x03#8 [hi, mid] ∧ t.eng.expected = 0x03#8) ∧
      cmdReadPage (a / 256) = cmdRead a ∧
      (∃ t, exec (cmdProgram a data) s = .next t ∧ t.enc.buf = rawFrame s.params 0x02#8 (hi :: mid :: data) ∧
        t.eng.expected = 0x44#8) ∧
      (a % 65536 = 0 → ∃ t, exec (cmdSectorErase a) s = .next t ∧
        t.enc.buf = rawFrame s.params 0xD8#8 [hi, 0x00#8] ∧ t.eng.expected = 0x44#8) ∧
      rawFrame .default 0xD8#8 [hi, 0x00#8] = [0xC0#8, 0xD8#8, hi, 0x00#8, 0x27#8 - hi, 0xC0#8]

/-! ### Responses -/

/-- 42_engine.md R225 and the seven opcodes without a handler (41_commands.md R173, R175, R177, R179, R181, R183, R189): the
frame is discarded, the decoder reset, the timeout counter zeroed, and no other state changes. -/
def Obligations.UnhandledTagsAreIgnored : Prop :=
  ∀ (i : Instr) (s : State),
    i ∈ [Instr.powerUpRsp, .powerDownRsp, .writeEnableRsp, .bulkEraseRsp, .sectorEraseRsp, .programRsp, .readAllRsp] →
    s.dec.ready = true →
    exec i s = .next { s with
      dec := { buf := [], sum := 0#8, esc := false, ready := false }
      eng := { s.eng with tmo := 0 } }

/-- 41_commands.md R171 (unexpected: D19; too short: D16; field places: D15). -/
def Obligations.ReadIdResponseLatchesTheIdentification : Prop :=
  ∀ s : State, s.dec.ready = true →
    (s.eng.expected = 0x9F#8 → 5 ≤ s.dec.buf.length →
      exec .readIdRsp s = .next { s with
        dec := { buf := [], sum := 0#8, esc := false, ready := false }
        ident := { mfr := s.dec.buf.getD 1 0#8, dev0 := s.dec.buf.getD 2 0#8, dev1 := s.dec.buf.getD 3 0#8, valid := true }
        eng := { s.eng with resFrame := s.dec.buf, outcome := .success, state := .done } }) ∧
    (s.eng.expected = 0x9F#8 → s.dec.buf.length < 5 →
      exec .readIdRsp s = .next { s with
        dec := { buf := [], sum := 0#8, esc := false, ready := false }
        flags := { s.flags with malformed := true } }) ∧
    (s.eng.expected ≠ 0x9F#8 →
      exec .readIdRsp s = .next { s with
        dec := { buf := [], sum := 0#8, esc := false, ready := false }
        eng := { s.eng with tmo := 0 } })

/-- 41_commands.md R185, 30_encoding.md R113 (length: D16; range: D17; places: D15): a READ frame that is long enough and in
range writes its page's bytes to the page it names and nowhere else, clears that page's bit and no other, and succeeds only if
READ was expected. Page `p` stands at image address `p * PAGE_SIZE`: with the default 256 that is R185's address; in a run with
another `PAGE_SIZE` it is the model's choice (log entry 24). The canonical form of the two memories is an invariant
(`StepKeepsTheStateSound`). -/
def Obligations.ReadResponseWritesThePageItNames : Prop :=
  ∀ (s : State) (p : Nat), s.memImage.wf → s.pageDirty.wf → s.dec.ready = true → s.params.readMin ≤ s.dec.buf.length →
    p = (s.dec.buf.getD 1 0#8).toNat * 256 + (s.dec.buf.getD 2 0#8).toNat → p < s.params.pageCount →
    ∃ t, exec .readRsp s = .next t ∧
      (∀ i < s.params.pageSize, t.memImage.read (p * s.params.pageSize + i) = some (s.dec.buf.getD (3 + i) 0#8)) ∧
      (∀ a, ¬(p * s.params.pageSize ≤ a ∧ a < p * s.params.pageSize + s.params.pageSize) →
        t.memImage.read a = s.memImage.read a) ∧
      ptTest t.pageDirty p = some false ∧
      (∀ q, q ≠ p → ptTest t.pageDirty q = ptTest s.pageDirty q) ∧
      t.eng = (if s.eng.expected = 0x03#8 then { s.eng with resFrame := s.dec.buf, outcome := .success, state := .done }
               else { s.eng with tmo := 0 }) ∧
      t.dec = { buf := [], sum := 0#8, esc := false, ready := false } ∧
      t.enc = s.enc ∧ t.ident = s.ident ∧ t.seq = s.seq ∧ t.flags = s.flags ∧ t.params = s.params ∧ t.ports = s.ports

/-- 41_commands.md R191, 30_encoding.md R115 (length: D16; range: D17; places: D15): an EMPTY frame clears its page's bit and
writes no byte of the Memory Image. -/
def Obligations.EmptyResponseClearsThePageItNames : Prop :=
  ∀ (s : State) (p : Nat), s.pageDirty.wf → s.dec.ready = true → 4 ≤ s.dec.buf.length →
    p = (s.dec.buf.getD 1 0#8).toNat * 256 + (s.dec.buf.getD 2 0#8).toNat → p < s.params.pageCount →
    ∃ t, exec .emptyRsp s = .next t ∧
      t.memImage = s.memImage ∧
      ptTest t.pageDirty p = some false ∧
      (∀ q, q ≠ p → ptTest t.pageDirty q = ptTest s.pageDirty q) ∧
      t.eng = (if s.eng.expected = 0x03#8 then { s.eng with resFrame := s.dec.buf, outcome := .success, state := .done }
               else { s.eng with tmo := 0 }) ∧
      t.dec = { buf := [], sum := 0#8, esc := false, ready := false } ∧
      t.enc = s.enc ∧ t.ident = s.ident ∧ t.seq = s.seq ∧ t.flags = s.flags ∧ t.params = s.params ∧ t.ports = s.ports

/-- 41_commands.md R187, 30_encoding.md R114 (the secondary field, `BULK_ACK`, `0xC7` by default: D18). -/
def Obligations.ReadyResponseSucceedsWhenExpected : Prop :=
  ∀ s : State, s.dec.ready = true →
    exec .readyRsp s = .next (
      if s.eng.expected = 0x44#8 ∨
         (s.eng.expected = 0xC7#8 ∧ 3 ≤ s.dec.buf.length ∧ s.dec.buf.getD 1 0#8 = s.params.bulkAck) then
        { s with
          dec := { buf := [], sum := 0#8, esc := false, ready := false }
          eng := { s.eng with resFrame := s.dec.buf, outcome := .success, state := .done } }
      else
        { s with
          dec := { buf := [], sum := 0#8, esc := false, ready := false }
          eng := { s.eng with tmo := 0 } })

/-- 42_engine.md R228, R229 (D16, D17): a READ or EMPTY frame that is too short, or names a page of `PAGE_COUNT` (8192 by
default) or more, sets its sticky flag, is discarded, and has no side effect; the length is tested first (60_exceptions.md
R331). -/
def Obligations.ShortAndOutOfRangePagesSetTheFaultFlags : Prop :=
  ∀ (s : State) (i : Instr) (n : Nat), (i = .readRsp ∧ n = s.params.readMin ∨ i = .emptyRsp ∧ n = 4) →
    s.dec.ready = true →
    (s.dec.buf.length < n →
      exec i s = .next { s with
        dec := { buf := [], sum := 0#8, esc := false, ready := false }
        flags := { s.flags with malformed := true } }) ∧
    (n ≤ s.dec.buf.length →
      s.params.pageCount ≤ (s.dec.buf.getD 1 0#8).toNat * 256 + (s.dec.buf.getD 2 0#8).toNat →
      exec i s = .next { s with
        dec := { buf := [], sum := 0#8, esc := false, ready := false }
        flags := { s.flags with addrRange := true } })

/-- 40_codec.md R147 (D11), R145, 41_commands.md R171 to R191 (that a response without a frame and an ill-formed ORDINARY are
refused is the model's choice, log entry 20): a response is handled only when a frame is ready, a wire byte only when none is,
and ORDINARY only with a byte that is none of the four special ones; otherwise each is refused by name. -/
def Obligations.ResponsesAndWireBytesAreRefusedOutOfTurn : Prop :=
  (∀ (op : Opcode) (s : State), s.dec.ready = false → exec (responseOf op) s = .refused .noFrameReady) ∧
  (∀ (b : Byte) (s : State), s.dec.ready = true → runCode (.wire b) s = .refused .frameNotConsumed) ∧
  ∀ (b : Byte) (s : State), b ∈ [s.params.fend, s.params.fesc, s.params.tfend, s.params.tfesc] →
    exec (.ordinary b) s = .refused (.notAnOrdinaryByte b)

/-! ### The Page Bitmap -/

/-- 43_page_tracker.md R261, R262, R264 (a bit without a value, before the first `PT_INIT`, is not counted: the model's choice,
log entry 8): with `n` pages (8192 by default) `PT_INIT` makes `n` dirty pages; `PT_CLEAR(p)` changes bit `p` alone and lowers the
count by one exactly when the page was dirty. -/
def Obligations.PageTrackerClearsOnePageAndCounts : Prop :=
  (∀ p, ptTest ptInit p = some true) ∧ (∀ n, ptCount n ptInit = n) ∧
  ∀ (d : Memory Bool) (n p : Nat), d.wf → p < n →
    (∀ q, ptTest (ptClear d p) q = if q = p then some false else ptTest d q) ∧
    ptCount n d = ptCount n (ptClear d p) + (if ptTest d p = some true then 1 else 0)

/-! ### The step, and the engine's own steps -/

/-- 00_scope.md R10, R11 (how the caller's moves interleave is the model's choice, log entry 4): with no move of the caller
pending, or under `pass`, a step is the core's own; under `await` it is the core's own and the move stays until the core
rests. -/
def Obligations.StepTakesTheCallersMoveOrTheCoreStep : Prop :=
  ∀ (s : State) (rest : List CallerMove),
    (s.ports.moves = [] → step s = coreStep s) ∧
    (s.ports.moves = .pass :: rest → step s = coreStep { s with ports := { s.ports with moves := rest } }) ∧
    (s.ports.moves = .await :: rest → coreResting s = false → step s = coreStep s) ∧
    (s.ports.moves = .await :: rest → coreResting s = true →
      step s = .next { s with ports := { s.ports with moves := rest } })

/-- 42_engine.md R210, 44_flash_operations.md R285 to R305: a step runs the decoded call, the caller's by hand and the six of
the flash operations. -/
def Obligations.StepRunsTheDecodedCall : Prop :=
  (∀ (s : State) (op : Byte) (payload : List Byte) (expected : Byte) (rest : List CallerMove) (i : Instr),
    s.ports.moves = .execute op payload expected :: rest → s.seq.state = .idle ∨ s.seq.state = .done →
    s.eng.state = .idle → decode s.params (.call op payload expected) = .ok i →
    step s = exec i { s with ports := { s.ports with moves := rest } }) ∧
  (∀ (s : State) (l : OpState) (i : Instr),
    (l, i) ∈ [(OpState.idWait, cmdReadId), (.beWait, cmdBulkErase), (.seWait, cmdSectorErase s.seq.addr),
      (.pgWait, cmdProgram s.seq.addr (chunk s)), (.raStartWait, cmdReadAll), (.raWait, cmdReadPage s.seq.page)] →
    s.ports.moves = [] → s.eng.state = .idle → s.seq.state = l → step s = exec i s)

/-- 42_engine.md R217, R220, R118: a poll that answers a byte runs the decoded wire byte; a frame it completes runs the
decoded response, or is ignored if its tag is no opcode; then comes the tick. -/
def Obligations.StepRunsTheDecodedByteAndFrame : Prop :=
  (∀ (s : State) (b : Byte) (rest : List RxAnswer) (i : Instr),
    s.ports.moves = [] → s.eng.state = .poll → s.ports.rxScript = .byte b :: rest → decode s.params (.wire b) = .ok i →
    step s = andThen (exec i { s with ports := { s.ports with rxScript := rest } }) afterByte) ∧
  (∀ (t : State) (i : Instr), t.dec.ready = true → decode t.params (.frame t.dec.buf) = .ok i →
    afterByte t = andThen (exec i t) (fun u => .next (afterVerdict (classifyVerdict t) u))) ∧
  (∀ (t : State) (tag : Byte), t.dec.ready = true → decode t.params (.frame t.dec.buf) = .error (.tagNotAnOpcode tag) →
    afterByte t = .next (timeoutExpiry (ignoreOther t))) ∧
  (∀ t : State, t.dec.ready = false → afterByte t = .next (timeoutTick t))

/-- 42_engine.md R212 to R215 (a short count fails: D14; exactly two writes: D34): what a frame is offered as. A frame of at
most `TX_CHUNK` bytes (255 by default) goes in one write, a longer one as `TX_CHUNK` bytes, a gap, and all the rest;
any answer but the full count ends the
EXECUTE as a transport failure. -/
def Obligations.WritesOfferTheFrameInOneOrTwoParts : Prop :=
  (∀ (s : State) (r : TxAnswer) (rest : List TxAnswer), s.eng.state = .send1 → s.ports.txScript = r :: rest →
    coreStep s = .next (
      let t := { s with ports := { s.ports with
        txScript := rest, wireOut := s.ports.wireOut ++ [s.enc.buf.take s.params.txChunk] } }
      if r = .count (min s.params.txChunk s.enc.buf.length) then
        { t with eng := { s.eng with state := if s.enc.buf.length ≤ s.params.txChunk then .poll else .gap } }
      else
        { t with eng := { s.eng with outcome := .transportFailure, state := .done }
                 flags := { s.flags with transport := true } })) ∧
  (∀ s : State, s.eng.state = .gap → coreStep s = .next { s with eng := { s.eng with state := .send2 } }) ∧
  (∀ (s : State) (r : TxAnswer) (rest : List TxAnswer), s.eng.state = .send2 → s.ports.txScript = r :: rest →
    coreStep s = .next (
      let t := { s with ports := { s.ports with
        txScript := rest, wireOut := s.ports.wireOut ++ [s.enc.buf.drop s.params.txChunk] } }
      if r = .count (s.enc.buf.length - s.params.txChunk) then { t with eng := { s.eng with state := .poll } }
      else
        { t with eng := { s.eng with outcome := .transportFailure, state := .done }
                 flags := { s.flags with transport := true } }))

/-- 42_engine.md R216 (D14): a failing poll ends the EXECUTE and leaves the decoder as it is. -/
def Obligations.PollFailureEndsTheExecute : Prop :=
  ∀ (s : State) (rest : List RxAnswer), s.eng.state = .poll → s.ports.rxScript = .fail :: rest →
    coreStep s = .next { s with
      ports := { s.ports with rxScript := rest }
      eng := { s.eng with outcome := .transportFailure, state := .done }
      flags := { s.flags with transport := true } }

/-- 42_engine.md R218 (the boundary: D13): `n` silent polls count `n`; the wait ends in Timeout exactly when the count
reaches `TMO_ITER` (5000 by default), with the decoder as it was. -/
def Obligations.SilentPollsCountToTimeout : Prop :=
  ∀ (n : Nat) (s : State) (rest : List RxAnswer),
    s.ports.moves = [] → s.eng.state = .poll → s.dec.ready = false → 1 ≤ n → s.eng.tmo + n ≤ s.params.tmoIter →
    s.ports.rxScript = List.replicate n .none ++ rest →
    steps n s = .next { s with
      ports := { s.ports with rxScript := rest }
      eng := if s.eng.tmo + n = s.params.tmoIter then { s.eng with tmo := s.params.tmoIter, outcome := .timeout, state := .done }
             else { s.eng with tmo := s.eng.tmo + n } }

/-- 42_engine.md R218, 90_conflicts.md C3: a byte that does not complete a valid frame counts like silence, whatever it is. -/
def Obligations.BytesAloneDoNotRefreshTheTimeout : Prop :=
  ∀ (s : State) (b : Byte) (rest : List RxAnswer),
    s.eng.state = .poll → s.dec.ready = false → s.ports.rxScript = .byte b :: rest →
    b ≠ s.params.fend ∨ s.dec.sum ≠ s.params.csTarget →
    ∃ d, d.ready = false ∧ coreStep s = .next { s with
      dec := d
      ports := { s.ports with rxScript := rest }
      eng := if s.eng.tmo + 1 = s.params.tmoIter then { s.eng with tmo := s.params.tmoIter, outcome := .timeout, state := .done }
             else { s.eng with tmo := s.eng.tmo + 1 } }

/-- 42_engine.md R217, R218, R220, R221, R225 to R229 (D10, D13, D15 to D19): the iteration whose delimiter completes a frame
ends the wait in Success exactly when the frame qualifies for the expected response, even in the last iteration. A faulty
frame (an expected READ_ID that is too short, a READ or EMPTY that is too short or names a page of `PAGE_COUNT` or more) counts
the iteration and times the wait out exactly at `TMO_ITER`. Every other frame zeroes the counter and the wait goes on
(`TMO_ITER` is at least 1: with 0 the test of R218 would end it). The decoder is reset in every case. That a byte equal to `FEND` is
the delimiter also in a run that makes another special byte equal to it is the model's choice (log entry 21). -/
def Obligations.CompletedFrameEndsTheWaitExactlyWhenItQualifies : Prop :=
  ∀ (s : State) (tag : Byte) (body : List Byte) (rest : List RxAnswer),
    s.eng.state = .poll → s.eng.outcome = .none → s.dec.ready = false → s.dec.sum = s.params.csTarget →
    s.dec.buf = tag :: body → s.ports.rxScript = .byte s.params.fend :: rest → 1 ≤ s.params.tmoIter →
    ∃ t, coreStep s = .next t ∧
      t.dec = { buf := [], sum := 0#8, esc := false, ready := false } ∧
      t.eng = (
        if (tag = 0x9F#8 ∧ s.eng.expected = 0x9F#8 ∧ 4 ≤ body.length) ∨
           ((tag = 0x03#8 ∧ s.params.readMin ≤ body.length + 1 ∨ tag = 0x45#8 ∧ 3 ≤ body.length) ∧
             s.eng.expected = 0x03#8 ∧
             (body.getD 0 0#8).toNat * 256 + (body.getD 1 0#8).toNat < s.params.pageCount) ∨
           (tag = 0x44#8 ∧ (s.eng.expected = 0x44#8 ∨
             s.eng.expected = 0xC7#8 ∧ 2 ≤ body.length ∧ body.getD 0 0#8 = s.params.bulkAck)) then
          { s.eng with resFrame := s.dec.buf, outcome := .success, state := .done }
        else if (tag = 0x9F#8 ∧ s.eng.expected = 0x9F#8 ∧ body.length < 4) ∨
           (tag = 0x03#8 ∧ body.length + 1 < s.params.readMin) ∨ (tag = 0x45#8 ∧ body.length < 3) ∨
           ((tag = 0x03#8 ∨ tag = 0x45#8) ∧
             s.params.pageCount ≤ (body.getD 0 0#8).toNat * 256 + (body.getD 1 0#8).toNat) then
          if s.eng.tmo + 1 = s.params.tmoIter then
            { s.eng with tmo := s.params.tmoIter, outcome := .timeout, state := .done }
          else { s.eng with tmo := s.eng.tmo + 1 }
        else { s.eng with tmo := 0 }) ∧
      t.enc = s.enc ∧ t.seq = s.seq ∧ t.params = s.params ∧ t.ports = { s.ports with rxScript := rest }

/-! ### The flash operations -/

/-- 44_flash_operations.md R282, 42_engine.md R230 (the engine back in `E_IDLE` when the outcome is collected: D36):
TransportFailure in any operation ends it at once, with one report. No further command is sent: the core's own step then
changes nothing (that there is such a step at rest, and that it changes nothing, is the model's choice, log entry 4). -/
def Obligations.TransportFailureEndsTheOperation : Prop :=
  ∀ s : State,
    s.seq.state ∈ [OpState.idWait, .beWait, .seWait, .pgWait, .raStartWait, .raWait] →
    s.eng.state = .done → s.eng.outcome = .transportFailure →
    ∃ t, t = { s with
        eng := { s.eng with state := .idle }
        seq := { s.seq with status := .fail, err := .transportFailure, state := .done }
        ports := { s.ports with reports := s.ports.reports ++ [⟨.transportFailure, .operation s.seq.sel⟩] } } ∧
      coreStep s = .next t ∧ coreStep t = .next t

/-- 44_flash_operations.md R285, R287 (identify's recognition: D33): the outcome of the one command of identify and of bulk
erase ends the operation, with its report; there is no retry. -/
def Obligations.IdentifyAndBulkEraseEndOnTheirOneOutcome : Prop :=
  ∀ s : State, s.eng.state = .done →
    (s.seq.state = .idWait → s.eng.outcome = .success →
      coreStep s = .next { s with
        eng := { s.eng with state := .idle }
        seq := { s.seq with status := .ok, state := .done }
        ports := { s.ports with reports := s.ports.reports ++ [⟨.none, .ids s.ident.mfr s.ident.dev0 s.ident.dev1⟩] } }) ∧
    (s.seq.state = .idWait → s.eng.outcome = .timeout →
      coreStep s = .next { s with
        eng := { s.eng with state := .idle }
        seq := { s.seq with status := .fail, err := .protocolTimeout, state := .done }
        ports := { s.ports with reports := s.ports.reports ++ [⟨.protocolTimeout, .operation .identify⟩] } }) ∧
    (s.seq.state = .beWait → s.eng.outcome = .success →
      coreStep s = .next { s with
        eng := { s.eng with state := .idle }
        seq := { s.seq with status := .ok, state := .done } }) ∧
    (s.seq.state = .beWait → s.eng.outcome = .timeout →
      coreStep s = .next { s with
        eng := { s.eng with state := .idle }
        seq := { s.seq with status := .fail, err := .protocolTimeout, state := .done }
        ports := { s.ports with reports := s.ports.reports ++ [⟨.protocolTimeout, .noAnswerFromProgrammer⟩] } })

/-- 44_flash_operations.md R287, R311 (b) (the number of steps is the model's granularity, log entry 2): from a core at rest,
bulk erase on a Transport that takes the frame, by default four bytes, and then never answers makes `TMO_ITER` (5000 by default) polls and ends,
with the report "no answer", one frame sent and no other effect. -/
def Obligations.SilentBulkEraseReportsNoAnswerAndEnds : Prop :=
  rawFrame State.reset.params 0xC7#8 [] = [0xC0#8, 0xC7#8, 0x38#8, 0xC0#8] ∧
  ∀ (s : State) (ff : Bool) (txRest : List TxAnswer) (rxRest : List RxAnswer),
    s.seq.state = .idle ∨ s.seq.state = .done → s.eng.state = .idle → s.flags.transport = false → s.dec.ready = false →
    s.ports.moves = [.start ⟨.bulkErase, ff, none, none⟩] →
    (rawFrame s.params 0xC7#8 []).length ≤ s.params.txChunk → 1 ≤ s.params.tmoIter →
    s.ports.txScript = .count (rawFrame s.params 0xC7#8 []).length :: txRest →
    s.ports.rxScript = List.replicate s.params.tmoIter .none ++ rxRest →
    ∃ t, steps (s.params.tmoIter + 4) s = .next t ∧
      t.seq.state = .done ∧ t.seq.status = .fail ∧ t.seq.err = .protocolTimeout ∧
      t.ports.reports = s.ports.reports ++ [⟨.protocolTimeout, .noAnswerFromProgrammer⟩] ∧
      t.ports.wireOut = s.ports.wireOut ++ [rawFrame s.params 0xC7#8 []] ∧
      t.ports.rxScript = rxRest ∧ t.eng.state = .idle ∧ t.eng.outcome = .timeout ∧
      t.dec = s.dec ∧ t.memImage = s.memImage ∧ t.pageDirty = s.pageDirty ∧ t.ident = s.ident ∧ t.flags = s.flags ∧
      t.params = s.params

/-- 44_flash_operations.md R290 (the Timeout policy: D22): the single steps of the sector erase loop, not its whole run: at
`SE_NEXT` the loop goes on below the size and ends at or above it; at `SE_WAIT` either outcome moves to the next sector
(`SECTOR_SIZE`, 65536 by default). The command of `SE_WAIT` is in `StepRunsTheDecodedCall` and
`AddressedCommandsCarryHighAndMidByte`. -/
def Obligations.SectorEraseLoopStepsFromSectorToSector : Prop :=
  ∀ s : State,
    (s.eng.state = .idle → s.seq.state = .seNext →
      coreStep s = .next { s with seq :=
        if s.seq.addr < s.seq.srcLen then { s.seq with state := .seWait }
        else if s.seq.anyFail then { s.seq with status := .fail, err := .protocolTimeout, state := .done }
        else { s.seq with status := .ok, state := .done } }) ∧
    (s.eng.state = .done → s.seq.state = .seWait → s.eng.outcome = .success →
      coreStep s = .next { s with
        eng := { s.eng with state := .idle }
        seq := { s.seq with addr := s.seq.addr + s.params.sectorSize, state := .seNext } }) ∧
    (s.eng.state = .done → s.seq.state = .seWait → s.eng.outcome = .timeout →
      coreStep s = .next { s with
        eng := { s.eng with state := .idle }
        seq := { s.seq with addr := s.seq.addr + s.params.sectorSize, anyFail := true, state := .seNext }
        ports := { s.ports with reports := s.ports.reports ++ [⟨.protocolTimeout, .address s.seq.addr⟩] } })

/-- 44_flash_operations.md R293, R294 (a short last chunk: D23): a chunk that is all `FILL` is skipped unless the caller forces
it; `chunk` is the `min(PAGE_SIZE, src_len - op_addr)` source bytes from `op_addr` up. -/
def Obligations.ProgramSkipsFillChunksUnlessForced : Prop :=
  (∀ s : State, (chunk s).length = min s.params.pageSize (s.seq.srcLen - s.seq.addr) ∧
    ∀ k < (chunk s).length, (chunk s)[k]? = some (imageByte s.ports.source (s.seq.addr + k))) ∧
  ∀ s : State, s.eng.state = .idle → s.seq.state = .pgNext →
    coreStep s = .next { s with seq :=
      if s.seq.srcLen ≤ s.seq.addr then { s.seq with status := .ok, state := .done }
      else if s.seq.forceFill = false ∧ (∀ b ∈ chunk s, b = s.params.fill) then
        { s.seq with addr := s.seq.addr + s.params.pageSize }
      else { s.seq with tries := 0, state := .pgWait } }

/-- 44_flash_operations.md R293, R295 (the bound: D24, log entry 15): after a Success the next chunk; after a Timeout a
report and, with no bound or the bound not reached, the identical send again; at the bound the operation fails. -/
def Obligations.ProgramRetriesTheIdenticalSend : Prop :=
  ∀ s : State, s.eng.state = .done → s.seq.state = .pgWait →
    (s.eng.outcome = .success →
      coreStep s = .next { s with
        eng := { s.eng with state := .idle }
        seq := { s.seq with addr := s.seq.addr + s.params.pageSize, state := .pgNext } }) ∧
    (s.eng.outcome = .timeout → (∀ k, s.params.progRetryMax = some k → s.seq.tries + 1 < k) →
      ∃ t, t = { s with
          eng := { s.eng with state := .idle }
          seq := { s.seq with tries := s.seq.tries + 1 }
          ports := { s.ports with reports := s.ports.reports ++ [⟨.protocolTimeout, .address s.seq.addr⟩] } } ∧
        coreStep s = .next t ∧ coreStep t = exec (cmdProgram s.seq.addr (chunk s)) t) ∧
    (∀ k, s.eng.outcome = .timeout → s.params.progRetryMax = some k → k ≤ s.seq.tries + 1 →
      coreStep s = .next { s with
        eng := { s.eng with state := .idle }
        seq := { s.seq with tries := s.seq.tries + 1, status := .fail, err := .protocolTimeout, state := .done }
        ports := { s.ports with reports := s.ports.reports ++ [⟨.protocolTimeout, .address s.seq.addr⟩] } })

/-- 44_flash_operations.md R301, R302, R303 (the zeroing per pass: D21): read-all fills the image and marks every page before
the command is sent; the outcome of READ_ALL starts the first pass or fails the operation; a pass starts with its counters
zero. -/
def Obligations.ReadAllInitialisesBeforeItsCommand : Prop :=
  ∀ s : State,
    (s.eng.state = .idle → s.seq.state = .raInit → ∃ t, coreStep s = .next t ∧
      (∀ a, t.memImage.read a = some s.params.fill) ∧ (∀ p, ptTest t.pageDirty p = some true) ∧
      t.seq = { s.seq with state := .raStartWait } ∧ t.dec = s.dec ∧ t.enc = s.enc ∧ t.eng = s.eng ∧ t.ident = s.ident ∧
      t.flags = s.flags ∧ t.params = s.params ∧ t.ports = s.ports) ∧
    (s.eng.state = .done → s.seq.state = .raStartWait → s.eng.outcome = .success →
      coreStep s = .next { s with eng := { s.eng with state := .idle }, seq := { s.seq with state := .raPass } }) ∧
    (s.eng.state = .done → s.seq.state = .raStartWait → s.eng.outcome = .timeout →
      coreStep s = .next { s with
        eng := { s.eng with state := .idle }
        seq := { s.seq with status := .fail, err := .protocolTimeout, state := .done }
        ports := { s.ports with reports := s.ports.reports ++ [⟨.protocolTimeout, .operation .readAll⟩] } }) ∧
    (s.eng.state = .idle → s.seq.state = .raPass →
      coreStep s = .next { s with seq := { s.seq with failCount := 0, found := false, page := 0, state := .raScan } })

/-- 44_flash_operations.md R304: the scan tests a page's bit when it reaches it; a clean page costs no command; at a dirty page
the threshold test comes before the READ, and more than `FAIL_MAX`, which is 25, failures abort. -/
def Obligations.ScanTestsThresholdBeforeReadingADirtyPage : Prop :=
  State.reset.params.failMax = 25 ∧
  ∀ s : State, s.eng.state = .idle → s.seq.state = .raScan → s.seq.page < s.params.pageCount →
    (ptTest s.pageDirty s.seq.page = some false →
      coreStep s = .next { s with seq := { s.seq with page := s.seq.page + 1 } }) ∧
    (ptTest s.pageDirty s.seq.page = some true → s.seq.failCount ≤ s.params.failMax →
      coreStep s = .next { s with seq := { s.seq with found := true, state := .raWait } }) ∧
    (ptTest s.pageDirty s.seq.page = some true → s.params.failMax < s.seq.failCount →
      coreStep s = .next { s with
        seq := { s.seq with found := true, status := .fail, err := .convergenceFailure, state := .done }
        ports := { s.ports with reports := s.ports.reports ++ [⟨.convergenceFailure, .page s.seq.page⟩] } })

/-- 44_flash_operations.md R305, R306 (that a read-all ended `S_OK`, which R376 asks of verify, is remembered in the model's own
field `readAllOk`: log entry 22): an explicit READ moves the scan to the next page whether it succeeded or timed out, a
Timeout is counted and not reported; past the last page another pass starts if this one met a dirty page, else `S_OK`. -/
def Obligations.ExplicitReadAndEndOfPass : Prop :=
  ∀ s : State,
    (s.eng.state = .done → s.seq.state = .raWait → s.eng.outcome = .success →
      coreStep s = .next { s with
        eng := { s.eng with state := .idle }
        seq := { s.seq with page := s.seq.page + 1, state := .raScan } }) ∧
    (s.eng.state = .done → s.seq.state = .raWait → s.eng.outcome = .timeout →
      coreStep s = .next { s with
        eng := { s.eng with state := .idle }
        seq := { s.seq with failCount := s.seq.failCount + 1, page := s.seq.page + 1, state := .raScan } }) ∧
    (s.eng.state = .idle → s.seq.state = .raScan → s.params.pageCount ≤ s.seq.page →
      coreStep s = .next { s with seq :=
        if s.seq.found then { s.seq with state := .raPass }
        else { s.seq with readAllOk := true, status := .ok, state := .done } })

/-- 44_flash_operations.md R310, 60_exceptions.md R325 (range and stopping rule: D32; one step: log entry 2): after a read-all
that ended `S_OK` since reset (70_reset_and_hazards.md R376; log entry 22), over an image R301 has filled (10_state.md R37),
verify compares the first `ref_len` bytes in ascending order and stops at the first difference, which it reports. The two
premises hold at `VF_RUN` in every sound state (Safety.lean, `SeqInv`). -/
def Obligations.VerifyStopsAtTheFirstDifference : Prop :=
  ∀ (s : State), s.eng.state = .idle → s.seq.state = .vfRun → s.seq.refLen ≤ s.params.imageSize →
    s.seq.readAllOk = true → s.memImage.bg = some s.params.fill →
    ((∀ a < s.seq.refLen, s.memImage.read a = some (imageByte s.ports.reference a)) →
      coreStep s = .next { s with seq := { s.seq with status := .ok, state := .done } }) ∧
    (∀ a v, a < s.seq.refLen → (∀ b < a, s.memImage.read b = some (imageByte s.ports.reference b)) →
      s.memImage.read a = some v → v ≠ imageByte s.ports.reference a →
      coreStep s = .next { s with
        seq := { s.seq with status := .fail, err := .verificationMismatch, state := .done }
        ports := { s.ports with reports := s.ports.reports ++ [⟨.verificationMismatch, .address a⟩] } })

/-- 70_reset_and_hazards.md R376, 10_state.md R37, 44_flash_operations.md R310 (the condition on a read-all: log entry 22; verify is
one step: log entry 2): in a sound state whose image no R301 has filled since reset, whatever READ frames have written into it, a
verify is refused; and a sound core at `VF_RUN`, whose image is therefore filled, completes the verify, `S_OK` or with the
mismatch, and reads no byte that has no value. -/
def Obligations.VerifyNeverReadsAnImageNeverFilled : Prop :=
  ∀ s : State, Sound s →
    (s.memImage.bg = none → ∀ (a : OpArgs) (rest : List CallerMove), s.ports.moves = .start a :: rest → a.sel = .verify →
      a.reference ≠ none → s.seq.state = .idle ∨ s.seq.state = .done → s.eng.state = .idle →
      step s = .refused .noReadAllSinceReset) ∧
    (s.seq.state = .vfRun → s.memImage.bg = some s.params.fill ∧ ∃ t, coreStep s = .next t ∧ t.seq.state = .done ∧
      (t.seq.status = .ok ∧ t.seq.err = .none ∨ t.seq.status = .fail ∧ t.seq.err = .verificationMismatch) ∧
      t.memImage = s.memImage)

/-! ### The caller -/

/-- 44_flash_operations.md R280, 10_state.md R39, 70_reset_and_hazards.md R376 (D1, D23, D32; log entries 17, 22): a start is
accepted exactly at rest with what the operation needs: for sector erase and program a source image, for verify a reference
image and a read-all that ended `S_OK` since reset, the image at most `IMAGE_SIZE` long; the other three need only the Transport
and start whatever is bound. It latches the arguments and changes nothing else. The size of an image above `IMAGE_SIZE`, which
only an operation that does not read it can have bound, is latched as some value in the register's range (a free value, log
entry 17). -/
def Obligations.StartLatchesTheArgumentsOrIsRefused : Prop :=
  ∀ (s : State) (a : OpArgs) (rest : List CallerMove), s.ports.moves = .start a :: rest →
    ((s.seq.state = .idle ∨ s.seq.state = .done) → s.eng.state = .idle →
      (a.sel = .sectorErase ∨ a.sel = .program → ∃ i, a.source = some i ∧ i.len ≤ s.params.imageSize) →
      (a.sel = .verify → s.seq.readAllOk = true ∧ ∃ i, a.reference = some i ∧ i.len ≤ s.params.imageSize) →
      ∃ n m, n ≤ s.params.imageSize ∧ m ≤ s.params.imageSize ∧
        ((a.source.map Image.len).getD 0 ≤ s.params.imageSize → n = (a.source.map Image.len).getD 0) ∧
        ((a.reference.map Image.len).getD 0 ≤ s.params.imageSize → m = (a.reference.map Image.len).getD 0) ∧
        step s = .next { s with
          seq := { s.seq with
            state := match a.sel with
              | .identify => .idWait | .bulkErase => .beWait | .sectorErase => .seNext | .program => .pgNext
              | .readAll => .raInit | .verify => .vfRun
            sel := a.sel
            forceFill := a.forceFill
            srcLen := n
            refLen := m
            addr := if a.sel = .sectorErase ∨ a.sel = .program then 0 else s.seq.addr
            anyFail := if a.sel = .sectorErase then false else s.seq.anyFail
            status := .busy
            err := .none }
          ports := { s.ports with
            moves := rest
            source := (a.source.map Image.cells).getD []
            reference := (a.reference.map Image.cells).getD [] } }) ∧
    (¬(s.seq.state = .idle ∨ s.seq.state = .done) → step s = .refused .operationInProgress) ∧
    ((s.seq.state = .idle ∨ s.seq.state = .done) → s.eng.state ≠ .idle → step s = .refused .engineBusy)

/-- 70_reset_and_hazards.md R376, 44_flash_operations.md R290, R293, R310, 93_implementation_defined.md U9 (D23, D32): a start at
rest is refused when the operation's image is not bound, for verify also when no read-all has ended `S_OK` since reset (log entry
22), and when the operation's image is over `IMAGE_SIZE` (2 MiB by default). -/
def Obligations.StartIsRefusedWithoutItsRequirements : Prop :=
  ∀ (s : State) (a : OpArgs) (rest : List CallerMove), s.ports.moves = .start a :: rest →
    (s.seq.state = .idle ∨ s.seq.state = .done) → s.eng.state = .idle →
    (a.sel = .sectorErase ∨ a.sel = .program → a.source = none → step s = .refused .sourceNotBound) ∧
    (a.sel = .verify → a.reference = none → step s = .refused .referenceNotBound) ∧
    (a.sel = .verify → a.reference ≠ none → s.seq.readAllOk = false → step s = .refused .noReadAllSinceReset) ∧
    (∀ i, a.sel = .sectorErase ∨ a.sel = .program → a.source = some i → s.params.imageSize < i.len →
      step s = .refused (.imageTooLarge i.len)) ∧
    (∀ i, a.sel = .verify → a.reference = some i → s.seq.readAllOk = true → s.params.imageSize < i.len →
      step s = .refused (.imageTooLarge i.len))

/-- 42_engine.md R210, R230, 30_encoding.md R119 (D36, D5; refused during an operation: log entry 11): a hand-made EXECUTE is
refused during an operation, while one is outstanding, and outside the enumeration; its outcome is collected in `E_DONE`,
which makes the engine idle and changes nothing else (during an operation the move is refused: the model's choice, log
entry 11). -/
def Obligations.HandMadeExecuteIsOneAtATime : Prop :=
  ∀ (s : State) (op : Byte) (payload : List Byte) (expected : Byte) (rest : List CallerMove),
    (s.ports.moves = .execute op payload expected :: rest →
      (¬(s.seq.state = .idle ∨ s.seq.state = .done) → step s = .refused .operationInProgress) ∧
      ((s.seq.state = .idle ∨ s.seq.state = .done) → s.eng.state ≠ .idle → step s = .refused .engineBusy) ∧
      ((s.seq.state = .idle ∨ s.seq.state = .done) → s.eng.state = .idle →
        op ∉ [0x9F#8, 0xAB#8, 0xB9#8, 0x06#8, 0xC7#8, 0xD8#8, 0x02#8, 0x03#8, 0x44#8, 0x83#8, 0x45#8] →
        step s = .refused (.opcodeNotInEnumeration op))) ∧
    (s.ports.moves = .collect :: rest → s.seq.state = .idle ∨ s.seq.state = .done → s.eng.state = .done →
      step s = .next { s with
        eng := { s.eng with state := .idle }
        ports := { s.ports with moves := rest } }) ∧
    (s.ports.moves = .collect :: rest → ¬(s.seq.state = .idle ∨ s.seq.state = .done) →
      step s = .refused .operationInProgress)

/-- 10_state.md R47, R37, 20_memory.md R71 (what the caller has read stands in the model's own field `dumped`, log entry 19): the
dump port reads a byte of the Memory Image at rest once R301 has filled the image, is refused during an operation, and faults
outside the image (the model's choice, log entry 23) and, with no R301 since reset, on every byte, also one a READ frame has
written (that it is a fault: log entry 9); reading changes nothing. -/
def Obligations.DumpPortReadsTheImageAtRest : Prop :=
  ∀ (s : State) (a : Nat) (rest : List CallerMove), s.ports.moves = .dump a :: rest →
    (¬(s.seq.state = .idle ∨ s.seq.state = .done) → step s = .refused .dumpDuringOperation) ∧
    ((s.seq.state = .idle ∨ s.seq.state = .done) → s.params.imageSize ≤ a → step s = .fault (.noSuchImageAddress a)) ∧
    ((s.seq.state = .idle ∨ s.seq.state = .done) → a < s.params.imageSize → s.memImage.bg = none →
      step s = .fault (.imageByteUnspecified a)) ∧
    (∀ v, (s.seq.state = .idle ∨ s.seq.state = .done) → a < s.params.imageSize → s.memImage.bg = some s.params.fill →
      s.memImage.read a = some v →
      step s = .next { s with ports := { s.ports with moves := rest, dumped := s.ports.dumped ++ [(a, v)] } })

/-! ### Reset -/

/-- 70_reset_and_hazards.md R370, R371, R372 (D27): `RESET`, accepted at any time, gives every register the reset value R371
names and touches neither the Transport nor what is in flight in it. Of the spec's registers
only those R371 names a value for are stated; the model's own memory of a finished read-all is lost (R376, log entry 22). -/
def Obligations.ResetGivesTheNamedValues : Prop :=
  ∀ (s : State) (rest : List CallerMove), s.ports.moves = .reset :: rest →
    ∃ t, step s = .next t ∧
      t.dec.cur = 0 ∧ t.dec.sum = 0#8 ∧ t.dec.esc = false ∧ t.dec.ready = false ∧ t.enc.len = 0 ∧
      t.eng.state = .idle ∧ t.eng.tmo = 0 ∧ t.eng.outcome = .none ∧ t.eng.resLen = 0 ∧ t.ident.valid = false ∧
      (∀ p, ptTest t.pageDirty p = none) ∧ (∀ a, t.memImage.read a = none) ∧
      t.seq.state = .idle ∧ t.seq.failCount = 0 ∧ t.seq.status = .none ∧ t.seq.err = .none ∧ t.seq.tries = 0 ∧
      t.seq.readAllOk = false ∧
      t.flags = { malformed := false, addrRange := false, transport := false } ∧ t.ports.reports = [] ∧
      t.params = s.params ∧
      t.ports.rxScript = s.ports.rxScript ∧ t.ports.rxDraws = s.ports.rxDraws ∧
      t.ports.txScript = s.ports.txScript ∧ t.ports.txDraws = s.ports.txDraws ∧
      t.ports.wireOut = s.ports.wireOut ∧ t.ports.moves = rest

/-! ### Rules of the whole machine -/

/-- The reset state meets the invariant (its unspecified registers at the model's values, log entry 7), and its parameters have the
values of 00_scope.md R8. -/
def Obligations.TheResetStateIsSoundWithTheDefaultParameters : Prop :=
  Sound State.reset ∧
  State.reset.params =
    { fend := 0xC0#8, fesc := 0xDB#8, tfend := 0xDC#8, tfesc := 0xDD#8, csTarget := 0xFF#8, rxCap := 512, txChunk := 255,
      tmoIter := 5000, failMax := 25, pageSize := 256, imageSize := 2097152, sectorSize := 65536, fill := 0xFF#8,
      bulkAck := 0xC7#8, progRetryMax := none } ∧
  State.reset.params.dataMax = 256 ∧ State.reset.params.payloadMax = 258 ∧ State.reset.params.txCap = 521 ∧
  State.reset.params.pageCount = 8192 ∧ State.reset.params.readMin = 260

/-- 10_state.md R20 to R42, R26, 42_engine.md R235: every step from a sound state that answers a next state gives a sound state:
the registers stay in their ranges, the sum is the sum of the buffer, no frame is left unconsumed between steps, both memories
keep their canonical form inside their bounds, a verify runs only after a read-all that ended `S_OK` over a filled image (R37,
R376), the two control registers agree, and the parameters of the run stay as they are (R50). -/
def Obligations.StepKeepsTheStateSound : Prop :=
  ∀ s t : State, Sound s → step s = .next t → Sound t ∧ t.params = s.params

/-- 20_memory.md R89, 60_exceptions.md R332: whatever the Transport answers, a sound core with no move of the caller pending
takes a step: nothing it receives makes it fault or be refused. A sound core at
`VF_RUN` has an image to compare (70_reset_and_hazards.md R376). -/
def Obligations.NoTransportAnswerStopsTheCore : Prop :=
  ∀ s : State, Sound s → s.ports.moves = [] → ∃ t, step s = .next t

/-- 44_flash_operations.md R306, R307: a read-all ends `S_OK` only when no page is dirty: in a sound state, a step of the scan
that ends the operation with `S_OK` leaves `PT_COUNT = 0`. -/
def Obligations.ReadAllEndsOkOnlyWithNoDirtyPage : Prop :=
  ∀ s t : State, Sound s → s.seq.state = .raScan → coreStep s = .next t → t.seq.status = .ok →
    ptCount s.params.pageCount t.pageDirty = 0

/-- 43_page_tracker.md R265, first half (a bit without a value, before the first `PT_INIT` or after RESET, is not counted: the
model's choice, log entry 8): between two `PT_INIT` the dirty count never rises, whatever step is taken. -/
def Obligations.DirtyCountNeverRisesBetweenInits : Prop :=
  ∀ s t : State, s.pageDirty.wf → s.seq.state ≠ .raInit → step s = .next t →
    ptCount s.params.pageCount t.pageDirty ≤ ptCount s.params.pageCount s.pageDirty

/-- 20_memory.md R71, 10_state.md R37, 90_conflicts.md C5: only three things change a byte of the Memory Image: RESET, the fill of
`RA_INIT`, and the completion, in a poll, of a READ frame that is long enough and names the byte's page, below `PAGE_COUNT`:
the poll answers the delimiter and the buffer sums to `CS_TARGET`. That no frame is ready between steps is an invariant
(`StepKeepsTheStateSound`). The page of image address `a` is `a / PAGE_SIZE`: with the default 256 that is R71's and R78's page; in a
run with another `PAGE_SIZE` it is the model's choice (log entry 24). That a byte equal to `FEND` is the delimiter also where
another special byte equals it is the model's choice (log entry 21). -/
def Obligations.OnlyReadFramesAndInitialisationWriteTheImage : Prop :=
  ∀ (s t : State) (a : Nat), s.memImage.wf → s.dec.ready = false → step s = .next t →
    t.memImage.read a ≠ s.memImage.read a →
    (∃ rest, s.ports.moves = .reset :: rest) ∨
    (s.eng.state = .idle ∧ s.seq.state = .raInit) ∨
    (s.eng.state = .poll ∧ (rxPoll s).1 = .byte s.params.fend ∧ s.dec.sum = s.params.csTarget ∧ s.dec.buf.getD 0 0#8 = 0x03#8 ∧
      s.params.readMin ≤ s.dec.buf.length ∧
      a / s.params.pageSize = (s.dec.buf.getD 1 0#8).toNat * 256 + (s.dec.buf.getD 2 0#8).toNat ∧
      a / s.params.pageSize < s.params.pageCount)

/-- 10_state.md R43, R44: the two fault flags and `err_transport`, once set, stay set until RESET. -/
def Obligations.FaultFlagsAreStickyUntilReset : Prop :=
  ∀ s t : State, (∀ rest, s.ports.moves ≠ .reset :: rest) → step s = .next t →
    (s.flags.malformed = true → t.flags.malformed = true) ∧
    (s.flags.addrRange = true → t.flags.addrRange = true) ∧
    (s.flags.transport = true → t.flags.transport = true)

/-- 10_state.md R48: the report stream is append-only; a step other than RESET adds at most one event (that it
is at most one is the model's granularity, log entry 2). -/
def Obligations.ReportsAreAppendedAtMostOneAStep : Prop :=
  ∀ s t : State, (∀ rest, s.ports.moves ≠ .reset :: rest) → step s = .next t →
    t.ports.reports = s.ports.reports ∨ ∃ r, t.ports.reports = s.ports.reports ++ [r]

/-- 20_memory.md R89, R91, 42_engine.md R231: what a step offers to the Transport is nothing, or the first or the remaining part of
the frame in `tx_buf`, and only while the engine is sending; so no command goes out while a wait is on. -/
def Obligations.OnlyASendingEngineWritesToTheTransport : Prop :=
  ∀ s t : State, step s = .next t →
    t.ports.wireOut = s.ports.wireOut ∨
    (s.eng.state = .send1 ∧ t.ports.wireOut = s.ports.wireOut ++ [s.enc.buf.take s.params.txChunk]) ∨
    (s.eng.state = .send2 ∧ t.ports.wireOut = s.ports.wireOut ++ [s.enc.buf.drop s.params.txChunk])
end

