-- ==== Sys2Proof/Laws/State.lean ====
section
/-! SUPPORT. Laws/State.lean: for every shared update of State, one lemma per component it leaves alone and one per
component it writes, each true by rfl, so that no proof unfolds an update. -/

namespace Sys2Proof.Machine

/-! ### setMalformed -/

@[simp] theorem setMalformed_dec (s : State) : (setMalformed s).dec = s.dec := rfl
@[simp] theorem setMalformed_enc (s : State) : (setMalformed s).enc = s.enc := rfl
@[simp] theorem setMalformed_eng (s : State) : (setMalformed s).eng = s.eng := rfl
@[simp] theorem setMalformed_ident (s : State) : (setMalformed s).ident = s.ident := rfl
@[simp] theorem setMalformed_pageDirty (s : State) : (setMalformed s).pageDirty = s.pageDirty := rfl
@[simp] theorem setMalformed_memImage (s : State) : (setMalformed s).memImage = s.memImage := rfl
@[simp] theorem setMalformed_seq (s : State) : (setMalformed s).seq = s.seq := rfl
@[simp] theorem setMalformed_flags (s : State) : (setMalformed s).flags = { s.flags with malformed := true } := rfl
@[simp] theorem setMalformed_params (s : State) : (setMalformed s).params = s.params := rfl
@[simp] theorem setMalformed_ports (s : State) : (setMalformed s).ports = s.ports := rfl

/-! ### setAddrRange -/

@[simp] theorem setAddrRange_dec (s : State) : (setAddrRange s).dec = s.dec := rfl
@[simp] theorem setAddrRange_enc (s : State) : (setAddrRange s).enc = s.enc := rfl
@[simp] theorem setAddrRange_eng (s : State) : (setAddrRange s).eng = s.eng := rfl
@[simp] theorem setAddrRange_ident (s : State) : (setAddrRange s).ident = s.ident := rfl
@[simp] theorem setAddrRange_pageDirty (s : State) : (setAddrRange s).pageDirty = s.pageDirty := rfl
@[simp] theorem setAddrRange_memImage (s : State) : (setAddrRange s).memImage = s.memImage := rfl
@[simp] theorem setAddrRange_seq (s : State) : (setAddrRange s).seq = s.seq := rfl
@[simp] theorem setAddrRange_flags (s : State) : (setAddrRange s).flags = { s.flags with addrRange := true } := rfl
@[simp] theorem setAddrRange_params (s : State) : (setAddrRange s).params = s.params := rfl
@[simp] theorem setAddrRange_ports (s : State) : (setAddrRange s).ports = s.ports := rfl

/-! ### setErrTransport -/

@[simp] theorem setErrTransport_dec (s : State) : (setErrTransport s).dec = s.dec := rfl
@[simp] theorem setErrTransport_enc (s : State) : (setErrTransport s).enc = s.enc := rfl
@[simp] theorem setErrTransport_eng (s : State) : (setErrTransport s).eng = s.eng := rfl
@[simp] theorem setErrTransport_ident (s : State) : (setErrTransport s).ident = s.ident := rfl
@[simp] theorem setErrTransport_pageDirty (s : State) : (setErrTransport s).pageDirty = s.pageDirty := rfl
@[simp] theorem setErrTransport_memImage (s : State) : (setErrTransport s).memImage = s.memImage := rfl
@[simp] theorem setErrTransport_seq (s : State) : (setErrTransport s).seq = s.seq := rfl
@[simp] theorem setErrTransport_flags (s : State) :
    (setErrTransport s).flags = { s.flags with transport := true } := rfl
@[simp] theorem setErrTransport_params (s : State) : (setErrTransport s).params = s.params := rfl
@[simp] theorem setErrTransport_ports (s : State) : (setErrTransport s).ports = s.ports := rfl

/-! ### latchOutcome -/

@[simp] theorem latchOutcome_dec (o : EngOutcome) (s : State) : (latchOutcome o s).dec = s.dec := rfl
@[simp] theorem latchOutcome_enc (o : EngOutcome) (s : State) : (latchOutcome o s).enc = s.enc := rfl
@[simp] theorem latchOutcome_eng (o : EngOutcome) (s : State) :
    (latchOutcome o s).eng = { s.eng with outcome := o, state := .done } := rfl
@[simp] theorem latchOutcome_ident (o : EngOutcome) (s : State) : (latchOutcome o s).ident = s.ident := rfl
@[simp] theorem latchOutcome_pageDirty (o : EngOutcome) (s : State) : (latchOutcome o s).pageDirty = s.pageDirty := rfl
@[simp] theorem latchOutcome_memImage (o : EngOutcome) (s : State) : (latchOutcome o s).memImage = s.memImage := rfl
@[simp] theorem latchOutcome_seq (o : EngOutcome) (s : State) : (latchOutcome o s).seq = s.seq := rfl
@[simp] theorem latchOutcome_flags (o : EngOutcome) (s : State) : (latchOutcome o s).flags = s.flags := rfl
@[simp] theorem latchOutcome_params (o : EngOutcome) (s : State) : (latchOutcome o s).params = s.params := rfl
@[simp] theorem latchOutcome_ports (o : EngOutcome) (s : State) : (latchOutcome o s).ports = s.ports := rfl

/-! ### transportError -/

@[simp] theorem transportError_dec (s : State) : (transportError s).dec = s.dec := rfl
@[simp] theorem transportError_enc (s : State) : (transportError s).enc = s.enc := rfl
@[simp] theorem transportError_eng (s : State) :
    (transportError s).eng = { s.eng with outcome := .transportFailure, state := .done } := rfl
@[simp] theorem transportError_ident (s : State) : (transportError s).ident = s.ident := rfl
@[simp] theorem transportError_pageDirty (s : State) : (transportError s).pageDirty = s.pageDirty := rfl
@[simp] theorem transportError_memImage (s : State) : (transportError s).memImage = s.memImage := rfl
@[simp] theorem transportError_seq (s : State) : (transportError s).seq = s.seq := rfl
@[simp] theorem transportError_flags (s : State) : (transportError s).flags = { s.flags with transport := true } := rfl
@[simp] theorem transportError_params (s : State) : (transportError s).params = s.params := rfl
@[simp] theorem transportError_ports (s : State) : (transportError s).ports = s.ports := rfl

/-! ### consumeFrame -/

@[simp] theorem consumeFrame_dec (s : State) : (consumeFrame s).dec = Decoder.clear := rfl
@[simp] theorem consumeFrame_enc (s : State) : (consumeFrame s).enc = s.enc := rfl
@[simp] theorem consumeFrame_eng (s : State) : (consumeFrame s).eng = s.eng := rfl
@[simp] theorem consumeFrame_ident (s : State) : (consumeFrame s).ident = s.ident := rfl
@[simp] theorem consumeFrame_pageDirty (s : State) : (consumeFrame s).pageDirty = s.pageDirty := rfl
@[simp] theorem consumeFrame_memImage (s : State) : (consumeFrame s).memImage = s.memImage := rfl
@[simp] theorem consumeFrame_seq (s : State) : (consumeFrame s).seq = s.seq := rfl
@[simp] theorem consumeFrame_flags (s : State) : (consumeFrame s).flags = s.flags := rfl
@[simp] theorem consumeFrame_params (s : State) : (consumeFrame s).params = s.params := rfl
@[simp] theorem consumeFrame_ports (s : State) : (consumeFrame s).ports = s.ports := rfl

/-! ### refreshTimeout -/

@[simp] theorem refreshTimeout_dec (s : State) : (refreshTimeout s).dec = s.dec := rfl
@[simp] theorem refreshTimeout_enc (s : State) : (refreshTimeout s).enc = s.enc := rfl
@[simp] theorem refreshTimeout_eng (s : State) : (refreshTimeout s).eng = { s.eng with tmo := 0 } := rfl
@[simp] theorem refreshTimeout_ident (s : State) : (refreshTimeout s).ident = s.ident := rfl
@[simp] theorem refreshTimeout_pageDirty (s : State) : (refreshTimeout s).pageDirty = s.pageDirty := rfl
@[simp] theorem refreshTimeout_memImage (s : State) : (refreshTimeout s).memImage = s.memImage := rfl
@[simp] theorem refreshTimeout_seq (s : State) : (refreshTimeout s).seq = s.seq := rfl
@[simp] theorem refreshTimeout_flags (s : State) : (refreshTimeout s).flags = s.flags := rfl
@[simp] theorem refreshTimeout_params (s : State) : (refreshTimeout s).params = s.params := rfl
@[simp] theorem refreshTimeout_ports (s : State) : (refreshTimeout s).ports = s.ports := rfl

/-! ### succeed -/

@[simp] theorem succeed_dec (s : State) : (succeed s).dec = Decoder.clear := rfl
@[simp] theorem succeed_enc (s : State) : (succeed s).enc = s.enc := rfl
@[simp] theorem succeed_eng (s : State) :
    (succeed s).eng = { s.eng with resFrame := s.dec.buf, outcome := .success, state := .done } := rfl
@[simp] theorem succeed_ident (s : State) : (succeed s).ident = s.ident := rfl
@[simp] theorem succeed_pageDirty (s : State) : (succeed s).pageDirty = s.pageDirty := rfl
@[simp] theorem succeed_memImage (s : State) : (succeed s).memImage = s.memImage := rfl
@[simp] theorem succeed_seq (s : State) : (succeed s).seq = s.seq := rfl
@[simp] theorem succeed_flags (s : State) : (succeed s).flags = s.flags := rfl
@[simp] theorem succeed_params (s : State) : (succeed s).params = s.params := rfl
@[simp] theorem succeed_ports (s : State) : (succeed s).ports = s.ports := rfl

/-! ### absorb -/

@[simp] theorem absorb_dec (s : State) : (absorb s).dec = Decoder.clear := rfl
@[simp] theorem absorb_enc (s : State) : (absorb s).enc = s.enc := rfl
@[simp] theorem absorb_eng (s : State) : (absorb s).eng = { s.eng with tmo := 0 } := rfl
@[simp] theorem absorb_ident (s : State) : (absorb s).ident = s.ident := rfl
@[simp] theorem absorb_pageDirty (s : State) : (absorb s).pageDirty = s.pageDirty := rfl
@[simp] theorem absorb_memImage (s : State) : (absorb s).memImage = s.memImage := rfl
@[simp] theorem absorb_seq (s : State) : (absorb s).seq = s.seq := rfl
@[simp] theorem absorb_flags (s : State) : (absorb s).flags = s.flags := rfl
@[simp] theorem absorb_params (s : State) : (absorb s).params = s.params := rfl
@[simp] theorem absorb_ports (s : State) : (absorb s).ports = s.ports := rfl

/-! ### ignoreOther -/

@[simp] theorem ignoreOther_dec (s : State) : (ignoreOther s).dec = Decoder.clear := rfl
@[simp] theorem ignoreOther_enc (s : State) : (ignoreOther s).enc = s.enc := rfl
@[simp] theorem ignoreOther_eng (s : State) : (ignoreOther s).eng = { s.eng with tmo := 0 } := rfl
@[simp] theorem ignoreOther_ident (s : State) : (ignoreOther s).ident = s.ident := rfl
@[simp] theorem ignoreOther_pageDirty (s : State) : (ignoreOther s).pageDirty = s.pageDirty := rfl
@[simp] theorem ignoreOther_memImage (s : State) : (ignoreOther s).memImage = s.memImage := rfl
@[simp] theorem ignoreOther_seq (s : State) : (ignoreOther s).seq = s.seq := rfl
@[simp] theorem ignoreOther_flags (s : State) : (ignoreOther s).flags = s.flags := rfl
@[simp] theorem ignoreOther_params (s : State) : (ignoreOther s).params = s.params := rfl
@[simp] theorem ignoreOther_ports (s : State) : (ignoreOther s).ports = s.ports := rfl

/-! ### malformed -/

@[simp] theorem malformed_dec (s : State) : (malformed s).dec = Decoder.clear := rfl
@[simp] theorem malformed_enc (s : State) : (malformed s).enc = s.enc := rfl
@[simp] theorem malformed_eng (s : State) : (malformed s).eng = s.eng := rfl
@[simp] theorem malformed_ident (s : State) : (malformed s).ident = s.ident := rfl
@[simp] theorem malformed_pageDirty (s : State) : (malformed s).pageDirty = s.pageDirty := rfl
@[simp] theorem malformed_memImage (s : State) : (malformed s).memImage = s.memImage := rfl
@[simp] theorem malformed_seq (s : State) : (malformed s).seq = s.seq := rfl
@[simp] theorem malformed_flags (s : State) : (malformed s).flags = { s.flags with malformed := true } := rfl
@[simp] theorem malformed_params (s : State) : (malformed s).params = s.params := rfl
@[simp] theorem malformed_ports (s : State) : (malformed s).ports = s.ports := rfl

/-! ### addrRange -/

@[simp] theorem addrRange_dec (s : State) : (addrRange s).dec = Decoder.clear := rfl
@[simp] theorem addrRange_enc (s : State) : (addrRange s).enc = s.enc := rfl
@[simp] theorem addrRange_eng (s : State) : (addrRange s).eng = s.eng := rfl
@[simp] theorem addrRange_ident (s : State) : (addrRange s).ident = s.ident := rfl
@[simp] theorem addrRange_pageDirty (s : State) : (addrRange s).pageDirty = s.pageDirty := rfl
@[simp] theorem addrRange_memImage (s : State) : (addrRange s).memImage = s.memImage := rfl
@[simp] theorem addrRange_seq (s : State) : (addrRange s).seq = s.seq := rfl
@[simp] theorem addrRange_flags (s : State) : (addrRange s).flags = { s.flags with addrRange := true } := rfl
@[simp] theorem addrRange_params (s : State) : (addrRange s).params = s.params := rfl
@[simp] theorem addrRange_ports (s : State) : (addrRange s).ports = s.ports := rfl

/-! ### storePage -/

@[simp] theorem storePage_dec (s : State) : (storePage s).dec = s.dec := rfl
@[simp] theorem storePage_enc (s : State) : (storePage s).enc = s.enc := rfl
@[simp] theorem storePage_eng (s : State) : (storePage s).eng = s.eng := rfl
@[simp] theorem storePage_ident (s : State) : (storePage s).ident = s.ident := rfl
@[simp] theorem storePage_pageDirty (s : State) : (storePage s).pageDirty = ptClear s.pageDirty (framePage s.dec) := rfl
@[simp] theorem storePage_memImage (s : State) :
    (storePage s).memImage = s.memImage.writeBytes (framePage s.dec * s.params.pageSize) (frameData s.params s.dec) := rfl
@[simp] theorem storePage_seq (s : State) : (storePage s).seq = s.seq := rfl
@[simp] theorem storePage_flags (s : State) : (storePage s).flags = s.flags := rfl
@[simp] theorem storePage_params (s : State) : (storePage s).params = s.params := rfl
@[simp] theorem storePage_ports (s : State) : (storePage s).ports = s.ports := rfl

/-! ### clearPage -/

@[simp] theorem clearPage_dec (s : State) : (clearPage s).dec = s.dec := rfl
@[simp] theorem clearPage_enc (s : State) : (clearPage s).enc = s.enc := rfl
@[simp] theorem clearPage_eng (s : State) : (clearPage s).eng = s.eng := rfl
@[simp] theorem clearPage_ident (s : State) : (clearPage s).ident = s.ident := rfl
@[simp] theorem clearPage_pageDirty (s : State) : (clearPage s).pageDirty = ptClear s.pageDirty (framePage s.dec) := rfl
@[simp] theorem clearPage_memImage (s : State) : (clearPage s).memImage = s.memImage := rfl
@[simp] theorem clearPage_seq (s : State) : (clearPage s).seq = s.seq := rfl
@[simp] theorem clearPage_flags (s : State) : (clearPage s).flags = s.flags := rfl
@[simp] theorem clearPage_params (s : State) : (clearPage s).params = s.params := rfl
@[simp] theorem clearPage_ports (s : State) : (clearPage s).ports = s.ports := rfl

/-! ### latchIds -/

@[simp] theorem latchIds_dec (s : State) : (latchIds s).dec = s.dec := rfl
@[simp] theorem latchIds_enc (s : State) : (latchIds s).enc = s.enc := rfl
@[simp] theorem latchIds_eng (s : State) : (latchIds s).eng = s.eng := rfl
@[simp] theorem latchIds_ident (s : State) :
    (latchIds s).ident = ⟨frameByte s.dec 1, frameByte s.dec 2, frameByte s.dec 3, true⟩ := rfl
@[simp] theorem latchIds_pageDirty (s : State) : (latchIds s).pageDirty = s.pageDirty := rfl
@[simp] theorem latchIds_memImage (s : State) : (latchIds s).memImage = s.memImage := rfl
@[simp] theorem latchIds_seq (s : State) : (latchIds s).seq = s.seq := rfl
@[simp] theorem latchIds_flags (s : State) : (latchIds s).flags = s.flags := rfl
@[simp] theorem latchIds_params (s : State) : (latchIds s).params = s.params := rfl
@[simp] theorem latchIds_ports (s : State) : (latchIds s).ports = s.ports := rfl

/-! ### report -/

@[simp] theorem report_dec (c : ErrCode) (r : ReportInfo) (s : State) : (report c r s).dec = s.dec := rfl
@[simp] theorem report_enc (c : ErrCode) (r : ReportInfo) (s : State) : (report c r s).enc = s.enc := rfl
@[simp] theorem report_eng (c : ErrCode) (r : ReportInfo) (s : State) : (report c r s).eng = s.eng := rfl
@[simp] theorem report_ident (c : ErrCode) (r : ReportInfo) (s : State) : (report c r s).ident = s.ident := rfl
@[simp] theorem report_pageDirty (c : ErrCode) (r : ReportInfo) (s : State) :
    (report c r s).pageDirty = s.pageDirty := rfl
@[simp] theorem report_memImage (c : ErrCode) (r : ReportInfo) (s : State) : (report c r s).memImage = s.memImage := rfl
@[simp] theorem report_seq (c : ErrCode) (r : ReportInfo) (s : State) : (report c r s).seq = s.seq := rfl
@[simp] theorem report_flags (c : ErrCode) (r : ReportInfo) (s : State) : (report c r s).flags = s.flags := rfl
@[simp] theorem report_params (c : ErrCode) (r : ReportInfo) (s : State) : (report c r s).params = s.params := rfl
@[simp] theorem report_ports (c : ErrCode) (r : ReportInfo) (s : State) :
    (report c r s).ports = { s.ports with reports := s.ports.reports ++ [⟨c, r⟩] } := rfl

/-! ### finishOk -/

@[simp] theorem finishOk_dec (s : State) : (finishOk s).dec = s.dec := rfl
@[simp] theorem finishOk_enc (s : State) : (finishOk s).enc = s.enc := rfl
@[simp] theorem finishOk_eng (s : State) : (finishOk s).eng = s.eng := rfl
@[simp] theorem finishOk_ident (s : State) : (finishOk s).ident = s.ident := rfl
@[simp] theorem finishOk_pageDirty (s : State) : (finishOk s).pageDirty = s.pageDirty := rfl
@[simp] theorem finishOk_memImage (s : State) : (finishOk s).memImage = s.memImage := rfl
@[simp] theorem finishOk_seq (s : State) : (finishOk s).seq = { s.seq with status := .ok, state := .done } := rfl
@[simp] theorem finishOk_flags (s : State) : (finishOk s).flags = s.flags := rfl
@[simp] theorem finishOk_params (s : State) : (finishOk s).params = s.params := rfl
@[simp] theorem finishOk_ports (s : State) : (finishOk s).ports = s.ports := rfl

/-! ### finishReadAll -/

@[simp] theorem finishReadAll_dec (s : State) : (finishReadAll s).dec = s.dec := rfl
@[simp] theorem finishReadAll_enc (s : State) : (finishReadAll s).enc = s.enc := rfl
@[simp] theorem finishReadAll_eng (s : State) : (finishReadAll s).eng = s.eng := rfl
@[simp] theorem finishReadAll_ident (s : State) : (finishReadAll s).ident = s.ident := rfl
@[simp] theorem finishReadAll_pageDirty (s : State) : (finishReadAll s).pageDirty = s.pageDirty := rfl
@[simp] theorem finishReadAll_memImage (s : State) : (finishReadAll s).memImage = s.memImage := rfl
@[simp] theorem finishReadAll_seq (s : State) :
    (finishReadAll s).seq = { s.seq with readAllOk := true, status := .ok, state := .done } := rfl
@[simp] theorem finishReadAll_flags (s : State) : (finishReadAll s).flags = s.flags := rfl
@[simp] theorem finishReadAll_params (s : State) : (finishReadAll s).params = s.params := rfl
@[simp] theorem finishReadAll_ports (s : State) : (finishReadAll s).ports = s.ports := rfl

/-! ### finishFail -/

@[simp] theorem finishFail_dec (c : ErrCode) (s : State) : (finishFail c s).dec = s.dec := rfl
@[simp] theorem finishFail_enc (c : ErrCode) (s : State) : (finishFail c s).enc = s.enc := rfl
@[simp] theorem finishFail_eng (c : ErrCode) (s : State) : (finishFail c s).eng = s.eng := rfl
@[simp] theorem finishFail_ident (c : ErrCode) (s : State) : (finishFail c s).ident = s.ident := rfl
@[simp] theorem finishFail_pageDirty (c : ErrCode) (s : State) : (finishFail c s).pageDirty = s.pageDirty := rfl
@[simp] theorem finishFail_memImage (c : ErrCode) (s : State) : (finishFail c s).memImage = s.memImage := rfl
@[simp] theorem finishFail_seq (c : ErrCode) (s : State) :
    (finishFail c s).seq = { s.seq with status := .fail, err := c, state := .done } := rfl
@[simp] theorem finishFail_flags (c : ErrCode) (s : State) : (finishFail c s).flags = s.flags := rfl
@[simp] theorem finishFail_params (c : ErrCode) (s : State) : (finishFail c s).params = s.params := rfl
@[simp] theorem finishFail_ports (c : ErrCode) (s : State) : (finishFail c s).ports = s.ports := rfl

/-! ### raiseOp -/

@[simp] theorem raiseOp_dec (c : ErrCode) (r : ReportInfo) (s : State) : (raiseOp c r s).dec = s.dec := rfl
@[simp] theorem raiseOp_enc (c : ErrCode) (r : ReportInfo) (s : State) : (raiseOp c r s).enc = s.enc := rfl
@[simp] theorem raiseOp_eng (c : ErrCode) (r : ReportInfo) (s : State) : (raiseOp c r s).eng = s.eng := rfl
@[simp] theorem raiseOp_ident (c : ErrCode) (r : ReportInfo) (s : State) : (raiseOp c r s).ident = s.ident := rfl
@[simp] theorem raiseOp_pageDirty (c : ErrCode) (r : ReportInfo) (s : State) :
    (raiseOp c r s).pageDirty = s.pageDirty := rfl
@[simp] theorem raiseOp_memImage (c : ErrCode) (r : ReportInfo) (s : State) :
    (raiseOp c r s).memImage = s.memImage := rfl
@[simp] theorem raiseOp_seq (c : ErrCode) (r : ReportInfo) (s : State) :
    (raiseOp c r s).seq = { s.seq with status := .fail, err := c, state := .done } := rfl
@[simp] theorem raiseOp_flags (c : ErrCode) (r : ReportInfo) (s : State) : (raiseOp c r s).flags = s.flags := rfl
@[simp] theorem raiseOp_params (c : ErrCode) (r : ReportInfo) (s : State) : (raiseOp c r s).params = s.params := rfl
@[simp] theorem raiseOp_ports (c : ErrCode) (r : ReportInfo) (s : State) :
    (raiseOp c r s).ports = { s.ports with reports := s.ports.reports ++ [⟨c, r⟩] } := rfl

/-! ### goTo -/

@[simp] theorem goTo_dec (l : OpState) (s : State) : (goTo l s).dec = s.dec := rfl
@[simp] theorem goTo_enc (l : OpState) (s : State) : (goTo l s).enc = s.enc := rfl
@[simp] theorem goTo_eng (l : OpState) (s : State) : (goTo l s).eng = s.eng := rfl
@[simp] theorem goTo_ident (l : OpState) (s : State) : (goTo l s).ident = s.ident := rfl
@[simp] theorem goTo_pageDirty (l : OpState) (s : State) : (goTo l s).pageDirty = s.pageDirty := rfl
@[simp] theorem goTo_memImage (l : OpState) (s : State) : (goTo l s).memImage = s.memImage := rfl
@[simp] theorem goTo_seq (l : OpState) (s : State) : (goTo l s).seq = { s.seq with state := l } := rfl
@[simp] theorem goTo_flags (l : OpState) (s : State) : (goTo l s).flags = s.flags := rfl
@[simp] theorem goTo_params (l : OpState) (s : State) : (goTo l s).params = s.params := rfl
@[simp] theorem goTo_ports (l : OpState) (s : State) : (goTo l s).ports = s.ports := rfl

/-! ### collected -/

@[simp] theorem collected_dec (s : State) : (collected s).dec = s.dec := rfl
@[simp] theorem collected_enc (s : State) : (collected s).enc = s.enc := rfl
@[simp] theorem collected_eng (s : State) : (collected s).eng = { s.eng with state := .idle } := rfl
@[simp] theorem collected_ident (s : State) : (collected s).ident = s.ident := rfl
@[simp] theorem collected_pageDirty (s : State) : (collected s).pageDirty = s.pageDirty := rfl
@[simp] theorem collected_memImage (s : State) : (collected s).memImage = s.memImage := rfl
@[simp] theorem collected_seq (s : State) : (collected s).seq = s.seq := rfl
@[simp] theorem collected_flags (s : State) : (collected s).flags = s.flags := rfl
@[simp] theorem collected_params (s : State) : (collected s).params = s.params := rfl
@[simp] theorem collected_ports (s : State) : (collected s).ports = s.ports := rfl

/-! ### resetCore -/

@[simp] theorem resetCore_dec (s : State) : (resetCore s).dec = Decoder.clear := rfl
@[simp] theorem resetCore_enc (s : State) : (resetCore s).enc = State.reset.enc := rfl
@[simp] theorem resetCore_eng (s : State) : (resetCore s).eng = State.reset.eng := rfl
@[simp] theorem resetCore_ident (s : State) : (resetCore s).ident = State.reset.ident := rfl
@[simp] theorem resetCore_pageDirty (s : State) : (resetCore s).pageDirty = Memory.blank := rfl
@[simp] theorem resetCore_memImage (s : State) : (resetCore s).memImage = Memory.blank := rfl
@[simp] theorem resetCore_seq (s : State) : (resetCore s).seq = State.reset.seq := rfl
@[simp] theorem resetCore_flags (s : State) : (resetCore s).flags = State.reset.flags := rfl
@[simp] theorem resetCore_params (s : State) : (resetCore s).params = s.params := rfl
@[simp] theorem resetCore_ports (s : State) : (resetCore s).ports = { s.ports with reports := [] } := rfl

/-! ### gapStep -/

@[simp] theorem gapStep_dec (s : State) : (gapStep s).dec = s.dec := rfl
@[simp] theorem gapStep_enc (s : State) : (gapStep s).enc = s.enc := rfl
@[simp] theorem gapStep_eng (s : State) : (gapStep s).eng = { s.eng with state := .send2 } := rfl
@[simp] theorem gapStep_ident (s : State) : (gapStep s).ident = s.ident := rfl
@[simp] theorem gapStep_pageDirty (s : State) : (gapStep s).pageDirty = s.pageDirty := rfl
@[simp] theorem gapStep_memImage (s : State) : (gapStep s).memImage = s.memImage := rfl
@[simp] theorem gapStep_seq (s : State) : (gapStep s).seq = s.seq := rfl
@[simp] theorem gapStep_flags (s : State) : (gapStep s).flags = s.flags := rfl
@[simp] theorem gapStep_params (s : State) : (gapStep s).params = s.params := rfl
@[simp] theorem gapStep_ports (s : State) : (gapStep s).ports = s.ports := rfl

/-! ### advanceAddr -/

@[simp] theorem advanceAddr_dec (n : Nat) (l : OpState) (s : State) : (advanceAddr n l s).dec = s.dec := rfl
@[simp] theorem advanceAddr_enc (n : Nat) (l : OpState) (s : State) : (advanceAddr n l s).enc = s.enc := rfl
@[simp] theorem advanceAddr_eng (n : Nat) (l : OpState) (s : State) : (advanceAddr n l s).eng = s.eng := rfl
@[simp] theorem advanceAddr_ident (n : Nat) (l : OpState) (s : State) : (advanceAddr n l s).ident = s.ident := rfl
@[simp] theorem advanceAddr_pageDirty (n : Nat) (l : OpState) (s : State) :
    (advanceAddr n l s).pageDirty = s.pageDirty := rfl
@[simp] theorem advanceAddr_memImage (n : Nat) (l : OpState) (s : State) :
    (advanceAddr n l s).memImage = s.memImage := rfl
@[simp] theorem advanceAddr_seq (n : Nat) (l : OpState) (s : State) :
    (advanceAddr n l s).seq = { s.seq with addr := s.seq.addr + n, state := l } := rfl
@[simp] theorem advanceAddr_flags (n : Nat) (l : OpState) (s : State) : (advanceAddr n l s).flags = s.flags := rfl
@[simp] theorem advanceAddr_params (n : Nat) (l : OpState) (s : State) : (advanceAddr n l s).params = s.params := rfl
@[simp] theorem advanceAddr_ports (n : Nat) (l : OpState) (s : State) : (advanceAddr n l s).ports = s.ports := rfl

/-! ### readAllInit -/

@[simp] theorem readAllInit_dec (s : State) : (readAllInit s).dec = s.dec := rfl
@[simp] theorem readAllInit_enc (s : State) : (readAllInit s).enc = s.enc := rfl
@[simp] theorem readAllInit_eng (s : State) : (readAllInit s).eng = s.eng := rfl
@[simp] theorem readAllInit_ident (s : State) : (readAllInit s).ident = s.ident := rfl
@[simp] theorem readAllInit_pageDirty (s : State) : (readAllInit s).pageDirty = ptInit := rfl
@[simp] theorem readAllInit_memImage (s : State) : (readAllInit s).memImage = Memory.filled s.params.fill := rfl
@[simp] theorem readAllInit_seq (s : State) : (readAllInit s).seq = { s.seq with state := .raStartWait } := rfl
@[simp] theorem readAllInit_flags (s : State) : (readAllInit s).flags = s.flags := rfl
@[simp] theorem readAllInit_params (s : State) : (readAllInit s).params = s.params := rfl
@[simp] theorem readAllInit_ports (s : State) : (readAllInit s).ports = s.ports := rfl

/-! ### readAllPass -/

@[simp] theorem readAllPass_dec (s : State) : (readAllPass s).dec = s.dec := rfl
@[simp] theorem readAllPass_enc (s : State) : (readAllPass s).enc = s.enc := rfl
@[simp] theorem readAllPass_eng (s : State) : (readAllPass s).eng = s.eng := rfl
@[simp] theorem readAllPass_ident (s : State) : (readAllPass s).ident = s.ident := rfl
@[simp] theorem readAllPass_pageDirty (s : State) : (readAllPass s).pageDirty = s.pageDirty := rfl
@[simp] theorem readAllPass_memImage (s : State) : (readAllPass s).memImage = s.memImage := rfl
@[simp] theorem readAllPass_seq (s : State) :
    (readAllPass s).seq = { s.seq with failCount := 0, found := false, page := 0, state := .raScan } := rfl
@[simp] theorem readAllPass_flags (s : State) : (readAllPass s).flags = s.flags := rfl
@[simp] theorem readAllPass_params (s : State) : (readAllPass s).params = s.params := rfl
@[simp] theorem readAllPass_ports (s : State) : (readAllPass s).ports = s.ports := rfl

/-! ### nextPage -/

@[simp] theorem nextPage_dec (s : State) : (nextPage s).dec = s.dec := rfl
@[simp] theorem nextPage_enc (s : State) : (nextPage s).enc = s.enc := rfl
@[simp] theorem nextPage_eng (s : State) : (nextPage s).eng = s.eng := rfl
@[simp] theorem nextPage_ident (s : State) : (nextPage s).ident = s.ident := rfl
@[simp] theorem nextPage_pageDirty (s : State) : (nextPage s).pageDirty = s.pageDirty := rfl
@[simp] theorem nextPage_memImage (s : State) : (nextPage s).memImage = s.memImage := rfl
@[simp] theorem nextPage_seq (s : State) :
    (nextPage s).seq = { s.seq with page := s.seq.page + 1, state := .raScan } := rfl
@[simp] theorem nextPage_flags (s : State) : (nextPage s).flags = s.flags := rfl
@[simp] theorem nextPage_params (s : State) : (nextPage s).params = s.params := rfl
@[simp] theorem nextPage_ports (s : State) : (nextPage s).ports = s.ports := rfl

/-! ### readTimeout -/

@[simp] theorem readTimeout_dec (s : State) : (readTimeout s).dec = s.dec := rfl
@[simp] theorem readTimeout_enc (s : State) : (readTimeout s).enc = s.enc := rfl
@[simp] theorem readTimeout_eng (s : State) : (readTimeout s).eng = s.eng := rfl
@[simp] theorem readTimeout_ident (s : State) : (readTimeout s).ident = s.ident := rfl
@[simp] theorem readTimeout_pageDirty (s : State) : (readTimeout s).pageDirty = s.pageDirty := rfl
@[simp] theorem readTimeout_memImage (s : State) : (readTimeout s).memImage = s.memImage := rfl
@[simp] theorem readTimeout_seq (s : State) :
    (readTimeout s).seq = { s.seq with failCount := s.seq.failCount + 1, page := s.seq.page + 1, state := .raScan } := rfl
@[simp] theorem readTimeout_flags (s : State) : (readTimeout s).flags = s.flags := rfl
@[simp] theorem readTimeout_params (s : State) : (readTimeout s).params = s.params := rfl
@[simp] theorem readTimeout_ports (s : State) : (readTimeout s).ports = s.ports := rfl

/-! ### setMoves -/

@[simp] theorem setMoves_dec (l : List CallerMove) (s : State) : (setMoves l s).dec = s.dec := rfl
@[simp] theorem setMoves_enc (l : List CallerMove) (s : State) : (setMoves l s).enc = s.enc := rfl
@[simp] theorem setMoves_eng (l : List CallerMove) (s : State) : (setMoves l s).eng = s.eng := rfl
@[simp] theorem setMoves_ident (l : List CallerMove) (s : State) : (setMoves l s).ident = s.ident := rfl
@[simp] theorem setMoves_pageDirty (l : List CallerMove) (s : State) : (setMoves l s).pageDirty = s.pageDirty := rfl
@[simp] theorem setMoves_memImage (l : List CallerMove) (s : State) : (setMoves l s).memImage = s.memImage := rfl
@[simp] theorem setMoves_seq (l : List CallerMove) (s : State) : (setMoves l s).seq = s.seq := rfl
@[simp] theorem setMoves_flags (l : List CallerMove) (s : State) : (setMoves l s).flags = s.flags := rfl
@[simp] theorem setMoves_params (l : List CallerMove) (s : State) : (setMoves l s).params = s.params := rfl
@[simp] theorem setMoves_ports (l : List CallerMove) (s : State) :
    (setMoves l s).ports = { s.ports with moves := l } := rfl

end Sys2Proof.Machine
end

