-- ==== Sys2Proof/Laws/Codec.lean ====
section
/-! SUPPORT. Laws/Codec.lean: the laws of the sums and of the decoder. One `DEC_STEP` is one function of the byte and the
decoder (`wireStep`); feeding the escaped bytes of a sequence stores the sequence. -/

namespace Sys2Proof.Machine

@[simp] theorem sum8_nil : sum8 [] = 0#8 := rfl

@[simp] theorem sum8_cons (b : Byte) (s : List Byte) : sum8 (b :: s) = b + sum8 s := rfl

@[simp] theorem sum8_append (s t : List Byte) : sum8 (s ++ t) = sum8 s + sum8 t := by
  induction s with
  | nil => simp
  | cons b s ih => simp [ih, BitVec.add_assoc]

theorem toNat_sum8 (s : List Byte) : (sum8 s).toNat = (s.map BitVec.toNat).sum % 256 := by
  induction s with
  | nil => rfl
  | cons b s ih => simp [ih, BitVec.toNat_add]

theorem decStore_room {cap : Nat} {v : Byte} {d : Decoder} (h : d.cur < cap) :
    decStore cap v d = { d with buf := d.buf ++ [v], sum := d.sum + v, esc := false } := by
  simp only [decStore, if_neg (Nat.not_le.2 h)]

theorem decStore_full {cap : Nat} {v : Byte} {d : Decoder} (h : cap ≤ d.cur) : decStore cap v d = Decoder.clear := by
  simp only [decStore, if_pos h, decReset]

/-- What one `DEC_STEP` does to the decoder, by the value of the byte (40_codec.md R148). -/
def wireStep (p : Params) (b : Byte) (d : Decoder) : Decoder :=
  if b = p.fend then decFend p d
  else if b = p.fesc then decFesc d
  else if b = p.tfesc then decTransposed p.rxCap p.fesc p.tfesc d
  else if b = p.tfend then decTransposed p.rxCap p.fend p.tfend d
  else decStore p.rxCap b d

@[simp] theorem wireStep_fend (p : Params) (d : Decoder) : wireStep p p.fend d = decFend p d := by simp [wireStep]

theorem wireStep_fesc {p : Params} (hp : FramingInv p) (d : Decoder) : wireStep p p.fesc d = { d with esc := true } := by
  simp [wireStep, decFesc, hp.fend_fesc.symm]

theorem wireStep_tfesc {p : Params} (hp : FramingInv p) (d : Decoder) :
    wireStep p p.tfesc d = if d.esc then decStore p.rxCap p.fesc d else decStore p.rxCap p.tfesc d := by
  simp [wireStep, decTransposed, hp.fend_tfesc.symm, hp.fesc_tfesc.symm]

theorem wireStep_tfend {p : Params} (hp : FramingInv p) (d : Decoder) :
    wireStep p p.tfend d = if d.esc then decStore p.rxCap p.fend d else decStore p.rxCap p.tfend d := by
  simp [wireStep, decTransposed, hp.fend_tfend.symm, hp.fesc_tfend.symm, hp.tfend_tfesc]

theorem wireStep_ordinary {p : Params} {b : Byte} (h1 : b ≠ p.fend) (h2 : b ≠ p.fesc) (h3 : b ≠ p.tfesc) (h4 : b ≠ p.tfend)
    (d : Decoder) : wireStep p b d = decStore p.rxCap b d := by
  simp only [wireStep, if_neg h1, if_neg h2, if_neg h3, if_neg h4]

theorem isSpecial_eq_false {p : Params} {b : Byte} :
    isSpecial p b = false ↔ b ≠ p.fend ∧ b ≠ p.fesc ∧ b ≠ p.tfend ∧ b ≠ p.tfesc := by
  simp [isSpecial, and_assoc]

/-- One raw byte, run as the instruction it decodes to, is `wireStep` on the decoder and nothing else. -/
theorem runCode_wire {b : Byte} {s : State} (h : s.dec.ready = false) :
    runCode (.wire b) s = .next { s with dec := wireStep s.params b s.dec } := by
  have hs : runCode (.wire b) s = exec (wireOf s.params b) s := rfl
  rw [hs]
  unfold wireOf wireStep
  split
  · simp [exec, execFend, decStepWith, h]
  · split
    · simp [exec, execFesc, decStepWith, h]
    · split
      · simp [exec, execTfesc, decStepWith, h]
      · split
        · simp [exec, execTfend, decStepWith, h]
        · have : isSpecial s.params b = false := isSpecial_eq_false.2 ⟨‹_›, ‹_›, ‹_›, ‹_›⟩
          simp [exec, execOrdinary, decStepWith, h, this]

theorem runCode_wire_ready {b : Byte} {s : State} (h : s.dec.ready = true) :
    runCode (.wire b) s = .refused .frameNotConsumed := by
  have hs : runCode (.wire b) s = exec (wireOf s.params b) s := rfl
  rw [hs]
  unfold wireOf
  split
  · simp [exec, execFend, decStepWith, h]
  · split
    · simp [exec, execFesc, decStepWith, h]
    · split
      · simp [exec, execTfesc, decStepWith, h]
      · split
        · simp [exec, execTfend, decStepWith, h]
        · have : isSpecial s.params b = false := isSpecial_eq_false.2 ⟨‹_›, ‹_›, ‹_›, ‹_›⟩
          simp [exec, execOrdinary, decStepWith, h, this]

/-- What running one raw byte can answer: the decoder's step, or the refusal. -/
theorem runCode_wire_next {b : Byte} {s t : State} (h : runCode (.wire b) s = .next t) :
    s.dec.ready = false ∧ t = { s with dec := wireStep s.params b s.dec } := by
  cases hr : s.dec.ready with
  | true => rw [runCode_wire_ready hr] at h; cases h
  | false => rw [runCode_wire hr] at h; cases h; exact ⟨rfl, rfl⟩

/-- The five ways one `DEC_STEP` leaves the decoder. -/
theorem wireStep_cases (p : Params) (b : Byte) (d : Decoder) :
    (b = p.fend ∧ d.sum = p.csTarget ∧ wireStep p b d = { d with ready := true }) ∨
    (b = p.fend ∧ d.sum ≠ p.csTarget ∧ wireStep p b d = Decoder.clear) ∨
    (b = p.fesc ∧ wireStep p b d = { d with esc := true }) ∨
    (b ≠ p.fend ∧ p.rxCap ≤ d.cur ∧ wireStep p b d = Decoder.clear) ∨
    (b ≠ p.fend ∧ d.cur < p.rxCap ∧
      ∃ v, wireStep p b d = { d with buf := d.buf ++ [v], sum := d.sum + v, esc := false }) := by
  have store (hb : b ≠ p.fend) (v : Byte) (hv : wireStep p b d = decStore p.rxCap v d) :
      (b ≠ p.fend ∧ p.rxCap ≤ d.cur ∧ wireStep p b d = Decoder.clear) ∨
      (b ≠ p.fend ∧ d.cur < p.rxCap ∧
        ∃ v, wireStep p b d = { d with buf := d.buf ++ [v], sum := d.sum + v, esc := false }) := by
    by_cases hc : p.rxCap ≤ d.cur
    · exact .inl ⟨hb, hc, by rw [hv, decStore_full hc]⟩
    · exact .inr ⟨hb, Nat.lt_of_not_le hc, v, by rw [hv, decStore_room (Nat.lt_of_not_le hc)]⟩
  by_cases h1 : b = p.fend
  · by_cases hs : d.sum = p.csTarget
    · exact .inl ⟨h1, hs, by rw [h1, wireStep_fend]; simp [decFend, sumIsTarget, hs]⟩
    · exact .inr (.inl ⟨h1, hs, by rw [h1, wireStep_fend]; simp [decFend, sumIsTarget, hs, decReset]⟩)
  by_cases h2 : b = p.fesc
  · exact .inr (.inr (.inl ⟨h2, by unfold wireStep; rw [if_neg h1, if_pos h2]; rfl⟩))
  refine .inr (.inr (.inr ?_))
  by_cases h3 : b = p.tfesc
  · exact store h1 (if d.esc then p.fesc else p.tfesc) (by
      unfold wireStep; rw [if_neg h1, if_neg h2, if_pos h3, decTransposed]; cases d.esc <;> rfl)
  by_cases h4 : b = p.tfend
  · exact store h1 (if d.esc then p.fend else p.tfend) (by
      unfold wireStep; rw [if_neg h1, if_neg h2, if_neg h3, if_pos h4, decTransposed]; cases d.esc <;> rfl)
  · exact store h1 b (wireStep_ordinary h1 h2 h3 h4 d)

/-- The reset decoder meets the decoder invariant (10_state.md R26). -/
theorem decoderInv_clear (p : Params) : DecoderInv p Decoder.clear where
  sum_eq := rfl
  cur_le := Nat.zero_le _
  ready_sum := fun h => nomatch h
  ready_cur := fun h => nomatch h

/-! ### The raw frame -/

/-- The length of one escaped byte (40_codec.md R130). -/
theorem esc_length (q : Params) (b : Byte) : (esc q b).length = if b = q.fend ∨ b = q.fesc then 2 else 1 := by
  unfold esc
  split
  · simp [*]
  · split <;> simp [*]

theorem escAll_eq_flatMap (q : Params) (p : List Byte) : escAll q p = p.flatMap (esc q) := by
  induction p with
  | nil => rfl
  | cons b p ih => simp [escAll, ih]

theorem escAll_length (q : Params) (p : List Byte) :
    p.length ≤ (escAll q p).length ∧ (escAll q p).length ≤ 2 * p.length := by
  induction p with
  | nil => simp [escAll]
  | cons b p ih =>
    simp only [escAll, List.length_append, esc_length, List.length_cons]
    split <;> omega

/-- A raw frame has at least four bytes, and at most five more than two for each payload byte (10_state.md R27). -/
theorem rawFrame_length_le (q : Params) (op : Byte) (p : List Byte) :
    4 ≤ (rawFrame q op p).length ∧ (rawFrame q op p).length ≤ 5 + 2 * p.length := by
  have := escAll_length q p
  simp only [rawFrame, List.length_append, esc_length, List.length_cons, List.length_nil]
  split <;> omega

/-- The default frame format meets the framing condition. -/
theorem framingInv_default : FramingInv .default where
  fend_fesc := by decide
  fend_tfend := by decide
  fend_tfesc := by decide
  fesc_tfend := by decide
  fesc_tfesc := by decide
  tfend_tfesc := by decide
  opcode := fun op => by cases op <;> decide
  target := by decide

/-! ### Feeding raw bytes -/

@[simp] theorem feedRaw_nil (s : State) : feedRaw [] s = .next s := rfl

theorem feedRaw_cons {b : Byte} {bs : List Byte} {s : State} (h : s.dec.ready = false) :
    feedRaw (b :: bs) s = feedRaw bs { s with dec := wireStep s.params b s.dec } := by
  simp only [feedRaw, runCode_wire h, andThen]

theorem feedRaw_append (xs ys : List Byte) (s : State) :
    feedRaw (xs ++ ys) s = andThen (feedRaw xs s) (feedRaw ys) := by
  induction xs generalizing s with
  | nil => rfl
  | cons b xs ih =>
    simp only [List.cons_append, feedRaw]
    cases runCode (.wire b) s with
    | next t => exact ih t
    | fault r => rfl
    | refused r => rfl

/-- The escaped form of one byte stores that byte (30_encoding.md R103). -/
theorem feedRaw_esc {b : Byte} {s : State} (hp : FramingInv s.params) (hr : s.dec.ready = false) (he : s.dec.esc = false)
    (hc : s.dec.cur < s.params.rxCap) :
    feedRaw (esc s.params b) s =
      .next { s with dec := { s.dec with buf := s.dec.buf ++ [b], sum := s.dec.sum + b } } := by
  have hd : ∀ v d, d.esc = false → d.ready = false → d.cur < s.params.rxCap →
      decStore s.params.rxCap v d = { d with buf := d.buf ++ [v], sum := d.sum + v } := by
    intro v d h1 _ h3; rw [decStore_room h3]; cases d; simp_all
  unfold esc
  split
  · subst b
    rw [feedRaw_cons hr, feedRaw_cons (by rw [wireStep_fesc hp]; exact hr), wireStep_fesc hp, wireStep_tfend hp, if_pos rfl,
      decStore_room (by exact hc)]
    simp [he]
  · split
    · subst b
      rw [feedRaw_cons hr, feedRaw_cons (by rw [wireStep_fesc hp]; exact hr), wireStep_fesc hp, wireStep_tfesc hp, if_pos rfl,
        decStore_room (by exact hc)]
      simp [he]
    · rename_i h1 h2
      rw [feedRaw_cons hr, feedRaw_nil, ← hd b s.dec he hr hc]
      by_cases h3 : b = s.params.tfesc
      · subst b; rw [wireStep_tfesc hp, he]; rfl
      · by_cases h4 : b = s.params.tfend
        · subst b; rw [wireStep_tfend hp, he]; rfl
        · rw [wireStep_ordinary h1 h2 h3 h4]

/-- The escaped form of a sequence stores the sequence, as long as it fits. -/
theorem feedRaw_escAll {p : List Byte} : ∀ {s : State}, FramingInv s.params → s.dec.ready = false → s.dec.esc = false →
    s.dec.cur + p.length ≤ s.params.rxCap →
    feedRaw (escAll s.params p) s =
      .next { s with dec := { s.dec with buf := s.dec.buf ++ p, sum := s.dec.sum + sum8 p } } := by
  induction p with
  | nil => intro s _ _ _ _; simp [escAll]
  | cons b p ih =>
    intro s hp hr he hc
    have hl : (b :: p).length = p.length + 1 := rfl
    rw [escAll, feedRaw_append, feedRaw_esc hp hr he (by omega)]
    simp only [andThen]
    refine (ih (s := { s with dec := { s.dec with buf := s.dec.buf ++ [b], sum := s.dec.sum + b } }) hp hr he ?_).trans ?_
    · simp only [Decoder.cur, List.length_append, List.length_singleton] at hc ⊢; omega
    · simp [BitVec.add_assoc]

end Sys2Proof.Machine
end

