-- ==== Sys2Proof/Laws/Memory.lean ====
section
/-! SUPPORT. Laws/Memory.lean: the laws of the canonical memory. A read after a write, every other byte left alone, and the
canonical form kept by every memory operation. -/

namespace Sys2Proof.Machine

theorem cellAt_eq_none_of_lt {α : Type} {a : Nat} {cs : List (Nat × α)} (h : ∀ c ∈ cs, a < c.1) : cellAt a cs = none := by
  induction cs with
  | nil => rfl
  | cons c cs ih =>
    obtain ⟨b, w⟩ := c
    have hb : a < b := h (b, w) (by simp)
    have : b ≠ a := by omega
    simp only [cellAt, if_neg this]
    exact ih fun c hc => h c (by simp [hc])

/-- A written cell is the old one where it was listed, and the new address only once more. -/
theorem mem_writeCell {α : Type} [DecidableEq α] {bg : Option α} {a : Nat} {v : α} {cs : List (Nat × α)} {c : Nat × α}
    (h : c ∈ writeCell bg a v cs) : c = (a, v) ∧ some v ≠ bg ∨ c ∈ cs := by
  induction cs with
  | nil =>
    simp only [writeCell] at h
    split at h <;> simp_all
  | cons d cs ih =>
    obtain ⟨b, w⟩ := d
    simp only [writeCell] at h
    split at h
    · split at h <;> simp_all
    · split at h
      · split at h
        · exact .inr (List.mem_cons_of_mem _ h)
        · rcases List.mem_cons.1 h with h | h
          · exact .inl ⟨h, by assumption⟩
          · exact .inr (List.mem_cons_of_mem _ h)
      · rcases List.mem_cons.1 h with h | h
        · simp [h]
        · rcases ih h with h | h
          · exact .inl h
          · exact .inr (by simp [h])

theorem writeCell_sorted {α : Type} [DecidableEq α] {bg : Option α} {a : Nat} {v : α} {cs : List (Nat × α)}
    (h : cs.Pairwise (fun x y => x.1 < y.1)) : (writeCell bg a v cs).Pairwise (fun x y => x.1 < y.1) := by
  induction cs with
  | nil => simp only [writeCell]; split <;> simp
  | cons d cs ih =>
    obtain ⟨b, w⟩ := d
    have ⟨hb, hcs⟩ := List.pairwise_cons.1 h
    simp only [writeCell]
    split
    · rename_i hab
      split
      · exact h
      · refine List.pairwise_cons.2 ⟨fun c hc => ?_, h⟩
        rcases List.mem_cons.1 hc with rfl | hc
        · exact hab
        · exact Nat.lt_trans hab (hb c hc)
    · split
      · rename_i hab; subst hab
        split
        · exact hcs
        · exact List.pairwise_cons.2 ⟨hb, hcs⟩
      · refine List.pairwise_cons.2 ⟨fun c hc => ?_, ih hcs⟩
        rcases mem_writeCell hc with ⟨rfl, -⟩ | hc
        · show b < a; omega
        · exact hb c hc

/-- Reading a cell list after a write, over the background. -/
theorem cellAt_writeCell {α : Type} [DecidableEq α] {bg : Option α} {a : Nat} {v : α} {cs : List (Nat × α)}
    (h : cs.Pairwise (fun x y => x.1 < y.1)) (x : Nat) :
    (cellAt x (writeCell bg a v cs)).or bg = if x = a then some v else (cellAt x cs).or bg := by
  induction cs with
  | nil =>
    simp only [writeCell]
    split
    · rename_i hv; subst hv; by_cases hx : x = a <;> simp [hx, cellAt]
    · by_cases hx : x = a
      · simp [hx, cellAt]
      · simp [hx, cellAt, Ne.symm hx]
  | cons d cs ih =>
    obtain ⟨b, w⟩ := d
    have ⟨hb, hcs⟩ := List.pairwise_cons.1 h
    simp only [writeCell]
    split
    · rename_i hab
      split
      · rename_i hv; subst hv
        by_cases hx : x = a
        · subst hx
          have : cellAt x ((b, w) :: cs) = none := cellAt_eq_none_of_lt fun c hc => by
            rcases List.mem_cons.1 hc with rfl | hc
            · exact hab
            · exact Nat.lt_trans hab (hb c hc)
          simp [this]
        · simp [hx]
      · by_cases hx : x = a
        · simp [hx, cellAt]
        · rw [cellAt, if_neg (Ne.symm hx), if_neg hx]
    · split
      · rename_i hab; subst hab
        have hnone : cellAt a cs = none := cellAt_eq_none_of_lt fun c hc => hb c hc
        split
        · rename_i hv; subst hv
          by_cases hx : x = a
          · subst hx; simp [hnone]
          · simp [hx, cellAt, Ne.symm hx]
        · by_cases hx : x = a
          · simp [hx, cellAt]
          · simp [hx, cellAt, Ne.symm hx]
      · rename_i hnlt hne
        by_cases hxb : b = x
        · have hxa : x ≠ a := by omega
          subst hxb
          simp [cellAt, hxa]
        · simp only [cellAt, if_neg hxb]
          exact ih hcs

theorem read_eq {α : Type} (m : Memory α) (a : Nat) : m.read a = (cellAt a m.cells).or m.bg := by
  unfold Memory.read Memory.unlisted
  cases cellAt a m.cells <;> rfl

@[simp] theorem write_bg {α : Type} [DecidableEq α] (m : Memory α) (a : Nat) (v : α) : (m.write a v).bg = m.bg := rfl

/-- Read after one byte is written: the byte there, the old byte elsewhere. -/
theorem read_write {α : Type} [DecidableEq α] {m : Memory α} (h : m.wf) (a : Nat) (v : α) (x : Nat) :
    (m.write a v).read x = if x = a then some v else m.read x := by
  rw [read_eq, read_eq]
  exact cellAt_writeCell h.1 x

theorem write_wf {α : Type} [DecidableEq α] {m : Memory α} (h : m.wf) (a : Nat) (v : α) : (m.write a v).wf := by
  refine ⟨writeCell_sorted h.1, fun c hc => ?_⟩
  rcases mem_writeCell hc with ⟨rfl, hv⟩ | hc
  · exact hv
  · exact h.2 c hc

theorem writeBytes_wf {vs : List Byte} : ∀ {m : Memory Byte} (a : Nat), m.wf → (m.writeBytes a vs).wf := by
  induction vs with
  | nil => exact fun _ h => h
  | cons v vs ih => exact fun a h => ih (a + 1) (write_wf h a v)

@[simp] theorem writeBytes_bg (vs : List Byte) : ∀ (m : Memory Byte) (a : Nat), (m.writeBytes a vs).bg = m.bg := by
  induction vs with
  | nil => exact fun _ _ => rfl
  | cons v vs ih => exact fun m a => ih (m.write a v) (a + 1)

/-- Read after a sequence is written: its bytes in ascending order, the old byte elsewhere. -/
theorem read_writeBytes {vs : List Byte} : ∀ {m : Memory Byte} (a : Nat), m.wf → ∀ x,
    (m.writeBytes a vs).read x =
      if a ≤ x ∧ x < a + vs.length then some (vs.getD (x - a) 0#8) else m.read x := by
  induction vs with
  | nil => intro m a _ x; simp [Memory.writeBytes]
  | cons v vs ih =>
    intro m a h x
    rw [Memory.writeBytes, ih (a + 1) (write_wf h a v), read_write h]
    simp only [List.length_cons]
    by_cases hx : x = a
    · subst hx; simp
    · by_cases hin : a + 1 ≤ x ∧ x < a + 1 + vs.length
      · have : a ≤ x ∧ x < a + (vs.length + 1) := by omega
        rw [if_pos hin, if_pos this]
        obtain ⟨k, rfl⟩ : ∃ k, x = a + 1 + k := ⟨x - (a + 1), by omega⟩
        rw [show a + 1 + k - (a + 1) = k by omega, show a + 1 + k - a = k + 1 by omega]
        simp
      · have : ¬(a ≤ x ∧ x < a + (vs.length + 1)) := by omega
        rw [if_neg hin, if_neg this, if_neg hx]

theorem mem_cells_writeBytes {vs : List Byte} : ∀ {m : Memory Byte} {a : Nat} {c : Host.Cell},
    c ∈ (m.writeBytes a vs).cells → (a ≤ c.1 ∧ c.1 < a + vs.length) ∨ c ∈ m.cells := by
  induction vs with
  | nil => exact fun h => .inr h
  | cons v vs ih =>
    intro m a c h
    rcases ih h with h | h
    · simp only [List.length_cons]; left; omega
    · rcases mem_writeCell h with ⟨rfl, -⟩ | h
      · left; simp
      · exact .inr h

theorem filled_wf (v : Byte) : (Memory.filled v).wf := ⟨.nil, fun _ h => nomatch h⟩

theorem ptInit_wf : ptInit.wf := ⟨.nil, fun _ h => nomatch h⟩

theorem blank_wf {α : Type} : (Memory.blank : Memory α).wf := ⟨.nil, fun _ h => nomatch h⟩

theorem read_filled (v : Byte) (a : Nat) : (Memory.filled v).read a = some v := rfl

theorem read_blank {α : Type} (a : Nat) : (Memory.blank : Memory α).read a = none := rfl

/-- Over a background with a value every element has one. -/
theorem read_of_bg {α : Type} {m : Memory α} {w : α} (h : m.bg = some w) (a : Nat) :
    m.read a = some ((cellAt a m.cells).getD w) := by
  rw [read_eq, h]
  cases cellAt a m.cells <;> rfl

/-- A read inside an image that R301 has filled answers its byte. -/
theorem imageRead_filled {s : State} {a : Nat} {v w : Byte} (ha : a < s.params.imageSize) (hw : s.memImage.bg = some w)
    (h : s.memImage.read a = some v) : imageRead s a = .ok v := by
  rw [read_of_bg hw] at h
  unfold imageRead Memory.unlisted
  rw [if_neg (by omega), hw]
  exact congrArg Except.ok (Option.some.inj h)

/-- Before the first R301 since reset no byte can be read, whatever the cells list (10_state.md R37). -/
theorem imageRead_unfilled {s : State} {a : Nat} (ha : a < s.params.imageSize) (hw : s.memImage.bg = none) :
    imageRead s a = .error (.imageByteUnspecified a) := by
  unfold imageRead Memory.unlisted
  rw [if_neg (by omega), hw]

end Sys2Proof.Machine
end

