-- ==== Sys2Proof/Laws/Ops.lean ====
section
/-! SUPPORT. Laws/Ops.lean: for each shared operation, what it can answer, said once. -/

namespace Sys2Proof.Machine

/-! ### Outcomes -/

@[simp] theorem andThen_next (t : State) (f : State → Host.Outcome State Fault Refusal) : andThen (.next t) f = f t := rfl

theorem andThen_eq_next {o : Host.Outcome State Fault Refusal} {f : State → Host.Outcome State Fault Refusal} {u : State}
    (h : andThen o f = .next u) : ∃ t, o = .next t ∧ f t = .next u := by
  cases o with
  | next t => exact ⟨t, rfl, h⟩
  | fault r => cases h
  | refused r => cases h

/-! ### EXECUTE -/

/-- What the start of an EXECUTE can answer (42_engine.md R211). -/
theorem executeStart_cases {op : Byte} {p : List Byte} {e : Byte} {s t : State}
    (h : executeStart op p e s = .next t) :
    s.eng.state = .idle ∧
    ((s.flags.transport = true ∧ t = latchOutcome .transportFailure s) ∨
     (s.flags.transport = false ∧ p.length ≤ s.params.payloadMax ∧
      t = { s with
        enc := encodeFrame s.params op p
        eng := { s.eng with expected := e, tmo := 0, outcome := .none, state := .send1 } })) := by
  unfold executeStart at h
  split at h
  · cases h
  · rename_i hs
    refine ⟨by simpa using hs, ?_⟩
    split at h
    · rename_i ht; cases h; exact .inl ⟨ht, rfl⟩
    · split at h
      · cases h
      · rename_i ht hl; cases h; exact .inr ⟨by simpa using ht, by omega, rfl⟩

theorem executeStart_next {op : Byte} {p : List Byte} {e : Byte} {s : State} (hs : s.eng.state = .idle)
    (hp : p.length ≤ s.params.payloadMax) :
    executeStart op p e s = .next (if s.flags.transport then latchOutcome .transportFailure s else { s with
        enc := encodeFrame s.params op p
        eng := { s.eng with expected := e, tmo := 0, outcome := .none, state := .send1 } }) := by
  unfold executeStart
  rw [if_neg (by simp [hs])]
  split
  · rfl
  · rw [if_neg (by omega)]

/-- Every command is the start of an EXECUTE of its opcode. -/
theorem exec_commandOf (op : Opcode) (p : List Byte) (e : Byte) (s : State) :
    exec (commandOf op p e) s = executeStart (opcodeByte op) p e s := by
  cases op <;> rfl

/-- The opcode map read backwards. -/
theorem eq_opcodeByte_of_opcodeOf {b : Byte} {op : Opcode} (h : opcodeOf b = some op) : b = opcodeByte op := by
  simp only [opcodeOf, Option.map_eq_some_iff] at h
  obtain ⟨row, hf, rfl⟩ := h
  have hm := List.mem_of_find?_eq_some hf
  have hp := List.find?_some hf
  simp only [beq_iff_eq] at hp
  rw [← hp]
  revert hm
  revert row
  simp only [opcodeTable, List.mem_cons, List.not_mem_nil, or_false]
  rintro row - - (rfl | rfl | rfl | rfl | rfl | rfl | rfl | rfl | rfl | rfl | rfl) <;> rfl

/-- A call that answers a next state is the start of an EXECUTE of one of the eleven opcodes, with a legal payload. -/
theorem runCode_call_next {b : Byte} {p : List Byte} {e : Byte} {s t : State} (h : runCode (.call b p e) s = .next t) :
    ∃ op, b = opcodeByte op ∧ p.length ≤ s.params.payloadMax ∧ executeStart (opcodeByte op) p e s = .next t := by
  unfold runCode at h
  simp only [decode] at h
  cases ho : opcodeOf b with
  | none => simp [ho] at h
  | some op =>
    by_cases hp : payloadOk s.params p = true
    · simp only [ho, hp, if_true] at h
      rw [exec_commandOf] at h
      exact ⟨op, eq_opcodeByte_of_opcodeOf ho, by simpa [payloadOk] using hp, h⟩
    · simp [ho, hp] at h

/-! ### The Transport -/

/-- A poll changes the ports alone: the script or the draw counter. -/
theorem rxPoll_cases (s : State) :
    (∃ r rest, s.ports.rxScript = r :: rest ∧ rxPoll s = (r, { s with ports := { s.ports with rxScript := rest } })) ∨
    (s.ports.rxScript = [] ∧ rxPoll s =
      (Config.freeRxAnswer s.ports.rxDraws, { s with ports := { s.ports with rxDraws := s.ports.rxDraws + 1 } })) := by
  unfold rxPoll
  cases h : s.ports.rxScript with
  | nil => exact .inr ⟨rfl, rfl⟩
  | cons r rest => exact .inl ⟨r, rest, rfl, rfl⟩

/-- A poll leaves every component but the ports, and of the ports the reports and the writes. -/
theorem rxPoll_frame (s : State) : ∃ q, (rxPoll s).2 = { s with ports := q } ∧ q.reports = s.ports.reports ∧
    q.wireOut = s.ports.wireOut ∧ q.moves = s.ports.moves := by
  rcases rxPoll_cases s with ⟨r, rest, -, h⟩ | ⟨-, h⟩ <;> rw [h] <;> exact ⟨_, rfl, rfl, rfl, rfl⟩

/-- A write changes the ports alone, and records the bytes offered. -/
theorem txWrite_frame (bytes : List Byte) (s : State) : ∃ q, (txWrite bytes s).2 = { s with ports := q } ∧
    q.reports = s.ports.reports ∧ q.wireOut = s.ports.wireOut ++ [bytes] ∧ q.moves = s.ports.moves := by
  unfold txWrite
  cases s.ports.txScript <;> exact ⟨_, rfl, rfl, rfl, rfl⟩

/-! ### Frames -/

theorem onFrame_ready {f : State → State} {s : State} (h : s.dec.ready = true) : onFrame f s = .next (f s) := by
  simp [onFrame, h]

/-- A handler runs only on a ready frame. -/
theorem onFrame_eq_next {f : State → State} {s t : State} (h : onFrame f s = .next t) : s.dec.ready = true ∧ t = f s := by
  unfold onFrame at h
  split at h
  · cases h; exact ⟨by assumption, rfl⟩
  · cases h

theorem exec_readIdRsp {s : State} (h : s.dec.ready = true) :
    exec .readIdRsp s = .next (ending (verdictReadId s) (if verdictReadId s = .succeed then latchIds s else s)) := by
  simp only [exec, execReadIdRsp, onFrame_ready h]

theorem exec_readRsp {s : State} (h : s.dec.ready = true) :
    exec .readRsp s =
      .next (ending (verdictPage s.params.readMin s)
        (if resolvesPage (verdictPage s.params.readMin s) then storePage s else s)) := by
  simp only [exec, execReadRsp, onFrame_ready h]

theorem exec_readyRsp {s : State} (h : s.dec.ready = true) : exec .readyRsp s = .next (ending (verdictReady s) s) :=
  onFrame_ready h

theorem exec_emptyRsp {s : State} (h : s.dec.ready = true) :
    exec .emptyRsp s =
      .next (ending (verdictPage 4 s) (if resolvesPage (verdictPage 4 s) then clearPage s else s)) := by
  simp only [exec, execEmptyRsp, onFrame_ready h]

/-- A page frame resolves its page exactly when it is long enough and in range (60_exceptions.md R331). -/
theorem resolvesPage_verdictPage (n : Nat) (s : State) :
    resolvesPage (verdictPage n s) = true ↔ n ≤ s.dec.cur ∧ framePage s.dec < s.params.pageCount := by
  unfold verdictPage
  split
  · simp only [resolvesPage]; constructor
    · intro h; cases h
    · omega
  · split
    · simp only [resolvesPage]; constructor
      · intro h; cases h
      · omega
    · split <;> simp only [resolvesPage, true_iff] <;> omega

/-- What an ending leaves in the decoder: always the reset decoder. -/
@[simp] theorem ending_dec (v : Verdict) (s : State) : (ending v s).dec = Decoder.clear := by cases v <;> rfl
@[simp] theorem ending_enc (v : Verdict) (s : State) : (ending v s).enc = s.enc := by cases v <;> rfl
@[simp] theorem ending_ident (v : Verdict) (s : State) : (ending v s).ident = s.ident := by cases v <;> rfl
@[simp] theorem ending_pageDirty (v : Verdict) (s : State) : (ending v s).pageDirty = s.pageDirty := by cases v <;> rfl
@[simp] theorem ending_memImage (v : Verdict) (s : State) : (ending v s).memImage = s.memImage := by cases v <;> rfl
@[simp] theorem ending_seq (v : Verdict) (s : State) : (ending v s).seq = s.seq := by cases v <;> rfl
@[simp] theorem ending_params (v : Verdict) (s : State) : (ending v s).params = s.params := by cases v <;> rfl
@[simp] theorem ending_ports (v : Verdict) (s : State) : (ending v s).ports = s.ports := by cases v <;> rfl

/-- The tick after a verdict touches the engine alone. -/
theorem timeoutTick_eq (s : State) : timeoutTick s = { s with eng :=
    if s.eng.tmo + 1 = s.params.tmoIter then { s.eng with tmo := s.eng.tmo + 1, outcome := .timeout, state := .done }
    else { s.eng with tmo := s.eng.tmo + 1 } } := by
  unfold timeoutTick timeoutExpiry
  dsimp only
  split <;> rfl

theorem timeoutExpiry_eq (s : State) : timeoutExpiry s = { s with eng :=
    if s.eng.tmo = s.params.tmoIter then { s.eng with outcome := .timeout, state := .done } else s.eng } := by
  unfold timeoutExpiry
  split <;> rfl

/-- The handler of the frame in the receive buffer, said once: the verdict by tag, the side effect of the tag when the
verdict has one, and the ending. -/
def sideEffect (s : State) : State :=
  if frameByte s.dec 0 = 0x9F#8 then (if verdictReadId s = .succeed then latchIds s else s)
  else if frameByte s.dec 0 = 0x03#8 then (if resolvesPage (verdictPage s.params.readMin s) then storePage s else s)
  else if frameByte s.dec 0 = 0x45#8 then (if resolvesPage (verdictPage 4 s) then clearPage s else s)
  else s

@[simp] theorem sideEffect_dec (s : State) : (sideEffect s).dec = s.dec := by
  unfold sideEffect; (repeat' split) <;> rfl
@[simp] theorem sideEffect_enc (s : State) : (sideEffect s).enc = s.enc := by
  unfold sideEffect; (repeat' split) <;> rfl
@[simp] theorem sideEffect_eng (s : State) : (sideEffect s).eng = s.eng := by
  unfold sideEffect; (repeat' split) <;> rfl
@[simp] theorem sideEffect_seq (s : State) : (sideEffect s).seq = s.seq := by
  unfold sideEffect; (repeat' split) <;> rfl
@[simp] theorem sideEffect_flags (s : State) : (sideEffect s).flags = s.flags := by
  unfold sideEffect; (repeat' split) <;> rfl
@[simp] theorem sideEffect_params (s : State) : (sideEffect s).params = s.params := by
  unfold sideEffect; (repeat' split) <;> rfl
@[simp] theorem sideEffect_ports (s : State) : (sideEffect s).ports = s.ports := by
  unfold sideEffect; (repeat' split) <;> rfl

/-- The Memory Image after a side effect: as before, or written by a READ frame that is long enough and in range. -/
theorem sideEffect_memImage (s : State) : (sideEffect s).memImage = s.memImage ∨
    (frameByte s.dec 0 = 0x03#8 ∧ s.params.readMin ≤ s.dec.cur ∧ framePage s.dec < s.params.pageCount ∧
      (sideEffect s).memImage = s.memImage.writeBytes (framePage s.dec * s.params.pageSize) (frameData s.params s.dec)) := by
  unfold sideEffect
  split
  · split <;> exact .inl rfl
  · split
    · split
      · rename_i h3 hv
        have := (resolvesPage_verdictPage s.params.readMin s).1 hv
        exact .inr ⟨h3, this.1, this.2, rfl⟩
      · exact .inl rfl
    · split
      · split <;> exact .inl rfl
      · exact .inl rfl

/-- The Page Bitmap after a side effect: as before, or one page in range cleared. -/
theorem sideEffect_pageDirty (s : State) : (sideEffect s).pageDirty = s.pageDirty ∨
    (framePage s.dec < s.params.pageCount ∧ (sideEffect s).pageDirty = ptClear s.pageDirty (framePage s.dec)) := by
  unfold sideEffect
  split
  · split <;> exact .inl rfl
  · split
    · split
      · rename_i hv; exact .inr ⟨((resolvesPage_verdictPage s.params.readMin s).1 hv).2, rfl⟩
      · exact .inl rfl
    · split
      · split
        · rename_i hv; exact .inr ⟨((resolvesPage_verdictPage 4 s).1 hv).2, rfl⟩
        · exact .inl rfl
      · exact .inl rfl

/-- An ending writes the decoder, the engine and the sticky flags, and clears no flag. -/
theorem ending_frame (v : Verdict) (s : State) : ∃ e f, ending v s = { s with dec := Decoder.clear, eng := e, flags := f } ∧
    (s.flags.malformed = true → f.malformed = true) ∧ (s.flags.addrRange = true → f.addrRange = true) ∧
    f.transport = s.flags.transport := by
  cases v <;> refine ⟨_, _, rfl, ?_, ?_, ?_⟩ <;> simp

/-- The tick writes the engine alone. -/
theorem afterVerdict_frame (v : Verdict) (s : State) : ∃ e, afterVerdict v s = { s with eng := e } := by
  cases v <;> simp only [afterVerdict, id, timeoutExpiry_eq, timeoutTick_eq] <;> exact ⟨_, rfl⟩

/-- `CHECK_WRITE` writes the engine and `err_transport`, which it never clears. -/
theorem checkWrite_frame (r : TxAnswer) (k : Nat) (l : EngState) (s : State) :
    ∃ e f, checkWrite r k l s = { s with eng := e, flags := f } ∧ f.malformed = s.flags.malformed ∧
      f.addrRange = s.flags.addrRange ∧ (s.flags.transport = true → f.transport = true) := by
  unfold checkWrite
  split
  · exact ⟨_, _, rfl, rfl, rfl, id⟩
  · exact ⟨_, _, rfl, rfl, rfl, fun _ => rfl⟩

/-- `CLASSIFY` on a ready frame of at least one byte: the side effect, then the ending of the verdict (42_engine.md R220). -/
theorem runCode_frame {s : State} (hr : s.dec.ready = true) (hb : s.dec.buf ≠ []) :
    runCode (.frame s.dec.buf) s = .next (ending (classifyVerdict s) (sideEffect s)) := by
  obtain ⟨tag, rest, hbuf⟩ := List.exists_cons_of_ne_nil hb
  have h0 : frameByte s.dec 0 = tag := by simp [frameByte, hbuf]
  unfold runCode
  rw [hbuf]
  simp only [decode]
  cases ho : opcodeOf tag with
  | none =>
    have hne : ∀ b ∈ opcodeTable.map (·.1), b ≠ tag := by
      intro b hb hbt
      subst hbt
      simp only [opcodeOf, Option.map_eq_none_iff, List.find?_eq_none] at ho
      obtain ⟨row, hrow, rfl⟩ := List.mem_map.1 hb
      exact ho row hrow (by simp)
    simp only [onFrame_ready hr]
    have h1 := hne 0x9F#8 (by decide)
    have h2 := hne 0x03#8 (by decide)
    have h3 := hne 0x44#8 (by decide)
    have h4 := hne 0x45#8 (by decide)
    simp [classifyVerdict, sideEffect, h0, h1.symm, h2.symm, h3.symm, h4.symm, ending]
  | some op =>
    have htag : tag = opcodeByte op := eq_opcodeByte_of_opcodeOf ho
    rw [htag] at h0
    cases op <;>
      simp [responseOf, exec, execReadIdRsp, execPowerUpRsp, execPowerDownRsp, execWriteEnableRsp, execBulkEraseRsp,
        execSectorEraseRsp, execProgramRsp, execReadRsp, execReadyRsp, execReadAllRsp, execEmptyRsp, onFrame_ready hr,
        classifyVerdict, sideEffect, h0, opcodeByte, ending]

end Sys2Proof.Machine
end

