-- ==== Sys2Proof/Laws/Sequencer.lean ====
section
/-! SUPPORT. Laws/Sequencer.lean: the laws of the sequencer, of the step and of runs: which function a control state
selects, the bytes of an image port, the comparison of verify, and runs of several steps. -/

namespace Sys2Proof.Machine

/-! ### The image ports and verify -/

@[simp] theorem imageBytes_length (cells : List Host.Cell) (a n : Nat) : (imageBytes cells a n).length = n := by
  induction n generalizing a with
  | zero => rfl
  | succ n ih => simp [imageBytes, ih]

theorem getElem?_imageBytes (cells : List Host.Cell) {a n k : Nat} (h : k < n) :
    (imageBytes cells a n)[k]? = some (imageByte cells (a + k)) := by
  induction n generalizing a k with
  | zero => omega
  | succ n ih =>
    cases k with
    | zero => rfl
    | succ k =>
      simp only [imageBytes, List.getElem?_cons_succ]
      rw [ih (by omega)]
      congr 2
      omega

/-- A program chunk has at most a page of bytes (44_flash_operations.md R293). -/
theorem chunk_length_le (s : State) : (chunk s).length ≤ s.params.pageSize := by
  simp only [chunk, imageBytes_length, chunkLen]
  exact Nat.min_le_left _ _

/-- Verify passes over a stretch of bytes that agree (44_flash_operations.md R310). -/
theorem compareFrom_agree {s : State} {w : Byte} {a k : Nat} (n : Nat) (hw : s.memImage.bg = some w)
    (h : ∀ b, a ≤ b → b < a + k → b < s.params.imageSize ∧ s.memImage.read b = some (imageByte s.ports.reference b)) :
    compareFrom s a (k + n) = compareFrom s (a + k) n := by
  induction k generalizing a with
  | zero => simp
  | succ k ih =>
    obtain ⟨ha, hv⟩ := h a (Nat.le_refl _) (by omega)
    rw [show k + 1 + n = k + n + 1 by omega, compareFrom, imageRead_filled ha hw hv]
    simp only [if_true]
    rw [ih fun b h1 h2 => h b (by omega) (by omega), show a + 1 + k = a + (k + 1) by omega]

/-- On an image that R301 has filled, verify's comparison faults nowhere. -/
theorem compareFrom_filled {s : State} {w : Byte} (hw : s.memImage.bg = some w) {a n : Nat}
    (h : a + n ≤ s.params.imageSize) : ∃ r, compareFrom s a n = .ok r := by
  induction n generalizing a with
  | zero => exact ⟨none, rfl⟩
  | succ n ih =>
    rw [compareFrom, imageRead_filled (by omega) hw (read_of_bg hw a)]
    simp only
    split
    · exact ih (by omega)
    · exact ⟨some a, rfl⟩

/-! ### Which function runs -/

theorem coreStep_idle {s : State} (h : s.eng.state = .idle) : coreStep s = sequencerStep s := by unfold coreStep; rw [h]
theorem coreStep_send1 {s : State} (h : s.eng.state = .send1) : coreStep s = .next (firstWrite s) := by
  unfold coreStep; rw [h]
theorem coreStep_gap {s : State} (h : s.eng.state = .gap) : coreStep s = .next (gapStep s) := by unfold coreStep; rw [h]
theorem coreStep_send2 {s : State} (h : s.eng.state = .send2) : coreStep s = .next (secondWrite s) := by
  unfold coreStep; rw [h]
theorem coreStep_poll {s : State} (h : s.eng.state = .poll) : coreStep s = pollIteration s := by unfold coreStep; rw [h]
theorem coreStep_done {s : State} (h : s.eng.state = .done) (hr : opResting s = false) :
    coreStep s = collectOutcome s := by
  unfold coreStep; rw [h]; simp [hr]

theorem opResting_iff (s : State) : opResting s = true ↔ s.seq.state = .idle ∨ s.seq.state = .done := by
  simp [opResting]

theorem step_nil {s : State} (h : s.ports.moves = []) : step s = coreStep s := by unfold step; rw [h]

/-- A move other than `await` is taken off the list and applied. -/
theorem step_cons {s : State} {m : CallerMove} {rest : List CallerMove} (h : s.ports.moves = m :: rest) (hm : m ≠ .await) :
    step s = callerStep m (setMoves rest s) := by
  unfold step
  rw [h]
  have : stillAwaiting m s = false := by simp [stillAwaiting, hm]
  simp [this]

/-! ### The start of an operation -/

/-- What a start that is accepted needs, and what it leaves (44_flash_operations.md R280, 70_reset_and_hazards.md R376). -/
theorem startOp_next {a : OpArgs} {s t : State} (h : startOp a s = .next t) :
    opResting s = true ∧ s.eng.state = .idle ∧ (needsSource a.sel && a.source.isNone) = false ∧
    (needsReference a.sel && a.reference.isNone) = false ∧ (needsReadAll a.sel && !s.seq.readAllOk) = false ∧
    (needsSource a.sel = true → imageLen a.source ≤ s.params.imageSize) ∧
    (needsReference a.sel = true → imageLen a.reference ≤ s.params.imageSize) ∧ t = latchArgs a s := by
  unfold startOp at h
  (repeat' split at h) <;> cases h
  simp_all [Option.isSome_iff_ne_none]

/-- What a start latches of a size is in the range of the register (10_state.md R39). -/
theorem latchedLen_le (p : Params) (n : Nat) : latchedLen p n ≤ p.imageSize := by
  unfold latchedLen
  split
  · assumption
  · exact Nat.le_of_lt_succ (Nat.mod_lt _ (Nat.succ_pos _))

theorem latchedLen_of_le {p : Params} {n : Nat} (h : n ≤ p.imageSize) : latchedLen p n = n := if_pos h

/-- A start whose needs are met is accepted. -/
theorem startOp_of_needs {a : OpArgs} {s : State} (hr : opResting s = true) (he : s.eng.state = .idle)
    (hs : (needsSource a.sel && a.source.isNone) = false) (hf : (needsReference a.sel && a.reference.isNone) = false)
    (hv : (needsReadAll a.sel && !s.seq.readAllOk) = false)
    (h1 : needsSource a.sel = true → imageLen a.source ≤ s.params.imageSize)
    (h2 : needsReference a.sel = true → imageLen a.reference ≤ s.params.imageSize) :
    startOp a s = .next (latchArgs a s) := by
  have h1 : (needsSource a.sel && s.params.imageSize < imageLen a.source) = false := by simpa using h1
  have h2 : (needsReference a.sel && s.params.imageSize < imageLen a.reference) = false := by simpa using h2
  simp only [startOp, hr, he, hs, hf, hv, h1, h2, Bool.not_true, Bool.false_eq_true, ne_eq, not_true, if_false]

/-! ### Runs -/

theorem steps_zero (s : State) : steps 0 s = .next s := rfl

theorem steps_succ (n : Nat) (s : State) : steps (n + 1) s = andThen (step s) (steps n) := rfl

/-- A run of `m + n` steps is a run of `n` after a run of `m`. -/
theorem steps_add {m : Nat} (n : Nat) {s t : State} (h : steps m s = .next t) : steps (m + n) s = steps n t := by
  induction m generalizing s with
  | zero => cases h; rw [Nat.zero_add]
  | succ m ih =>
    obtain ⟨u, hu, h⟩ := andThen_eq_next h
    rw [Nat.succ_add, steps_succ, hu, andThen_next, ih h]

end Sys2Proof.Machine
end

