-- ==== Sys2Proof/Tests/Slice0.lean ====
section
/-! SUPPORT. Tests/Slice0.lean: decodings of words written out from the spec's encodings, ill-formed terms, single steps whose
expected results are the rows of 95_test_vectors.md (the section is named at each), and for every obligation with hypotheses
a concrete input that meets them. -/

namespace Sys2Proof.Tests

open Sys2Proof.Machine

/-! ### Helpers -/

/-- The outcome is a next state with a property. -/
def nextIs (o : Host.Outcome State Fault Refusal) (p : State → Bool) : Bool :=
  match o with
  | .next t => p t
  | .fault _ => false
  | .refused _ => false

/-- A decoder that has stored some bytes. -/
def stored (buf : List Byte) (esc : Bool) : Decoder := { buf := buf, sum := sum8 buf, esc := esc, ready := false }

/-- A state with a decoder. -/
def withDecoder (d : Decoder) : State := { State.reset with dec := d }

/-- A state with a ready frame and an expected response. -/
def framed (expected : Byte) (bytes : List Byte) : State :=
  { State.reset with
    dec := { stored bytes false with ready := true }
    eng := { State.reset.eng with state := .poll, expected := expected } }

/-- A state that polls, with some bytes stored and the coming answers of the Transport. -/
def polling (expected : Byte) (tmo : Nat) (buf : List Byte) (answers : List RxAnswer) : State :=
  { State.reset with
    dec := stored buf false
    eng := { State.reset.eng with state := .poll, expected := expected, tmo := tmo }
    ports := { State.reset.ports with rxScript := answers } }

/-- A state by its two control registers and the engine's outcome. -/
def stateAt (e : EngState) (o : EngOutcome) (l : OpState) : State :=
  { State.reset with
    eng := { State.reset.eng with state := e, outcome := o }
    seq := { State.reset.seq with state := l } }

/-- A state whose caller has moves to make. -/
def calling (moves : List CallerMove) : State := setMoves moves State.reset

/-- 256 bytes `0xA5`: the page of 95_test_vectors.md 2.5. -/
def pageA5 : List Byte := List.replicate 256 0xA5#8

/-- A READ frame of page 5, as stored: `03 00 05`, the page, `F7`. -/
def readFrame5 : List Byte := [0x03#8, 0x00#8, 0x05#8] ++ pageA5 ++ [0xF7#8]

/-! ### Decoding: words written out from 30_encoding.md R116 and R102 -/

theorem test_decode_commands :
    decode .default (.call 0b10011111#8 [] 0x9F#8) = .ok (.readId [] 0x9F#8) ∧
    decode .default (.call 0b10101011#8 [] 0x00#8) = .ok (.powerUp [] 0x00#8) ∧
    decode .default (.call 0b10111001#8 [] 0x00#8) = .ok (.powerDown [] 0x00#8) ∧
    decode .default (.call 0b00000110#8 [] 0x00#8) = .ok (.writeEnable [] 0x00#8) ∧
    decode .default (.call 0b11000111#8 [] 0xC7#8) = .ok (.bulkErase [] 0xC7#8) ∧
    decode .default (.call 0b11011000#8 [0x1F#8, 0x00#8] 0x44#8) = .ok (.sectorErase [0x1F#8, 0x00#8] 0x44#8) ∧
    decode .default (.call 0b00000010#8 [0x00#8, 0x01#8, 0x22#8] 0x44#8) = .ok (.program [0x00#8, 0x01#8, 0x22#8] 0x44#8) ∧
    decode .default (.call 0b00000011#8 [0x00#8, 0x12#8] 0x03#8) = .ok (.read [0x00#8, 0x12#8] 0x03#8) ∧
    decode .default (.call 0b01000100#8 [] 0x00#8) = .ok (.ready [] 0x00#8) ∧
    decode .default (.call 0b10000011#8 [] 0x44#8) = .ok (.readAll [] 0x44#8) ∧
    decode .default (.call 0b01000101#8 [] 0x00#8) = .ok (.empty [] 0x00#8) :=
  ⟨rfl, rfl, rfl, rfl, rfl, rfl, rfl, rfl, rfl, rfl, rfl⟩

theorem test_decode_responses :
    decode .default (.frame [0b10011111#8, 0xEF#8, 0x40#8, 0x15#8, 0x1C#8]) = .ok .readIdRsp ∧
    decode .default (.frame [0b10101011#8, 0x54#8]) = .ok .powerUpRsp ∧
    decode .default (.frame [0b10111001#8, 0x46#8]) = .ok .powerDownRsp ∧
    decode .default (.frame [0b00000110#8, 0xF9#8]) = .ok .writeEnableRsp ∧
    decode .default (.frame [0b11000111#8, 0x38#8]) = .ok .bulkEraseRsp ∧
    decode .default (.frame [0b11011000#8, 0x27#8]) = .ok .sectorEraseRsp ∧
    decode .default (.frame [0b00000010#8, 0xFD#8]) = .ok .programRsp ∧
    decode .default (.frame [0b00000011#8, 0xFC#8]) = .ok .readRsp ∧
    decode .default (.frame [0b01000100#8, 0xBB#8]) = .ok .readyRsp ∧
    decode .default (.frame [0b10000011#8, 0x7C#8]) = .ok .readAllRsp ∧
    decode .default (.frame [0b01000101#8, 0x00#8, 0x01#8, 0xB9#8]) = .ok .emptyRsp :=
  ⟨rfl, rfl, rfl, rfl, rfl, rfl, rfl, rfl, rfl, rfl, rfl⟩

theorem test_decode_wire_bytes :
    decode .default (.wire 0b11000000#8) = .ok .fend ∧
    decode .default (.wire 0b11011011#8) = .ok .fesc ∧
    decode .default (.wire 0b11011101#8) = .ok .tfesc ∧
    decode .default (.wire 0b11011100#8) = .ok .tfend ∧
    decode .default (.wire 0b10011111#8) = .ok (.ordinary 0x9F#8) :=
  ⟨rfl, rfl, rfl, rfl, rfl⟩

/-- 95_test_vectors.md 2.1, refusals; 30_encoding.md R118. -/
theorem test_decode_rejects :
    decode .default (.call 0x00#8 [] 0x00#8) = .error (.opcodeNotInEnumeration 0x00#8) ∧
    decode .default (.call 0xDB#8 [] 0x00#8) = .error (.opcodeNotInEnumeration 0xDB#8) ∧
    decode .default (.frame [0x00#8, 0xFF#8]) = .error (.tagNotAnOpcode 0x00#8) ∧
    decode .default (.frame []) = .error .emptyFrame :=
  ⟨rfl, rfl, rfl, rfl⟩

theorem test_decode_payload_too_long :
    decode .default (.call 0x02#8 (List.replicate 259 0#8) 0x44#8) = .error (.payloadTooLong 259) := by
  have h : payloadOk .default (List.replicate 259 0#8) = false := by decide +kernel
  have hl : (List.replicate 259 0#8).length = 259 := List.length_replicate
  simp only [decode, show opcodeOf 0x02#8 = some .program from rfl, h, hl]
  rfl

/-- The words of the table's rows, at the port log entry 1 gives them. -/
theorem test_decodeTableWord :
    decodeTableWord 8 0x9F = some (.readId [] 0x9F#8) ∧
    decodeTableWord 8 0x02 = some (.program [0#8, 0#8, 0#8] 0x44#8) ∧
    decodeTableWord 24 0x001203 = some (.read [0x12#8, 0x00#8] 0x03#8) ∧
    decodeTableWord 8 0xC0 = some .fend ∧
    decodeTableWord 8 0x55 = some (.ordinary 0x55#8) ∧
    decodeTableWord 0 0xC0 = none := by decide

/-! ### WellFormed refuses -/

theorem test_wf_payload_258 : (Instr.program (List.replicate 258 0xC0#8) 0x44#8).wf .default = true := by decide +kernel

theorem test_ill_formed_payload_259 :
    (Instr.program (List.replicate 259 0#8) 0x44#8).wf .default = false ∧
    (Instr.empty (List.replicate 259 0#8) 0#8).wf .default = false := by
  decide +kernel

theorem test_ill_formed_ordinary :
    (Instr.ordinary 0xC0#8).wf .default = false ∧ (Instr.ordinary 0xDB#8).wf .default = false ∧
    (Instr.ordinary 0xDC#8).wf .default = false ∧
    (Instr.ordinary 0xDD#8).wf .default = false := by decide

/-! ### The encoder: 95_test_vectors.md 2.1 -/

theorem test_raw_frames :
    rawFrame .default 0x9F#8 [] = [0xC0#8, 0x9F#8, 0x60#8, 0xC0#8] ∧
    rawFrame .default 0x03#8 [0x00#8, 0xC0#8] = [0xC0#8, 0x03#8, 0x00#8, 0xDB#8, 0xDC#8, 0x3C#8, 0xC0#8] ∧
    rawFrame .default 0x03#8 [0x00#8, 0x21#8] = [0xC0#8, 0x03#8, 0x00#8, 0x21#8, 0xDB#8, 0xDD#8, 0xC0#8] ∧
    rawFrame .default 0x02#8 [0x00#8, 0x00#8, 0xC0#8, 0xDB#8, 0xDC#8, 0xDD#8] =
      [0xC0#8, 0x02#8, 0x00#8, 0x00#8, 0xDB#8, 0xDC#8, 0xDB#8, 0xDD#8, 0xDC#8, 0xDD#8, 0xA9#8, 0xC0#8] := by decide

theorem test_longest_raw_frame :
    (rawFrame .default 0x02#8 (List.replicate 252 0xC0#8 ++ List.replicate 6 0xDB#8)).length = 521 := by decide +kernel

/-! ### Commands: one step of EXECUTE (95_test_vectors.md 2.1, 2.4) -/

/-- The start of a command leaves its frame in `tx_buf` and the engine about to send. -/
def sends (i : Instr) (raw : List Byte) : Bool :=
  nextIs (exec i State.reset) fun t => t.enc.buf == raw && t.eng.state == .send1 && t.eng.tmo == 0

theorem test_exec_readId : sends cmdReadId [0xC0#8, 0x9F#8, 0x60#8, 0xC0#8] = true := by decide
theorem test_exec_powerUp : sends (.powerUp [] 0#8) [0xC0#8, 0xAB#8, 0x54#8, 0xC0#8] = true := by decide
theorem test_exec_powerDown : sends (.powerDown [] 0#8) [0xC0#8, 0xB9#8, 0x46#8, 0xC0#8] = true := by decide
theorem test_exec_writeEnable : sends (.writeEnable [] 0#8) [0xC0#8, 0x06#8, 0xF9#8, 0xC0#8] = true := by decide
theorem test_exec_bulkErase : sends cmdBulkErase [0xC0#8, 0xC7#8, 0x38#8, 0xC0#8] = true := by decide
theorem test_exec_sectorErase :
    sends (cmdSectorErase 0x1F0000) [0xC0#8, 0xD8#8, 0x1F#8, 0x00#8, 0x08#8, 0xC0#8] = true := by decide
theorem test_exec_program :
    sends (cmdProgram 0x000000 [0x22#8]) [0xC0#8, 0x02#8, 0x00#8, 0x00#8, 0x22#8, 0xDB#8, 0xDD#8, 0xC0#8] = true := by
  decide
theorem test_exec_read : sends (cmdRead 0x1FFF00) [0xC0#8, 0x03#8, 0x1F#8, 0xFF#8, 0xDE#8, 0xC0#8] = true := by decide
theorem test_exec_readPage : sends (cmdReadPage 0x12) [0xC0#8, 0x03#8, 0x00#8, 0x12#8, 0xEA#8, 0xC0#8] = true := by decide
theorem test_exec_ready : sends (.ready [0xC7#8] 0#8) [0xC0#8, 0x44#8, 0xC7#8, 0xF4#8, 0xC0#8] = true := by decide
theorem test_exec_readAll : sends cmdReadAll [0xC0#8, 0x83#8, 0x7C#8, 0xC0#8] = true := by decide
theorem test_exec_empty :
    sends (.empty [0x1F#8, 0xFF#8] 0#8) [0xC0#8, 0x45#8, 0x1F#8, 0xFF#8, 0x9C#8, 0xC0#8] = true := by decide

/-! ### Wire bytes: rows of the traces of 95_test_vectors.md 2.2 and 2.3 -/

/-- One `DEC_STEP` leaves the decoder so. -/
def decodes (i : Instr) (d e : Decoder) : Bool := nextIs (exec i (withDecoder d)) fun t => t == withDecoder e

/-- Trace A, last row; trace B, last row. -/
theorem test_exec_fend :
    decodes .fend (stored [0x03#8, 0x00#8, 0xC0#8, 0x3C#8] false)
      { buf := [0x03#8, 0x00#8, 0xC0#8, 0x3C#8], sum := 0xFF#8, esc := false, ready := true } = true ∧
    decodes .fend (stored [0x44#8, 0xBA#8] false) { buf := [], sum := 0#8, esc := false, ready := false } = true := by
  decide

/-- Trace G: the delimiter right after an escape leaves `rx_esc` set. -/
theorem test_exec_fend_after_escape :
    decodes .fend (stored [0x44#8, 0xBB#8] true)
      { buf := [0x44#8, 0xBB#8], sum := 0xFF#8, esc := true, ready := true } = true := by decide

/-- Trace F, second escape byte. -/
theorem test_exec_fesc :
    decodes .fesc (stored [0x44#8] true) { buf := [0x44#8], sum := 0x44#8, esc := true, ready := false } = true := by decide

/-- Trace F, the row `DD`; a literal `DD`. -/
theorem test_exec_tfesc :
    decodes .tfesc (stored [0x44#8] true) { buf := [0x44#8, 0xDB#8], sum := 0x1F#8, esc := false, ready := false } = true ∧
    decodes .tfesc (stored [0x44#8] false) { buf := [0x44#8, 0xDD#8], sum := 0x21#8, esc := false, ready := false } = true := by
  decide

/-- Trace A, the row `DC`; trace D, the literal. -/
theorem test_exec_tfend :
    decodes .tfend (stored [0x03#8, 0x00#8] true)
      { buf := [0x03#8, 0x00#8, 0xC0#8], sum := 0xC3#8, esc := false, ready := false } = true ∧
    decodes .tfend (stored [0x44#8] false) { buf := [0x44#8, 0xDC#8], sum := 0x20#8, esc := false, ready := false } = true := by
  decide

/-- Trace C, the row `41`: a broken escape pair is stored as it is. -/
theorem test_exec_ordinary_after_escape :
    decodes (.ordinary 0x41#8) (stored [0x44#8] true)
      { buf := [0x44#8, 0x41#8], sum := 0x85#8, esc := false, ready := false } = true := by decide

/-- 2.3: the 512th byte fits, the 513th resets and is dropped. -/
theorem test_exec_ordinary_overflow :
    decodes (.ordinary 0x01#8) (stored (List.replicate 511 0x01#8) false) (stored (List.replicate 512 0x01#8) false) = true ∧
    decodes (.ordinary 0x01#8) (stored (List.replicate 512 0x01#8) false) Decoder.clear = true := by decide +kernel

/-! ### Responses: 95_test_vectors.md 2.5 -/

theorem test_exec_readIdRsp :
    nextIs (exec .readIdRsp (framed 0x9F#8 [0x9F#8, 0xEF#8, 0x40#8, 0x15#8, 0x1C#8])) (fun t =>
      t.ident == { mfr := 0xEF#8, dev0 := 0x40#8, dev1 := 0x15#8, valid := true } && t.eng.outcome == .success &&
      t.eng.resFrame == [0x9F#8, 0xEF#8, 0x40#8, 0x15#8, 0x1C#8] && t.dec == Decoder.clear) = true := by decide

theorem test_exec_readIdRsp_short :
    nextIs (exec .readIdRsp (framed 0x9F#8 [0x9F#8, 0xEF#8, 0x40#8, 0x31#8])) (fun t =>
      t.flags.malformed && t.ident.valid == false && t.eng.state == .poll) = true := by decide

theorem test_exec_readRsp :
    nextIs (exec .readRsp (framed 0x03#8 readFrame5)) (fun t =>
      t.memImage.read 0x500 == some 0xA5#8 && t.memImage.read 0x5FF == some 0xA5#8 && t.memImage.read 0x600 == none &&
      t.memImage.read 0x4FF == none && ptTest t.pageDirty 5 == some false && t.eng.outcome == .success) = true := by
  decide +kernel

theorem test_exec_readRsp_out_of_range :
    nextIs (exec .readRsp (framed 0x44#8 ([0x03#8, 0xFF#8, 0xFF#8] ++ List.replicate 256 0x00#8 ++ [0xFE#8]))) (fun t =>
      t.flags.addrRange && t.memImage == Memory.blank && t.eng.state == .poll) = true := by decide +kernel

theorem test_exec_readyRsp :
    nextIs (exec .readyRsp (framed 0xC7#8 [0x44#8, 0xC7#8, 0xF4#8])) (fun t => t.eng.outcome == .success) = true ∧
    nextIs (exec .readyRsp (framed 0xC7#8 [0x44#8, 0x00#8, 0xBB#8])) (fun t => t.eng.outcome == .none) = true := by decide

theorem test_exec_emptyRsp :
    nextIs (exec .emptyRsp (framed 0x44#8 [0x45#8, 0x00#8, 0x01#8, 0xB9#8])) (fun t =>
      ptTest t.pageDirty 1 == some false && t.eng.outcome == .none && t.memImage == Memory.blank) = true := by decide

theorem test_exec_emptyRsp_page_8192 :
    nextIs (exec .emptyRsp (framed 0x03#8 [0x45#8, 0x20#8, 0x00#8, 0x9A#8])) (fun t =>
      t.flags.addrRange && t.pageDirty == Memory.blank && t.eng.state == .poll) = true := by decide

/-- The seven tags without a handler: `POWER_UP` as a tag, any expected response, and its like. -/
theorem test_exec_ignored :
    ∀ i ∈ [Instr.powerUpRsp, .powerDownRsp, .writeEnableRsp, .bulkEraseRsp, .sectorEraseRsp, .programRsp, .readAllRsp],
      nextIs (exec i { framed 0x44#8 [0xAB#8, 0x54#8] with
        eng := { State.reset.eng with state := .poll, expected := 0x44#8, tmo := 7 } }) (fun t =>
        t.eng.tmo == 0 && t.eng.state == .poll && t.dec == Decoder.clear) = true := by decide

/-! ### Steps -/

/-- The timeout boundary of 2.5: the 5000th silent poll ends the wait; a frame completed in the 5000th iteration wins. -/
theorem test_step_timeout_boundary :
    nextIs (step (polling 0x44#8 4999 [] [.none])) (fun t => t.eng.tmo == 5000 && t.eng.outcome == .timeout) = true ∧
    nextIs (step (polling 0x44#8 4998 [] [.none])) (fun t => t.eng.tmo == 4999 && t.eng.state == .poll) = true ∧
    nextIs (step (polling 0x44#8 4999 [0x44#8, 0xBB#8] [.byte 0xC0#8])) (fun t =>
      t.eng.tmo == 4999 && t.eng.outcome == .success) = true := by decide

/-- 2.5: an unknown tag and a one-byte frame are ignored and refresh the counter. -/
theorem test_step_unknown_tags :
    nextIs (step (polling 0x44#8 9 [0x00#8, 0xFF#8] [.byte 0xC0#8])) (fun t => t.eng.tmo == 0 && t.dec == Decoder.clear) =
      true ∧
    nextIs (step (polling 0x44#8 9 [0xFF#8] [.byte 0xC0#8])) (fun t => t.eng.tmo == 0 && t.dec == Decoder.clear) = true := by
  decide

/-- 2.7: a raw frame of 256 bytes is offered as 255 bytes, then one. -/
theorem test_step_first_write :
    nextIs (step { stateAt .send1 .none .pgWait with
        enc := encodeFrame .default 0x02#8 ([0x00#8, 0x00#8] ++ List.replicate 250 0x11#8)
        ports := { State.reset.ports with txScript := [.count 255] } }) (fun t =>
      t.eng.state == .gap && t.ports.wireOut.map List.length == [255]) = true := by decide +kernel

theorem test_step_second_write :
    nextIs (step { stateAt .send2 .none .pgWait with
        enc := encodeFrame .default 0x02#8 ([0x00#8, 0x00#8] ++ List.replicate 250 0x11#8)
        ports := { State.reset.ports with txScript := [.count 1] } }) (fun t =>
      t.eng.state == .poll && t.ports.wireOut == [[0xC0#8]]) = true := by decide +kernel

/-- 2.8: the row of three bytes verified against `01 02 04`. -/
theorem test_step_verify_mismatch :
    nextIs (step { stateAt .idle .none .vfRun with
        memImage := ⟨some 0xFF#8, [(0, 0x01#8), (1, 0x02#8), (2, 0x03#8)]⟩
        seq := { State.reset.seq with state := .vfRun, refLen := 3 }
        ports := { State.reset.ports with reference := [(0, 0x01#8), (1, 0x02#8), (2, 0x04#8)] } }) (fun t =>
      t.ports.reports == [⟨.verificationMismatch, .address 2⟩] && t.seq.status == .fail &&
      t.seq.err == .verificationMismatch && errCode t.seq.err == 4#4) = true := by decide

/-- 10_state.md R37, 70_reset_and_hazards.md R376: before a read-all has ended `S_OK`, a byte an absorbed READ frame wrote cannot
be dumped, and a verify is refused. -/
theorem test_step_nothing_read_before_a_read_all :
    step { calling [.dump 0] with memImage := ⟨none, [(0, 0x55#8)]⟩ } matches .fault (.imageByteUnspecified 0) ∧
    step (calling [.start ⟨.verify, false, none, some ⟨1, []⟩⟩]) matches .refused .noReadAllSinceReset := by decide

/-- 2.8: a chunk of 256 x `FF` is skipped, and sent when forced. -/
theorem test_step_program_skip :
    nextIs (step { stateAt .idle .none .pgNext with
        seq := { State.reset.seq with state := .pgNext, srcLen := 256 } }) (fun t =>
      t.seq.addr == 256 && t.seq.state == .pgNext) = true ∧
    nextIs (step { stateAt .idle .none .pgNext with
        seq := { State.reset.seq with state := .pgNext, srcLen := 256, forceFill := true } }) (fun t =>
      t.seq.addr == 0 && t.seq.state == .pgWait) = true := by decide +kernel

/-- 00_scope.md R8: the parameters are arguments of the run. With `TMO_ITER` 3 the third silent poll ends the wait; with
`PAGE_SIZE` 2 a READ frame of six bytes (R113) is long enough and writes two bytes at page 5, addresses 10 and 11 (log entry 24);
with `FEND` 0x7E and `CS_TARGET` 0 a frame starts with 0x7E, 0xC0 needs no escape, and the checksum of 0x9F is 0x61. -/
theorem test_step_parameters :
    nextIs (step { polling 0x44#8 2 [] [.none] with params := { Params.default with tmoIter := 3 } }) (fun t =>
      t.eng.tmo == 3 && t.eng.outcome == .timeout) = true ∧
    nextIs (exec .readRsp { framed 0x03#8 [0x03#8, 0x00#8, 0x05#8, 0xA1#8, 0xA2#8, 0xB4#8] with
        params := { Params.default with pageSize := 2 } }) (fun t =>
      t.memImage.read 10 == some 0xA1#8 && t.memImage.read 11 == some 0xA2#8 && t.memImage.read 12 == none &&
      t.eng.outcome == .success) = true ∧
    rawFrame { Params.default with fend := 0x7E#8, csTarget := 0x00#8 } 0x9F#8 [] = [0x7E#8, 0x9F#8, 0x61#8, 0x7E#8] ∧
    esc { Params.default with fend := 0x7E#8 } 0xC0#8 = [0xC0#8] := by decide

/-- 70_reset_and_hazards.md R376: an identify needs only the Transport and starts whatever is bound. -/
theorem test_step_identify_with_any_image :
    nextIs (step (calling [.start ⟨.identify, false, some ⟨2097153, []⟩, none⟩])) (fun t => t.seq.state == .idWait) = true ∧
    step (calling [.start ⟨.program, false, some ⟨2097153, []⟩, none⟩]) matches .refused (.imageTooLarge 2097153) := by
  decide

/-- A table word placed by `withFetchWord` is run by the next step: a command, and a wire byte. -/
theorem test_step_withFetchWord :
    nextIs (step (State.reset.withFetchWord 8 0x9F)) (fun t => t.enc.buf == [0xC0#8, 0x9F#8, 0x60#8, 0xC0#8]) = true ∧
    nextIs (step (State.reset.withFetchWord 8 0x55)) (fun t => t.dec == stored [0x55#8] false) = true := by decide

/-! ### Witnesses: inputs that meet the hypotheses of the obligations -/

theorem witness_DecodeUndoesEncode :
    FramingInv .default ∧ (Instr.program (List.replicate 258 0xC0#8) 0x44#8).wf .default = true ∧ (Instr.ordinary 0xDE#8).wf .default = true ∧
    Instr.emptyRsp.wf .default = true :=
  ⟨framingInv_default, by decide +kernel, by decide, rfl⟩

theorem witness_DecodedInstructionsAreWellFormedAndEncodeBack :
    decode .default (.call 0x45#8 [0x01#8] 0x00#8) = .ok (.empty [0x01#8] 0x00#8) ∧
    decode .default (.wire 0xDD#8) = .ok .tfesc ∧
    decode .default (.frame [0x45#8, 0x00#8]) = .ok .emptyRsp := ⟨rfl, rfl, rfl⟩

theorem witness_RawFrameLength : (List.replicate 258 0xDB#8).length ≤ Params.default.payloadMax := by decide +kernel

theorem witness_EscapeSymmetry : FramingInv .default := framingInv_default

theorem witness_EncodedFrameRoundTrip :
    FramingInv State.reset.params ∧ (List.replicate 510 0xDB#8).length + 2 ≤ State.reset.params.rxCap ∧
    State.reset.dec = { buf := [], sum := 0#8, esc := false, ready := false } :=
  ⟨framingInv_default, by decide +kernel, rfl⟩

/-- Garbage `44 BA` with an open escape. -/
theorem witness_ResynchronisesAtTheNextDelimiter :
    FramingInv State.reset.params ∧ [0x00#8, 0x21#8].length + 2 ≤ State.reset.params.rxCap ∧
    ∃ t, feedRaw [0x44#8, 0xBA#8, 0xDB#8] State.reset = .next t ∧ t.dec.ready = false ∧ t.dec.sum ≠ 0xFF#8 :=
  ⟨framingInv_default, by decide, _, rfl, by decide, by decide⟩

/-- The second byte of the escape pair of `READ 0x003C00`, bit 7. -/
theorem witness_FlippedChecksumBitIsRejected :
    (State.reset.params.fend, State.reset.params.fesc, State.reset.params.tfend, State.reset.params.tfesc,
      State.reset.params.csTarget) = (0xC0#8, 0xDB#8, 0xDC#8, 0xDD#8, 0xFF#8) ∧
    [0x00#8, 0x3C#8].length + 2 ≤ State.reset.params.rxCap ∧ 7 < 8 ∧
    1 < (esc .default (checksum .default (opcodeByte .read) [0x00#8, 0x3C#8])).length ∧
    State.reset.dec = { buf := [], sum := 0#8, esc := false, ready := false } := by decide

/-- Both sides of the sum test. -/
theorem witness_DelimiterSignalsOrResets :
    (withDecoder (stored [0x44#8, 0xBB#8] true)).dec.ready = false ∧
    (withDecoder (stored [0x44#8, 0xBB#8] true)).dec.sum = 0xFF#8 ∧
    (withDecoder (stored [0x44#8] false)).dec.ready = false ∧ (withDecoder (stored [0x44#8] false)).dec.sum ≠ 0xFF#8 := by
  decide

theorem witness_EscapeByteSetsTheFlagOnly : (withDecoder (stored [0x44#8] false)).dec.ready = false := rfl

/-- A full buffer and one with room for one byte. -/
theorem witness_TransposedBytesStoreByTheFlag :
    (withDecoder (stored (List.replicate 512 0x01#8) true)).dec.ready = false ∧
    State.reset.params.rxCap ≤ (withDecoder (stored (List.replicate 512 0x01#8) true)).dec.buf.length ∧
    (withDecoder (stored (List.replicate 511 0x01#8) true)).dec.buf.length < State.reset.params.rxCap := by decide +kernel

theorem witness_OrdinaryByteIsStoredAndSummed :
    0xDE#8 ≠ 0xC0#8 ∧ 0xDE#8 ≠ 0xDB#8 ∧ 0xDE#8 ≠ 0xDC#8 ∧ 0xDE#8 ≠ 0xDD#8 ∧
    (withDecoder (stored (List.replicate 512 0x01#8) true)).dec.ready = false := by decide +kernel

theorem witness_DecodeStepIsTotalAndLocalToTheDecoder : State.reset.dec.ready = false := rfl

theorem witness_DecodeStepKeepsTheDecoderInvariant :
    State.reset.params.csTarget ≠ 0#8 ∧ DecoderInv .default (stored [0x44#8, 0xBB#8] false) ∧
    ∃ t, runCode (.wire 0xC0#8) (withDecoder (stored [0x44#8, 0xBB#8] false)) = .next t :=
  ⟨by decide, ⟨rfl, by decide, by decide, by decide⟩, _, rfl⟩

/-- The longest payload, without and with a transport failure behind it. -/
theorem witness_CommandsStartAnExecute :
    (List.replicate 258 0xC0#8).length ≤ State.reset.params.payloadMax ∧ State.reset.eng.state = .idle ∧
    State.reset.flags.transport = false ∧
    (setErrTransport State.reset).eng.state = .idle ∧ (setErrTransport State.reset).flags.transport = true := by
  decide +kernel

theorem witness_CommandsRefusedWhenBusyOrTooLong :
    (stateAt .done .success .idle).eng.state ≠ .idle ∧ State.reset.eng.state = .idle ∧
    State.reset.flags.transport = false ∧ State.reset.params.payloadMax < (List.replicate 259 0#8).length := by decide +kernel

theorem witness_CommandsWithoutOperandsPutTheirFrame :
    State.reset.eng.state = .idle ∧ State.reset.flags.transport = false := by decide

/-- The last sector, and the least and greatest data. -/
theorem witness_AddressedCommandsCarryHighAndMidByte :
    0x1F0000 < 2097152 ∧ 0x1F0000 % 256 = 0 ∧ 0x1F0000 % 65536 = 0 ∧ 1 ≤ [0x00#8].length ∧
    [0x00#8].length ≤ State.reset.params.dataMax ∧ pageA5.length ≤ State.reset.params.dataMax ∧
    State.reset.eng.state = .idle ∧
    State.reset.flags.transport = false := by decide +kernel

theorem witness_UnhandledTagsAreIgnored : (framed 0x44#8 [0xAB#8, 0x54#8]).dec.ready = true := rfl

/-- Five bytes, four bytes, and another expected response. -/
theorem witness_ReadIdResponseLatchesTheIdentification :
    (framed 0x9F#8 [0x9F#8, 0xEF#8, 0x40#8, 0x15#8, 0x1C#8]).dec.ready = true ∧
    (framed 0x9F#8 [0x9F#8, 0xEF#8, 0x40#8, 0x15#8, 0x1C#8]).eng.expected = 0x9F#8 ∧
    5 ≤ (framed 0x9F#8 [0x9F#8, 0xEF#8, 0x40#8, 0x15#8, 0x1C#8]).dec.buf.length ∧
    (framed 0x9F#8 [0x9F#8, 0xEF#8, 0x40#8, 0x31#8]).dec.buf.length < 5 ∧
    (framed 0x44#8 [0x9F#8, 0xEF#8, 0x40#8, 0x15#8, 0x1C#8]).eng.expected ≠ 0x9F#8 := by decide

/-- The last page, in a frame of exactly 260 bytes. -/
theorem witness_ReadResponseWritesThePageItNames :
    let s := framed 0x44#8 ([0x03#8, 0x1F#8, 0xFF#8] ++ pageA5 ++ [0xF7#8])
    s.memImage.wf ∧ s.pageDirty.wf ∧ s.dec.ready = true ∧ s.params.readMin ≤ s.dec.buf.length ∧
    8191 = (s.dec.buf.getD 1 0#8).toNat * 256 + (s.dec.buf.getD 2 0#8).toNat ∧ 8191 < s.params.pageCount :=
  ⟨blank_wf, blank_wf, by decide +kernel, by decide +kernel, by decide +kernel, by decide⟩

theorem witness_EmptyResponseClearsThePageItNames :
    let s := framed 0x03#8 [0x45#8, 0x1F#8, 0xFF#8, 0x9C#8]
    s.pageDirty.wf ∧ s.dec.ready = true ∧ 4 ≤ s.dec.buf.length ∧
    8191 = (s.dec.buf.getD 1 0#8).toNat * 256 + (s.dec.buf.getD 2 0#8).toNat ∧ 8191 < s.params.pageCount :=
  ⟨blank_wf, by decide, by decide, by decide, by decide⟩

theorem witness_ReadyResponseSucceedsWhenExpected : (framed 0xC7#8 [0x44#8, 0xC7#8, 0xF4#8]).dec.ready = true := rfl

/-- One byte too short; exactly long enough with page 8192. -/
theorem witness_ShortAndOutOfRangePagesSetTheFaultFlags :
    (framed 0x03#8 [0x45#8, 0x00#8, 0xBA#8]).dec.ready = true ∧ (framed 0x03#8 [0x45#8, 0x00#8, 0xBA#8]).dec.buf.length < 4 ∧
    (framed 0x03#8 [0x45#8, 0x20#8, 0x00#8, 0x9A#8]).dec.ready = true ∧
    4 ≤ (framed 0x03#8 [0x45#8, 0x20#8, 0x00#8, 0x9A#8]).dec.buf.length ∧
    State.reset.params.pageCount ≤ (0x20#8).toNat * 256 + (0x00#8).toNat ∧
    (framed 0x03#8 (readFrame5.take 259)).dec.buf.length < State.reset.params.readMin ∧
    State.reset.params.readMin ≤ (framed 0x03#8 readFrame5).dec.buf.length := by
  decide +kernel

theorem witness_ResponsesAndWireBytesAreRefusedOutOfTurn :
    State.reset.dec.ready = false ∧ (framed 0x44#8 [0x44#8, 0xBB#8]).dec.ready = true ∧
    0xDC#8 ∈ [0xC0#8, 0xDB#8, 0xDC#8, 0xDD#8] := by decide

theorem witness_PageTrackerClearsOnePageAndCounts : ptInit.wf ∧ 8191 < 8192 := ⟨ptInit_wf, by decide⟩

/-- No move, `pass`, `await` while the core works, `await` at rest. -/
theorem witness_StepTakesTheCallersMoveOrTheCoreStep :
    State.reset.ports.moves = [] ∧ (calling [.pass]).ports.moves = .pass :: [] ∧
    (setMoves [.await] (stateAt .idle .none .vfRun)).ports.moves = .await :: [] ∧
    coreResting (setMoves [.await] (stateAt .idle .none .vfRun)) = false ∧
    (calling [.await]).ports.moves = .await :: [] ∧ coreResting (calling [.await]) = true := by decide

theorem witness_StepRunsTheDecodedCall :
    ((calling [.execute 0x06#8 [] 0x44#8]).ports.moves = .execute 0x06#8 [] 0x44#8 :: [] ∧
      (calling [.execute 0x06#8 [] 0x44#8]).seq.state = .idle ∧ (calling [.execute 0x06#8 [] 0x44#8]).eng.state = .idle ∧
      decode .default (.call 0x06#8 [] 0x44#8) = .ok (.writeEnable [] 0x44#8)) ∧
    (stateAt .idle .none .beWait).ports.moves = [] ∧ (stateAt .idle .none .beWait).eng.state = .idle ∧
    (stateAt .idle .none .beWait).seq.state = .beWait :=
  ⟨⟨rfl, rfl, rfl, rfl⟩, rfl, rfl, rfl⟩

theorem witness_StepRunsTheDecodedByteAndFrame :
    ((polling 0x44#8 0 [] [.byte 0xDB#8]).ports.moves = [] ∧ (polling 0x44#8 0 [] [.byte 0xDB#8]).eng.state = .poll ∧
      (polling 0x44#8 0 [] [.byte 0xDB#8]).ports.rxScript = .byte 0xDB#8 :: [] ∧ decode .default (.wire 0xDB#8) = .ok .fesc) ∧
    ((framed 0x44#8 [0x44#8, 0xBB#8]).dec.ready = true ∧
      decode .default (.frame (framed 0x44#8 [0x44#8, 0xBB#8]).dec.buf) = .ok .readyRsp) ∧
    ((framed 0x44#8 [0xFF#8]).dec.ready = true ∧
      decode .default (.frame (framed 0x44#8 [0xFF#8]).dec.buf) = .error (.tagNotAnOpcode 0xFF#8)) ∧
    (polling 0x44#8 0 [] []).dec.ready = false :=
  ⟨⟨rfl, rfl, rfl, rfl⟩, ⟨rfl, rfl⟩, ⟨rfl, rfl⟩, rfl⟩

/-- A frame of 255 bytes and one of 256, the full count and a short one. -/
theorem witness_WritesOfferTheFrameInOneOrTwoParts :
    let s := { stateAt .send1 .none .pgWait with
      enc := encodeFrame .default 0x02#8 ([0x00#8, 0x00#8] ++ List.replicate 249 0x11#8)
      ports := { State.reset.ports with txScript := [.count 255] } }
    let t := { stateAt .send2 .none .pgWait with
      enc := encodeFrame .default 0x02#8 ([0x00#8, 0x00#8] ++ List.replicate 250 0x11#8)
      ports := { State.reset.ports with txScript := [.count 0] } }
    s.eng.state = .send1 ∧ s.ports.txScript = .count 255 :: [] ∧ s.enc.buf.length = 255 ∧
    (stateAt .gap .none .pgWait).eng.state = .gap ∧
    t.eng.state = .send2 ∧ t.ports.txScript = .count 0 :: [] ∧ t.enc.buf.length = 256 := by decide +kernel

theorem witness_PollFailureEndsTheExecute :
    (polling 0x44#8 0 [] [.fail]).eng.state = .poll ∧ (polling 0x44#8 0 [] [.fail]).ports.rxScript = .fail :: [] :=
  ⟨rfl, rfl⟩

/-- The last poll of a wait, and one before it. -/
theorem witness_SilentPollsCountToTimeout :
    (polling 0x44#8 4999 [0x44#8] [.none]).ports.moves = [] ∧ (polling 0x44#8 4999 [0x44#8] [.none]).eng.state = .poll ∧
    (polling 0x44#8 4999 [0x44#8] [.none]).dec.ready = false ∧ 1 ≤ 1 ∧
    (polling 0x44#8 4999 [0x44#8] [.none]).eng.tmo + 1 ≤ State.reset.params.tmoIter ∧
    (polling 0x44#8 4998 [0x44#8] [.none]).eng.tmo + 1 ≤ State.reset.params.tmoIter ∧
    (polling 0x44#8 4999 [0x44#8] [.none]).ports.rxScript = List.replicate 1 .none ++ [] := by decide

/-- An ordinary byte on a buffer that sums to `0xFF`, and a delimiter on one that does not. -/
theorem witness_BytesAloneDoNotRefreshTheTimeout :
    (polling 0x44#8 4999 [0xFF#8] [.byte 0x55#8]).eng.state = .poll ∧
    (polling 0x44#8 4999 [0xFF#8] [.byte 0x55#8]).dec.ready = false ∧
    (polling 0x44#8 4999 [0xFF#8] [.byte 0x55#8]).ports.rxScript = .byte 0x55#8 :: [] ∧ 0x55#8 ≠ 0xC0#8 ∧
    (polling 0x44#8 4999 [0x44#8] [.byte 0xC0#8]).dec.sum ≠ 0xFF#8 := by decide

/-- In the 5000th iteration: a qualifying frame, a faulty one (too short), one named out of range, one that is absorbed. -/
theorem witness_CompletedFrameEndsTheWaitExactlyWhenItQualifies :
    1 ≤ State.reset.params.tmoIter ∧
    let s := polling 0xC7#8 4999 [0x44#8, 0xC7#8, 0xF4#8] [.byte 0xC0#8]
    let t := polling 0x03#8 4999 [0x45#8, 0x00#8, 0xBA#8] [.byte 0xC0#8]
    (s.eng.state = .poll ∧ s.eng.outcome = .none ∧ s.dec.ready = false ∧ s.dec.sum = 0xFF#8 ∧
      s.dec.buf = 0x44#8 :: [0xC7#8, 0xF4#8] ∧ s.ports.rxScript = .byte 0xC0#8 :: []) ∧
    t.eng.state = .poll ∧ t.eng.outcome = .none ∧ t.dec.ready = false ∧ t.dec.sum = 0xFF#8 ∧
    t.dec.buf = 0x45#8 :: [0x00#8, 0xBA#8] ∧ t.ports.rxScript = .byte 0xC0#8 :: [] ∧
    (let u := polling 0x03#8 4999 [0x45#8, 0x20#8, 0x00#8, 0x9A#8] [.byte 0xC0#8]
     u.dec.sum = 0xFF#8 ∧ u.dec.buf = 0x45#8 :: [0x20#8, 0x00#8, 0x9A#8] ∧
       State.reset.params.pageCount ≤ (0x20#8).toNat * 256 + (0x00#8).toNat) ∧
    let v := polling 0x44#8 4999 [0x45#8, 0x00#8, 0x01#8, 0xB9#8] [.byte 0xC0#8]
    v.dec.sum = 0xFF#8 ∧ v.dec.buf = 0x45#8 :: [0x00#8, 0x01#8, 0xB9#8] ∧ v.eng.expected ≠ 0x03#8 := by decide

theorem witness_TransportFailureEndsTheOperation :
    (stateAt .done .transportFailure .raWait).seq.state ∈
      [OpState.idWait, .beWait, .seWait, .pgWait, .raStartWait, .raWait] ∧
    (stateAt .done .transportFailure .raWait).eng.state = .done ∧
    (stateAt .done .transportFailure .raWait).eng.outcome = .transportFailure := by decide

theorem witness_IdentifyAndBulkEraseEndOnTheirOneOutcome :
    (stateAt .done .success .idWait).eng.state = .done ∧ (stateAt .done .success .idWait).seq.state = .idWait ∧
    (stateAt .done .success .idWait).eng.outcome = .success ∧ (stateAt .done .timeout .idWait).eng.outcome = .timeout ∧
    (stateAt .done .success .beWait).seq.state = .beWait ∧ (stateAt .done .timeout .beWait).eng.outcome = .timeout := by
  decide

theorem witness_SilentBulkEraseReportsNoAnswerAndEnds :
    let s : State := { State.reset with ports := { State.reset.ports with
      moves := [.start ⟨.bulkErase, false, none, none⟩]
      txScript := [.count 4]
      rxScript := List.replicate State.reset.params.tmoIter .none } }
    s.seq.state = .idle ∧ s.eng.state = .idle ∧ s.flags.transport = false ∧ s.dec.ready = false ∧
    s.ports.moves = [.start ⟨.bulkErase, false, none, none⟩] ∧ (rawFrame s.params 0xC7#8 []).length ≤ s.params.txChunk ∧ 1 ≤ s.params.tmoIter ∧
    s.ports.txScript = .count (rawFrame s.params 0xC7#8 []).length :: [] ∧
    s.ports.rxScript = List.replicate s.params.tmoIter .none ++ [] :=
  ⟨rfl, rfl, rfl, rfl, rfl, by decide, by decide, rfl, (List.append_nil _).symm⟩

/-- A sector below the size, the size itself, and the two outcomes. -/
theorem witness_SectorEraseLoopStepsFromSectorToSector :
    let s : State := { State.reset with seq := { State.reset.seq with state := .seNext, srcLen := 1 } }
    (s.eng.state = .idle ∧ s.seq.state = .seNext ∧ s.seq.addr < s.seq.srcLen) ∧
    ((stateAt .idle .none .seNext).seq.state = .seNext ∧
      ¬(stateAt .idle .none .seNext).seq.addr < (stateAt .idle .none .seNext).seq.srcLen) ∧
    (stateAt .done .success .seWait).eng.state = .done ∧ (stateAt .done .success .seWait).seq.state = .seWait ∧
    (stateAt .done .success .seWait).eng.outcome = .success ∧ (stateAt .done .timeout .seWait).eng.outcome = .timeout := by
  decide

theorem witness_ProgramSkipsFillChunksUnlessForced :
    (stateAt .idle .none .pgNext).eng.state = .idle ∧ (stateAt .idle .none .pgNext).seq.state = .pgNext := by decide

/-- No bound, a bound of three not reached, a bound of one reached. -/
theorem witness_ProgramRetriesTheIdenticalSend :
    let bounded (k : Nat) : State := { stateAt .done .timeout .pgWait with
      params := { State.reset.params with progRetryMax := some k } }
    ((stateAt .done .success .pgWait).eng.state = .done ∧ (stateAt .done .success .pgWait).seq.state = .pgWait ∧
      (stateAt .done .success .pgWait).eng.outcome = .success) ∧
    ((stateAt .done .timeout .pgWait).eng.outcome = .timeout ∧
      ∀ k, (stateAt .done .timeout .pgWait).params.progRetryMax = some k → 0 + 1 < k) ∧
    (∀ k, (bounded 3).params.progRetryMax = some k → (bounded 3).seq.tries + 1 < k) ∧
    (bounded 1).eng.outcome = .timeout ∧ (bounded 1).params.progRetryMax = some 1 ∧ 1 ≤ (bounded 1).seq.tries + 1 :=
  ⟨⟨rfl, rfl, rfl⟩, ⟨rfl, nofun⟩, fun k h => by cases h; decide, rfl, rfl, by decide⟩

theorem witness_ReadAllInitialisesBeforeItsCommand :
    (stateAt .idle .none .raInit).eng.state = .idle ∧ (stateAt .idle .none .raInit).seq.state = .raInit ∧
    (stateAt .done .success .raStartWait).eng.state = .done ∧
    (stateAt .done .success .raStartWait).seq.state = .raStartWait ∧
    (stateAt .done .success .raStartWait).eng.outcome = .success ∧
    (stateAt .done .timeout .raStartWait).eng.outcome = .timeout ∧ (stateAt .idle .none .raPass).seq.state = .raPass := by
  decide

/-- The last page, clean and dirty, with 25 failures and with 26. -/
theorem witness_ScanTestsThresholdBeforeReadingADirtyPage :
    let scan (n : Nat) (d : Memory Bool) : State := { State.reset with
      pageDirty := d, seq := { State.reset.seq with state := .raScan, page := 8191, failCount := n } }
    ((scan 25 ptInit).eng.state = .idle ∧ (scan 25 ptInit).seq.state = .raScan ∧
      (scan 25 ptInit).seq.page < State.reset.params.pageCount) ∧
    ptTest (scan 25 (ptClear ptInit 8191)).pageDirty 8191 = some false ∧
    (ptTest (scan 25 ptInit).pageDirty 8191 = some true ∧ (scan 25 ptInit).seq.failCount ≤ State.reset.params.failMax) ∧
    ptTest (scan 26 ptInit).pageDirty 8191 = some true ∧
    State.reset.params.failMax < (scan 26 ptInit).seq.failCount := by decide +kernel

theorem witness_ExplicitReadAndEndOfPass :
    ((stateAt .done .success .raWait).eng.state = .done ∧ (stateAt .done .success .raWait).seq.state = .raWait ∧
      (stateAt .done .success .raWait).eng.outcome = .success ∧ (stateAt .done .timeout .raWait).eng.outcome = .timeout) ∧
    let s : State := { State.reset with seq := { State.reset.seq with state := .raScan, page := 8192 } }
    s.eng.state = .idle ∧ s.seq.state = .raScan ∧ s.params.pageCount ≤ s.seq.page := by decide

/-- An image of one byte, equal and different. -/
theorem witness_VerifyStopsAtTheFirstDifference :
    let s : State := { State.reset with
      memImage := Memory.filled 0xFF#8, seq := { State.reset.seq with state := .vfRun, refLen := 1, readAllOk := true } }
    let t : State := { s with ports := { s.ports with reference := [(0, 0x00#8)] } }
    (s.eng.state = .idle ∧ s.seq.state = .vfRun ∧ s.seq.refLen ≤ s.params.imageSize ∧
      s.seq.readAllOk = true ∧ s.memImage.bg = some s.params.fill ∧
      ∀ a < s.seq.refLen, s.memImage.read a = some (imageByte s.ports.reference a)) ∧
    0 < t.seq.refLen ∧ (∀ b < 0, t.memImage.read b = some (imageByte t.ports.reference b)) ∧
    t.memImage.read 0 = some 0xFF#8 ∧ 0xFF#8 ≠ imageByte t.ports.reference 0 := by decide

/-- Arguments with a source of exactly 2 MiB; an identify with one a byte longer; a verify after a read-all; a start during an
operation; a start with an outcome not collected. -/
theorem witness_StartLatchesTheArgumentsOrIsRefused :
    let a : OpArgs := ⟨.program, true, some ⟨2097152, []⟩, none⟩
    let b : OpArgs := ⟨.identify, false, some ⟨2097153, []⟩, none⟩
    ((calling [.start a]).ports.moves = .start a :: [] ∧ (calling [.start a]).seq.state = .idle ∧
      (calling [.start a]).eng.state = .idle ∧
      (a.sel = .sectorErase ∨ a.sel = .program →
        ∃ i, a.source = some i ∧ i.len ≤ (calling [.start a]).params.imageSize) ∧ a.sel ≠ .verify) ∧
    (¬(b.sel = .sectorErase ∨ b.sel = .program) ∧ b.sel ≠ .verify) ∧
    (finishReadAll State.reset).seq.state = .done ∧ (finishReadAll State.reset).eng.state = .idle ∧
    (finishReadAll State.reset).seq.readAllOk = true ∧
    ¬((setMoves [.start a] (stateAt .idle .none .vfRun)).seq.state = .idle ∨
      (setMoves [.start a] (stateAt .idle .none .vfRun)).seq.state = .done) ∧
    (setMoves [.start a] (stateAt .done .success .done)).seq.state = .done ∧
    (setMoves [.start a] (stateAt .done .success .done)).eng.state ≠ .idle :=
  ⟨⟨rfl, rfl, rfl, fun _ => ⟨_, rfl, by decide⟩, by decide⟩, by decide, rfl, rfl, rfl, by decide, rfl, by decide⟩

/-- No source, no reference, no read-all, a source and a reference of one byte too many. -/
theorem witness_StartIsRefusedWithoutItsRequirements :
    let a : OpArgs := ⟨.sectorErase, false, none, none⟩
    let b : OpArgs := ⟨.verify, false, none, none⟩
    let c : OpArgs := ⟨.program, false, some ⟨2097153, []⟩, none⟩
    let d : OpArgs := ⟨.verify, false, none, some ⟨2097153, []⟩⟩
    ((calling [.start a]).seq.state = .idle ∧ (calling [.start a]).eng.state = .idle ∧ a.source = none) ∧
    b.reference = none ∧ (calling [.start b]).seq.readAllOk = false ∧
    d.reference ≠ none ∧ (calling [.start d]).seq.readAllOk = false ∧
    c.source = some ⟨2097153, []⟩ ∧ d.reference = some ⟨2097153, []⟩ ∧ (finishReadAll State.reset).seq.readAllOk = true ∧
    State.reset.params.imageSize < 2097153 := by decide

theorem witness_HandMadeExecuteIsOneAtATime :
    let m := CallerMove.execute 0xC0#8 [] 0x44#8
    (setMoves [m] (stateAt .idle .none .seNext)).ports.moves = m :: [] ∧
    ¬((setMoves [m] (stateAt .idle .none .seNext)).seq.state = .idle ∨
      (setMoves [m] (stateAt .idle .none .seNext)).seq.state = .done) ∧
    ((setMoves [m] (stateAt .poll .none .idle)).seq.state = .idle ∧
      (setMoves [m] (stateAt .poll .none .idle)).eng.state ≠ .idle) ∧
    ((calling [m]).seq.state = .idle ∧ (calling [m]).eng.state = .idle ∧
      0xC0#8 ∉ [0x9F#8, 0xAB#8, 0xB9#8, 0x06#8, 0xC7#8, 0xD8#8, 0x02#8, 0x03#8, 0x44#8, 0x83#8, 0x45#8]) ∧
    (setMoves [.collect] (stateAt .done .success .idle)).ports.moves = .collect :: [] ∧
    (setMoves [.collect] (stateAt .done .success .idle)).seq.state = .idle ∧
    (setMoves [.collect] (stateAt .done .success .idle)).eng.state = .done ∧
    (setMoves [.collect] (stateAt .done .success .seWait)).ports.moves = .collect :: [] ∧
    ¬((setMoves [.collect] (stateAt .done .success .seWait)).seq.state = .idle ∨
      (setMoves [.collect] (stateAt .done .success .seWait)).seq.state = .done) := by decide

/-- During an operation, just outside the image, an image not filled, the last byte. -/
theorem witness_DumpPortReadsTheImageAtRest :
    let s : State := { calling [.dump 2097151] with memImage := Memory.filled 0xFF#8 }
    ¬((setMoves [.dump 0] (stateAt .idle .none .vfRun)).seq.state = .idle ∨
      (setMoves [.dump 0] (stateAt .idle .none .vfRun)).seq.state = .done) ∧
    ((calling [.dump 2097152]).ports.moves = .dump 2097152 :: [] ∧ (calling [.dump 2097152]).seq.state = .idle ∧
      State.reset.params.imageSize ≤ 2097152) ∧
    (calling [.dump 0]).memImage.bg = none ∧
    s.ports.moves = .dump 2097151 :: [] ∧ s.seq.state = .idle ∧ 2097151 < s.params.imageSize ∧
    s.memImage.bg = some s.params.fill ∧ s.memImage.read 2097151 = some 0xFF#8 := by decide

theorem witness_ResetGivesTheNamedValues : (calling [.reset, .pass]).ports.moves = .reset :: [.pass] := rfl

/-! A sound state in the middle of a read-all: every page of a scan resolved, no failure counted, the scan at its end. -/

/-- The pages below `n` clean, over the background "dirty". -/
def cleanBelow (n : Nat) : Memory Bool := ⟨some true, (List.range n).map (fun p => (p, false))⟩

theorem cleanBelow_read {n p : Nat} (h : p < n) : (cleanBelow n).read p = some false := by
  have key : ∀ l : List Nat, p ∈ l → cellAt p (l.map (fun q => (q, false))) = some false := by
    intro l hp
    induction l with
    | nil => cases hp
    | cons q l ih =>
      simp only [List.map_cons, cellAt]
      split
      · rfl
      · exact ih ((List.mem_cons.1 hp).resolve_left (Ne.symm ‹_›))
  rw [read_eq]
  unfold cleanBelow
  rw [key _ (List.mem_range.2 h)]
  rfl

theorem cleanBelow_wf (n : Nat) : (cleanBelow n).wf := by
  refine ⟨List.pairwise_map.2 List.pairwise_lt_range, fun c hc => ?_⟩
  obtain ⟨p, -, rfl⟩ := List.mem_map.1 hc
  simp [Memory.unlisted, cleanBelow]

theorem cleanBelow_in_range {n : Nat} : ∀ c ∈ (cleanBelow n).cells, c.1 < n := by
  intro c hc
  obtain ⟨p, hp, rfl⟩ := List.mem_map.1 hc
  exact List.mem_range.1 hp

/-- The scan at its end. -/
def scanEnd : State :=
  { State.reset with
    memImage := Memory.filled 0xFF#8
    pageDirty := cleanBelow 8192
    seq := { State.reset.seq with state := .raScan, sel := .readAll, page := 8192, status := .busy } }

theorem defaultParamsInv : ParamsInv .default where
  framing := framingInv_default
  txChunk_pos := by decide
  tmoIter_pos := by decide
  sector_pos := by decide
  page_sector := by decide
  sector_image := by decide

theorem scanEnd_sound : Sound scanEnd where
  params := defaultParamsInv
  decoder := ⟨rfl, by decide, nofun, nofun⟩
  not_ready := rfl
  engine := ⟨by decide, nofun, nofun, nofun, nofun, nofun, by decide, by decide, nofun, fun h => by rcases h with h | h <;> cases h⟩
  sequencer := {
    engine_waits := fun h => absurd rfl h
    src_le := by decide
    ref_le := by decide
    addr_le := by decide
    addr_page := rfl
    addr_sector := fun _ => rfl
    addr_wait := fun h => by rcases h with h | h <;> cases h
    page_le := by decide
    page_wait := nofun
    found_wait := nofun
    fails_le := by decide
    fails_wait := nofun
    scan_clean := fun _ _ _ hp => cleanBelow_read hp
    dump_filled := fun _ => rfl
    dump_marked := fun _ => rfl
    status_busy := fun _ => rfl
    status_rest := nofun
    err_none := fun _ => rfl
    err_fail := nofun
    verify_after_read_all := nofun
    read_all_filled := nofun }
  image := ⟨filled_wf _, nofun, .inr rfl⟩
  bitmap := ⟨cleanBelow_wf 8192, cleanBelow_in_range, .inr rfl⟩

/-- A core at rest that has absorbed one byte of a READ frame and filled no image; the caller starts a verify. -/
def neverFilled : State :=
  { calling [.start ⟨.verify, false, none, some ⟨1, []⟩⟩] with memImage := ⟨none, [(0x500, 0x55#8)]⟩ }

/-- A verify of one byte over the image of the finished scan. -/
def verifying : State :=
  { scanEnd with
    seq := { State.reset.seq with state := .vfRun, sel := .verify, refLen := 1, status := .busy, readAllOk := true } }

theorem neverFilled_sound : Sound neverFilled where
  params := defaultParamsInv
  decoder := decoderInv_clear _
  not_ready := rfl
  engine := ⟨by decide, nofun, nofun, nofun, nofun, nofun, by decide, by decide, nofun, fun h => by rcases h with h | h <;> cases h⟩
  sequencer := {
    engine_waits := fun h => absurd rfl h
    src_le := by decide
    ref_le := by decide
    addr_le := by decide
    addr_page := rfl
    addr_sector := fun _ => rfl
    addr_wait := fun h => by rcases h with h | h <;> cases h
    page_le := by decide
    page_wait := nofun
    found_wait := nofun
    fails_le := by decide
    fails_wait := nofun
    scan_clean := nofun
    dump_filled := nofun
    dump_marked := nofun
    status_busy := nofun
    status_rest := by decide
    err_none := fun _ => rfl
    err_fail := nofun
    verify_after_read_all := nofun
    read_all_filled := nofun }
  image := ⟨by decide, by decide, .inl rfl⟩
  bitmap := ⟨blank_wf, nofun, .inl rfl⟩

theorem verifying_sound : Sound verifying where
  params := defaultParamsInv
  decoder := decoderInv_clear _
  not_ready := rfl
  engine := ⟨by decide, nofun, nofun, nofun, nofun, nofun, by decide, by decide, nofun, fun h => by rcases h with h | h <;> cases h⟩
  sequencer := {
    engine_waits := fun h => absurd rfl h
    src_le := by decide
    ref_le := by decide
    addr_le := by decide
    addr_page := rfl
    addr_sector := fun _ => rfl
    addr_wait := fun h => by rcases h with h | h <;> cases h
    page_le := by decide
    page_wait := nofun
    found_wait := nofun
    fails_le := by decide
    fails_wait := nofun
    scan_clean := nofun
    dump_filled := nofun
    dump_marked := nofun
    status_busy := fun _ => rfl
    status_rest := nofun
    err_none := fun _ => rfl
    err_fail := nofun
    verify_after_read_all := fun _ => rfl
    read_all_filled := fun _ => rfl }
  image := scanEnd_sound.image
  bitmap := scanEnd_sound.bitmap

theorem witness_VerifyNeverReadsAnImageNeverFilled :
    (Sound neverFilled ∧ neverFilled.memImage.bg = none ∧
      neverFilled.ports.moves = .start ⟨.verify, false, none, some ⟨1, []⟩⟩ :: [] ∧ neverFilled.seq.state = .idle ∧
      neverFilled.eng.state = .idle) ∧
    Sound verifying ∧ verifying.seq.state = .vfRun :=
  ⟨⟨neverFilled_sound, rfl, rfl, rfl, rfl⟩, verifying_sound, rfl⟩

theorem scanEnd_step : coreStep scanEnd = .next (finishReadAll scanEnd) := by
  rw [coreStep_idle rfl]
  show readAllScan scanEnd = _
  unfold readAllScan
  rw [if_neg (by decide)]
  rfl

theorem witness_ReadAllEndsOkOnlyWithNoDirtyPage :
    Sound scanEnd ∧ scanEnd.seq.state = .raScan ∧ ∃ t, coreStep scanEnd = .next t ∧ t.seq.status = .ok :=
  ⟨scanEnd_sound, rfl, _, scanEnd_step, rfl⟩

theorem witness_StepKeepsTheStateSound : Sound scanEnd ∧ ∃ t, step scanEnd = .next t :=
  ⟨scanEnd_sound, _, (step_nil rfl).trans scanEnd_step⟩

theorem witness_NoTransportAnswerStopsTheCore :
    Sound scanEnd ∧ scanEnd.ports.moves = [] := ⟨scanEnd_sound, rfl⟩

/-- The delimiter of an EMPTY frame. -/
theorem witness_DirtyCountNeverRisesBetweenInits :
    (polling 0x03#8 0 [0x45#8, 0x00#8, 0x01#8, 0xB9#8] [.byte 0xC0#8]).pageDirty.wf ∧
    (polling 0x03#8 0 [0x45#8, 0x00#8, 0x01#8, 0xB9#8] [.byte 0xC0#8]).seq.state ≠ .raInit ∧
    ∃ t, step (polling 0x03#8 0 [0x45#8, 0x00#8, 0x01#8, 0xB9#8] [.byte 0xC0#8]) = .next t :=
  ⟨blank_wf, by decide, _, rfl⟩

/-- The fill of a read-all changes byte 0; a page-5 READ frame a poll completes changes byte 0x500. -/
theorem witness_OnlyReadFramesAndInitialisationWriteTheImage :
    ((stateAt .idle .none .raInit).memImage.wf ∧ (stateAt .idle .none .raInit).dec.ready = false ∧
      ∃ t, step (stateAt .idle .none .raInit) = .next t ∧
        t.memImage.read 0 ≠ (stateAt .idle .none .raInit).memImage.read 0) ∧
    (let s := polling 0x44#8 0 readFrame5 [.byte 0xC0#8]
     s.dec.ready = false ∧ nextIs (step s) (fun t => t.memImage.read 0x500 != s.memImage.read 0x500) = true) ∧
    (let s := { calling [.reset] with memImage := Memory.filled 0xFF#8 }
     s.memImage.wf ∧ s.dec.ready = false ∧ ∃ t, step s = .next t ∧ t.memImage.read 0 ≠ s.memImage.read 0) :=
  ⟨⟨blank_wf, rfl, _, rfl, by decide⟩, ⟨rfl, by decide +kernel⟩, filled_wf _, rfl, _, rfl, by decide⟩

/-- A flag set before a step. -/
theorem witness_FaultFlagsAreStickyUntilReset :
    (∀ rest, (setMalformed State.reset).ports.moves ≠ .reset :: rest) ∧
    (∃ t, step (setMalformed State.reset) = .next t) ∧ (setMalformed State.reset).flags.malformed = true :=
  ⟨nofun, ⟨_, rfl⟩, rfl⟩

theorem witness_ReportsAreAppendedAtMostOneAStep :
    (∀ rest, (stateAt .done .timeout .beWait).ports.moves ≠ .reset :: rest) ∧
    ∃ t, step (stateAt .done .timeout .beWait) = .next t :=
  ⟨nofun, _, rfl⟩

/-- A first write. -/
theorem witness_OnlyASendingEngineWritesToTheTransport :
    ∃ t, step { stateAt .send1 .none .beWait with ports := { State.reset.ports with txScript := [.count 4] } } = .next t :=
  ⟨_, rfl⟩

end Sys2Proof.Tests
end

