-- ==== Sys2Proof/Proofs/Checksum.lean ====
section
/-! PROOFS. Proofs/Checksum.lean: what the checksum field is, as a number and as the completion of a frame's sum
(30_encoding.md R104). -/

namespace Sys2Proof.Machine

/-- Why a delimiter accepts an encoded frame (40_codec.md R141): the subtraction and the addition of the running sum cancel. -/
theorem sum8_append_checksum (p : Params) (op : Byte) (payload : List Byte) :
    sum8 ((op :: payload) ++ [checksum p op payload]) = p.csTarget := by
  have last : sum8 [checksum p op payload] = p.csTarget - sum8 (op :: payload) := by simp [checksum]
  rw [sum8_append, last, BitVec.add_comm, BitVec.sub_add_cancel]

/-- Subtracting from `0xFF`, the greatest byte, never borrows, so the wrapping subtraction is that of the naturals. -/
theorem toNat_checksum_default (op : Byte) (payload : List Byte) :
    (checksum .default op payload).toNat = 255 - (op.toNat + (payload.map BitVec.toNat).sum) % 256 := by
  have noBorrow : sum8 (op :: payload) ≤ 0xFF#8 := BitVec.le_def.2 (Nat.le_of_lt_succ (sum8 (op :: payload)).isLt)
  calc (checksum .default op payload).toNat
      _ = 255 - (sum8 (op :: payload)).toNat := BitVec.toNat_sub_of_le noBorrow
      _ = 255 - (op.toNat + (payload.map BitVec.toNat).sum) % 256 := by
        rw [toNat_sum8, List.map_cons, List.sum_cons]

/-- Settles O4: the default `CS_TARGET` is `0xFF`, so the two equations for the checksum are the three clauses. -/
theorem checksumIsTargetMinusSum : Obligations.ChecksumIsTargetMinusSum := fun op payload =>
  ⟨toNat_checksum_default op payload, sum8_append_checksum .default op payload, fun p => sum8_append_checksum p op payload⟩

end Sys2Proof.Machine
end

