-- ==== Sys2Proof/Proofs/WireBytes.lean ====
section
/-! PROOFS. Proofs/WireBytes.lean: the delimiter and the escape byte, one `DEC_STEP` each (40_codec.md R141, R142). -/

namespace Sys2Proof.Machine

theorem decStepWith_next (f : Decoder → Decoder) {s : State} (h : s.dec.ready = false) :
    decStepWith f s = .next { s with dec := f s.dec } := by
  simp [decStepWith, h]

theorem exec_fend (s : State) : exec .fend s = decStepWith (decFend s.params) s := rfl

theorem exec_fesc (s : State) : exec .fesc s = decStepWith decFesc s := rfl

/-- The delimiter's Boolean test (40_codec.md R141) as a proposition. -/
theorem decFend_eq (p : Params) (d : Decoder) :
    decFend p d = if d.sum = p.csTarget then { d with ready := true } else Decoder.clear := by
  simp [decFend, sumIsTarget, decReset]

/-- Settles O10: what the delimiter does to the decoder, run with no frame ready. -/
theorem delimiterSignalsOrResets : Obligations.DelimiterSignalsOrResets := by
  refine ⟨rfl, fun s hr => ?_⟩
  rw [exec_fend, decStepWith_next _ hr, decFend_eq]
  rfl

/-- Settles O11: FESC is `decFesc` on the decoder, which is the update of the flag. -/
theorem escapeByteSetsTheFlagOnly : Obligations.EscapeByteSetsTheFlagOnly := fun s hr => by
  rw [exec_fesc, decStepWith_next _ hr, decFesc]

end Sys2Proof.Machine
end

