-- ==== Sys2Proof/Proofs/RawFrame.lean ====
section
/-! PROOFS. Proofs/RawFrame.lean: a raw frame is the escaped frame between two delimiters. What escaping puts on the wire
(40_codec.md R135), and what the decoder makes of it (R150). -/

namespace Sys2Proof.Machine

/-! ### What escaping puts on the wire -/

/-- The three forms of one escaped byte (40_codec.md R130). -/
theorem esc_cases (p : Params) (b : Byte) :
    esc p b = [p.fesc, p.tfend] ∨ esc p b = [p.fesc, p.tfesc] ∨ (b ≠ p.fend ∧ b ≠ p.fesc ∧ esc p b = [b]) := by
  by_cases hend : b = p.fend
  · exact .inl (if_pos hend)
  by_cases hesc : b = p.fesc
  · exact .inr (.inl ((if_neg hend).trans (if_pos hesc)))
  · exact .inr (.inr ⟨hend, hesc, (if_neg hend).trans (if_neg hesc)⟩)

/-- An opcode, which `ENC` sends as it is, is its own escaped form. -/
theorem esc_opcodeByte {p : Params} (hp : FramingInv p) (op : Opcode) : esc p (opcodeByte op) = [opcodeByte op] := by
  obtain ⟨hend, hesc⟩ := hp.opcode op
  simp [esc, hend, hesc]

theorem rawFrame_eq_escAll {p : Params} (hp : FramingInv p) (op : Opcode) (payload : List Byte) :
    rawFrame p (opcodeByte op) payload =
      p.fend :: (escAll p (opcodeByte op :: (payload ++ [checksum p (opcodeByte op) payload])) ++ [p.fend]) := by
  simp [rawFrame, escAll_eq_flatMap, esc_opcodeByte hp]

theorem fend_not_mem_esc {p : Params} (hp : FramingInv p) (b : Byte) : p.fend ∉ esc p b := by
  obtain h | h | ⟨hend, -, h⟩ := esc_cases p b
  · simp [h, hp.fend_fesc, hp.fend_tfend]
  · simp [h, hp.fend_fesc, hp.fend_tfesc]
  · simp [h, hend.symm]

theorem fend_not_mem_escAll {p : Params} (hp : FramingInv p) (bytes : List Byte) : p.fend ∉ escAll p bytes := by
  simp [escAll_eq_flatMap, fend_not_mem_esc hp]

/-- Every escape byte of a raw sequence is followed by a transposed byte (40_codec.md R135). -/
def EscapesPaired (p : Params) (raw : List Byte) : Prop :=
  ∀ i, raw[i]? = some p.fesc → raw[i + 1]? = some p.tfend ∨ raw[i + 1]? = some p.tfesc

theorem escapesPaired_cons {p : Params} {b : Byte} {raw : List Byte}
    (head : b = p.fesc → raw[0]? = some p.tfend ∨ raw[0]? = some p.tfesc) (tail : EscapesPaired p raw) :
    EscapesPaired p (b :: raw) := by
  intro i hi
  cases i with
  | zero => simpa using head (by simpa using hi)
  | succ i => simpa using tail i (by simpa using hi)

/-- No transposed byte is itself an escape byte, and a byte that stands alone is none either. -/
theorem escapesPaired_esc_append {p : Params} (hp : FramingInv p) (b : Byte) {raw : List Byte} (h : EscapesPaired p raw) :
    EscapesPaired p (esc p b ++ raw) := by
  obtain e | e | ⟨-, hesc, e⟩ := esc_cases p b <;> rw [e]
  · exact escapesPaired_cons (fun _ => .inl rfl) (escapesPaired_cons (absurd · hp.fesc_tfend.symm) h)
  · exact escapesPaired_cons (fun _ => .inr rfl) (escapesPaired_cons (absurd · hp.fesc_tfesc.symm) h)
  · exact escapesPaired_cons (absurd · hesc) h

theorem escapesPaired_escAll {p : Params} (hp : FramingInv p) (bytes : List Byte) : EscapesPaired p (escAll p bytes) := by
  induction bytes with
  | nil => exact fun _ h => nomatch h
  | cons b bytes ih => exact escapesPaired_esc_append hp b ih

/-- Settles O6: between the delimiters stands the escaped frame, whose opcode is its own escaped form. -/
theorem escapeSymmetry : Obligations.EscapeSymmetry := by
  refine ⟨rfl, framingInv_default, fun p op payload hp => ?_⟩
  refine ⟨_, rawFrame_eq_escAll hp op payload, fend_not_mem_escAll hp _, escapesPaired_escAll hp _, ?_, esc_length p⟩
  rw [escAll, esc_opcodeByte hp, escAll_eq_flatMap, List.singleton_append]

/-! ### What the decoder makes of it -/

/-- The opening delimiter of a frame resets a decoder whose sum is off the target, whatever it holds (40_codec.md R141). -/
theorem feedRaw_fend_of_sum_ne {s : State} (hr : s.dec.ready = false) (hs : s.dec.sum ≠ s.params.csTarget)
    (raw : List Byte) : feedRaw (s.params.fend :: raw) s = feedRaw raw { s with dec := Decoder.clear } := by
  rw [feedRaw_cons hr, wireStep_fend, decFend_eq, if_neg hs]

/-- The closing delimiter of a frame whose sum is the target makes it ready (40_codec.md R141). -/
theorem feedRaw_fend_of_sum_eq {s : State} (hr : s.dec.ready = false) (hs : s.dec.sum = s.params.csTarget) :
    feedRaw [s.params.fend] s = .next { s with dec := { s.dec with ready := true } } := by
  rw [feedRaw_cons hr, feedRaw_nil, wireStep_fend, decFend_eq, if_pos hs]

/-- A whole raw frame that fits the buffer, fed to a decoder whose sum is off the target: the checksum brings the sum to it. -/
theorem feedRaw_rawFrame (op : Opcode) {payload : List Byte} {s : State} (hp : FramingInv s.params)
    (hc : payload.length + 2 ≤ s.params.rxCap) (hr : s.dec.ready = false) (hs : s.dec.sum ≠ s.params.csTarget) :
    feedRaw (rawFrame s.params (opcodeByte op) payload) s =
      .next { s with dec := {
        buf := opcodeByte op :: (payload ++ [checksum s.params (opcodeByte op) payload]),
        sum := s.params.csTarget, esc := false, ready := true } } := by
  have fits : Decoder.clear.cur + (opcodeByte op :: (payload ++ [checksum s.params (opcodeByte op) payload])).length ≤
      s.params.rxCap := by
    simp only [Decoder.cur, Decoder.clear, List.length_cons, List.length_append, List.length_nil]; omega
  have sum : Decoder.clear.sum + sum8 (opcodeByte op :: (payload ++ [checksum s.params (opcodeByte op) payload])) =
      s.params.csTarget :=
    (BitVec.zero_add _).trans (sum8_append_checksum s.params (opcodeByte op) payload)
  have stored := feedRaw_escAll (s := { s with dec := Decoder.clear }) hp rfl rfl fits
  rw [sum] at stored
  rw [rawFrame_eq_escAll hp, feedRaw_fend_of_sum_ne hr hs, feedRaw_append, stored]
  exact feedRaw_fend_of_sum_eq rfl rfl

/-- Settles O7: a freshly reset decoder has sum 0, which under the framing condition is not the target. -/
theorem encodedFrameRoundTrip : Obligations.EncodedFrameRoundTrip := by
  refine ⟨by decide, framingInv_default, fun op payload s hp hc hd => ?_⟩
  exact feedRaw_rawFrame op hp hc (by rw [hd]) (by rw [hd]; exact hp.target.symm)

end Sys2Proof.Machine
end

