-- ==== Sys2Proof/Proofs/UnhandledTags.lean ====
section
/-! PROOFS. Proofs/UnhandledTags.lean: the seven opcodes without a handler as response tags (41_commands.md R173 to R189,
42_engine.md R225). -/

namespace Sys2Proof.Machine

/-- Each of the seven tags has an arm of its own in `exec`, and each arm ends in IGNORE_OTHER (42_engine.md R225). -/
theorem exec_rsp_of_unhandled {i : Instr} (s : State)
    (h : i ∈ [Instr.powerUpRsp, .powerDownRsp, .writeEnableRsp, .bulkEraseRsp, .sectorEraseRsp, .programRsp, .readAllRsp]) :
    exec i s = onFrame ignoreOther s := by
  simp only [List.mem_cons, List.not_mem_nil, or_false] at h
  obtain rfl | rfl | rfl | rfl | rfl | rfl | rfl := h <;> rfl

/-- IGNORE_OTHER as one record update: only the decoder and the timeout counter are written. -/
theorem ignoreOther_eq (s : State) :
    ignoreOther s = { s with dec := Decoder.clear, eng := { s.eng with tmo := 0 } } := rfl

/-- Settles O20: all seven tags run IGNORE_OTHER on the ready frame, and `Decoder.clear` is the decoder after reset. -/
theorem unhandledTagsAreIgnored : Obligations.UnhandledTagsAreIgnored := fun i s hi hr => by
  rw [exec_rsp_of_unhandled s hi, onFrame_ready hr, ignoreOther_eq, Decoder.clear]

end Sys2Proof.Machine
end

