-- ==== Sys2Proof/Proofs/CommandStart.lean ====
section
/-! PROOFS. Proofs/CommandStart.lean: each of the eleven commands starts an EXECUTE of its opcode byte (30_encoding.md R116,
42_engine.md R211). -/

namespace Sys2Proof.Machine

/-- The two forms of the opcode map, the table and the function, agree (30_encoding.md R116). -/
theorem eq_opcodeByte_of_mem_opcodeTable : ∀ row ∈ opcodeTable, row.1 = opcodeByte row.2 := by decide

/-- Settles O16: the eleven pairs of the statement are the rows of the opcode table, each with the command of its opcode;
`latchOutcome` and `encodeFrame` are the updates the statement writes out. -/
theorem commandsStartAnExecute : Obligations.CommandsStartAnExecute := fun i b payload expected s hi hlen hidle => by
  have isRow : (i, b) ∈ opcodeTable.map fun row => (commandOf row.2 payload expected, row.1) := hi
  obtain ⟨row, hrow, pairEq⟩ := List.mem_map.1 isRow
  obtain ⟨rfl, rfl⟩ := Prod.mk.inj pairEq
  rw [exec_commandOf, ← eq_opcodeByte_of_mem_opcodeTable row hrow, executeStart_next hidle hlen, latchOutcome, encodeFrame]

end Sys2Proof.Machine
end

