-- ==== Sys2Proof/Proofs/ReadAllScan.lean ====
section
/-! PROOFS. Proofs/ReadAllScan.lean: one page of the scan of a read-all (44_flash_operations.md R304). -/

namespace Sys2Proof.Machine

theorem coreStep_raScan {s : State} (he : s.eng.state = .idle) (hl : s.seq.state = .raScan) :
    coreStep s = readAllScan s := by
  rw [coreStep_idle he, sequencerStep, hl]

theorem readAllScan_clean {s : State} (hp : s.seq.page < s.params.pageCount)
    (hd : ptTest s.pageDirty s.seq.page = some false) : readAllScan s = .next (nextPage s) := by
  rw [readAllScan, if_pos hp, hd]

theorem readAllScan_dirty {s : State} (hp : s.seq.page < s.params.pageCount)
    (hd : ptTest s.pageDirty s.seq.page = some true) :
    readAllScan s = .next (dirtyPage { s with seq := { s.seq with found := true } }) := by
  rw [readAllScan, if_pos hp, hd]

/-- From `RA_SCAN` the label is written with the value it has, so a clean page changes `op_page` only. -/
theorem nextPage_of_raScan {s : State} (hl : s.seq.state = .raScan) :
    nextPage s = { s with seq := { s.seq with page := s.seq.page + 1 } } := by
  rw [nextPage, ← hl]

theorem dirtyPage_of_le {s : State} (h : s.seq.failCount ≤ s.params.failMax) : dirtyPage s = goTo .raWait s :=
  if_neg (Nat.not_lt.2 h)

theorem dirtyPage_of_lt {s : State} (h : s.params.failMax < s.seq.failCount) :
    dirtyPage s = raiseOp .convergenceFailure (.page s.seq.page) s := if_pos h

/-- Settles O43: a clean page is `nextPage`; a dirty one sets `op_found`, which the threshold test does not read, and goes to
the READ or raises the convergence failure. -/
theorem scanTestsThresholdBeforeReadingADirtyPage : Obligations.ScanTestsThresholdBeforeReadingADirtyPage := by
  refine ⟨rfl, fun s he hl hp => ⟨fun hd => ?clean, fun hd hle => ?read, fun hd hlt => ?abort⟩⟩
  case clean => rw [coreStep_raScan he hl, readAllScan_clean hp hd, nextPage_of_raScan hl]
  case read =>
    rw [coreStep_raScan he hl, readAllScan_dirty hp hd]
    exact congrArg Host.Outcome.next (dirtyPage_of_le hle)
  case abort =>
    rw [coreStep_raScan he hl, readAllScan_dirty hp hd]
    exact congrArg Host.Outcome.next (dirtyPage_of_lt hlt)

end Sys2Proof.Machine
end

