-- ==== Sys2Proof/Proofs/StepCases.lean ====
section
/-! PROOFS. Proofs/StepCases.lean: what a step that answers a next state can be, said once: the caller's move (log entry 4), the
core's own step by its control registers, and the poll iteration (42_engine.md R217). -/

namespace Sys2Proof.Machine

/-! ### The poll iteration -/

/-- A ready frame of no bytes is refused, so a classification that answers runs on a frame with a tag. -/
theorem runCode_frame_next {s t : State} (hr : s.dec.ready = true) (h : runCode (.frame s.dec.buf) s = .next t) :
    t = ending (classifyVerdict s) (sideEffect s) := by
  by_cases hb : s.dec.buf = []
  · rw [hb] at h; cases h
  · rw [runCode_frame hr hb] at h; cases h; rfl

/-- The second half of a poll iteration ticks, or classifies the ready frame (42_engine.md R217). -/
theorem afterByte_next {s t : State} (h : afterByte s = .next t) :
    (s.dec.ready = false ∧ t = timeoutTick s) ∨
    (s.dec.ready = true ∧ t = afterVerdict (classifyVerdict s) (ending (classifyVerdict s) (sideEffect s))) := by
  unfold afterByte at h
  split at h
  · rename_i hr
    obtain ⟨u, hu, h⟩ := andThen_eq_next h
    cases h
    exact .inr ⟨hr, by rw [runCode_frame_next hr hu]⟩
  · rename_i hr
    cases h
    exact .inl ⟨by simpa using hr, rfl⟩

/-- A poll iteration by the answer of its one poll, which leaves all but the ports as they are (42_engine.md R216, R217). -/
theorem pollIteration_next {s t : State} (h : pollIteration s = .next t) :
    ((rxPoll s).1 = .fail ∧ t = transportError (rxPoll s).2) ∨
    ((rxPoll s).1 = .none ∧ afterByte (rxPoll s).2 = .next t) ∨
    (∃ b, (rxPoll s).1 = .byte b ∧ s.dec.ready = false ∧
      afterByte { (rxPoll s).2 with dec := wireStep s.params b s.dec } = .next t) := by
  obtain ⟨q, hq, -⟩ := rxPoll_frame s
  unfold pollIteration at h
  split at h
  · rename_i u hp; cases h; exact .inl (by simp [hp])
  · rename_i u hp; exact .inr (.inl (by simpa [hp] using h))
  · rename_i b u hp
    obtain ⟨v, hv, h⟩ := andThen_eq_next h
    obtain ⟨hr, rfl⟩ := runCode_wire_next hv
    simp only [hp] at hq
    subst hq
    exact .inr (.inr ⟨b, by simp [hp], hr, by simpa [hp] using h⟩)

/-! ### The core's own step -/

/-- At a label that waits with the engine idle, the core's step is the start of that label's EXECUTE, whose payload fits: at most
two address bytes and a chunk of a page (44_flash_operations.md R285 to R305). -/
theorem sequencerStep_of_opWaiting {s : State} (h : opWaiting s.seq.state = true) :
    ∃ op p e, p.length ≤ s.params.payloadMax ∧ sequencerStep s = executeStart (opcodeByte op) p e s := by
  unfold sequencerStep
  cases hl : s.seq.state <;> simp only [hl] at h ⊢
  case idWait => exact ⟨.readId, [], 0x9F#8, Nat.zero_le _, rfl⟩
  case beWait => exact ⟨.bulkErase, [], 0xC7#8, Nat.zero_le _, rfl⟩
  case seWait => exact ⟨.sectorErase, addrBytes s.seq.addr, 0x44#8, Nat.le_add_right 2 _, rfl⟩
  case pgWait =>
    refine ⟨.program, addrBytes s.seq.addr ++ chunk s, 0x44#8, ?_, rfl⟩
    simpa [Params.payloadMax, Params.dataMax, addrBytes, Nat.add_comm 2] using chunk_length_le s
  case raStartWait => exact ⟨.readAll, [], 0x44#8, Nat.zero_le _, rfl⟩
  case raWait => exact ⟨.read, pageBytes s.seq.page, 0x03#8, Nat.le_add_right 2 _, rfl⟩
  all_goals exact absurd h (by decide)

/-- The core's own step by its control registers (00_scope.md R11, 44_flash_operations.md, 42_engine.md R213 to R230). -/
inductive CoreCase (s : State) : State → Prop where
  | rest : opResting s = true → CoreCase s s
  | execute {t} {op : Opcode} {p : List Byte} {e : Byte} : s.eng.state = .idle → opWaiting s.seq.state = true →
      executeStart (opcodeByte op) p e s = .next t → CoreCase s t
  | sectorNext : s.eng.state = .idle → s.seq.state = .seNext → CoreCase s (sectorNext s)
  | programNext : s.eng.state = .idle → s.seq.state = .pgNext → CoreCase s (programNext s)
  | readAllInit : s.eng.state = .idle → s.seq.state = .raInit → CoreCase s (readAllInit s)
  | readAllPass : s.eng.state = .idle → s.seq.state = .raPass → CoreCase s (readAllPass s)
  | scan {t} : s.eng.state = .idle → s.seq.state = .raScan → readAllScan s = .next t → CoreCase s t
  | verify {t} : s.eng.state = .idle → s.seq.state = .vfRun → verifyRun s = .next t → CoreCase s t
  | firstWrite : s.eng.state = .send1 → CoreCase s (firstWrite s)
  | gap : s.eng.state = .gap → CoreCase s (gapStep s)
  | secondWrite : s.eng.state = .send2 → CoreCase s (secondWrite s)
  | poll {t} : s.eng.state = .poll → pollIteration s = .next t → CoreCase s t
  | collect {t} : s.eng.state = .done → opResting s = false → collectOutcome s = .next t → CoreCase s t

theorem coreCase_of_sequencerStep {s t : State} (he : s.eng.state = .idle) (h : sequencerStep s = .next t) :
    CoreCase s t := by
  by_cases hw : opWaiting s.seq.state = true
  · obtain ⟨op, p, e, -, hx⟩ := sequencerStep_of_opWaiting hw
    exact .execute he hw (hx.symm.trans h)
  unfold sequencerStep at h
  cases hl : s.seq.state <;> simp only [hl] at h hw
  case idle => cases h; exact .rest (by simp [opResting, hl])
  case done => cases h; exact .rest (by simp [opResting, hl])
  case seNext => cases h; exact .sectorNext he hl
  case pgNext => cases h; exact .programNext he hl
  case raInit => cases h; exact .readAllInit he hl
  case raPass => cases h; exact .readAllPass he hl
  case raScan => exact .scan he hl h
  case vfRun => exact .verify he hl h
  all_goals exact absurd rfl hw

/-- Every step of the core that answers is one of the cases. -/
theorem coreStep_case {s t : State} (h : coreStep s = .next t) : CoreCase s t := by
  cases he : s.eng.state
  case idle => exact coreCase_of_sequencerStep he (coreStep_idle he ▸ h)
  case send1 => rw [coreStep_send1 he] at h; cases h; exact .firstWrite he
  case gap => rw [coreStep_gap he] at h; cases h; exact .gap he
  case send2 => rw [coreStep_send2 he] at h; cases h; exact .secondWrite he
  case poll => exact .poll he (coreStep_poll he ▸ h)
  case done =>
    cases hr : opResting s
    · exact .collect he hr (coreStep_done he hr ▸ h)
    · simp only [coreStep, he, hr, if_true] at h; cases h; exact .rest hr

/-! ### The step -/

/-- A step by the caller's next move, already taken off the list (log entry 4). Under `pass`, `await` or no move it is the core's
own. -/
inductive StepCase (s : State) : State → Prop where
  | core {t} (ms : List CallerMove) : coreStep (setMoves ms s) = .next t → StepCase s t
  | start {t} (a : OpArgs) (ms : List CallerMove) : startOp a (setMoves ms s) = .next t → StepCase s t
  | execute {t} (ms : List CallerMove) {op : Opcode} {p : List Byte} {e : Byte} : opResting s = true →
      executeStart (opcodeByte op) p e (setMoves ms s) = .next t → StepCase s t
  | collect (ms : List CallerMove) : opResting s = true → StepCase s (collected (setMoves ms s))
  | dump (ms : List CallerMove) (a : Nat) (v : Byte) :
      StepCase s { s with ports := { s.ports with moves := ms, dumped := s.ports.dumped ++ [(a, v)] } }
  | reset {ms : List CallerMove} : s.ports.moves = .reset :: ms → StepCase s (resetCore (setMoves ms s))

theorem handExecute_next {op : Byte} {p : List Byte} {e : Byte} {s t : State} (h : handExecute op p e s = .next t) :
    opResting s = true ∧ ∃ o : Opcode, executeStart (opcodeByte o) p e s = .next t := by
  unfold handExecute at h
  split at h
  · cases h
  · split at h
    · cases h
    · rename_i hr he
      obtain ⟨o, -, -, hx⟩ := runCode_call_next h
      exact ⟨by simpa using hr, o, hx⟩

theorem handCollect_next {s t : State} (h : handCollect s = .next t) : opResting s = true ∧ t = collected s := by
  unfold handCollect at h
  split at h
  · cases h
  · split at h <;> cases h
    rename_i hr _
    exact ⟨by simpa using hr, rfl⟩

theorem dumpByte_next {a : Nat} {s t : State} (h : dumpByte a s = .next t) :
    ∃ v, t = { s with ports := { s.ports with dumped := s.ports.dumped ++ [(a, v)] } } := by
  unfold dumpByte at h
  split at h
  · split at h <;> cases h
    exact ⟨_, rfl⟩
  · cases h

/-- Every step that answers is one of the cases. -/
theorem step_case {s t : State} (h : step s = .next t) : StepCase s t := by
  unfold step at h
  split at h
  · exact .core s.ports.moves h
  rename_i m ms hm
  split at h
  · exact .core s.ports.moves h
  cases m with
  | pass => exact .core ms h
  | await => exact .core ms h
  | start a => exact .start a ms h
  | execute op p e => obtain ⟨hr, o, hx⟩ := handExecute_next h; exact .execute ms hr hx
  | collect => obtain ⟨hr, rfl⟩ := handCollect_next h; exact .collect ms hr
  | dump a => obtain ⟨v, rfl⟩ := dumpByte_next h; exact .dump ms a v
  | reset => cases h; exact .reset hm

end Sys2Proof.Machine
end

