-- ==== Sys2Proof/Proofs/SoundParts.lean ====
section
/-! PROOFS. Proofs/SoundParts.lean: the four parts of `Sound`, each with the updates that keep it. What a part does not read changes
freely; what it reads changes by one lemma per kind of update (10_state.md R20 to R42). -/

namespace Sys2Proof.Machine

/-! ### The decoder -/

/-- One `DEC_STEP` keeps the decoder invariant; a target other than the sum of no bytes makes a ready frame have a byte
(10_state.md R26). -/
theorem decoderInv_wireStep {p : Params} {d : Decoder} (ht : p.csTarget ≠ 0#8) (hr : d.ready = false) (h : DecoderInv p d)
    (b : Byte) : DecoderInv p (wireStep p b d) := by
  obtain ⟨-, hs, e⟩ | ⟨-, -, e⟩ | ⟨-, e⟩ | ⟨-, -, e⟩ | ⟨-, hc, v, e⟩ := wireStep_cases p b d <;> rw [e]
  · have hb : d.buf ≠ [] := fun hb => ht (by rw [← hs, h.sum_eq, hb, sum8_nil])
    exact { h with ready_sum := fun _ => hs, ready_cur := fun _ => List.length_pos_iff.2 hb }
  · exact decoderInv_clear p
  · exact { h with }
  · exact decoderInv_clear p
  · exact {
      sum_eq := by simp [h.sum_eq]
      cur_le := by simpa [Decoder.cur] using hc
      ready_sum := by simp [hr]
      ready_cur := by simp [hr] }

/-! ### The engine -/

/-- Of the components other than the engine, its invariant reads `tx_len`, the parameters and `err_transport`. -/
theorem engineInv_congr {s : State} (h : EngineInv s) (d : Decoder) (i : Ident) (b : Memory Bool) (m : Memory Byte)
    (q : Sequencer) (p : Ports) {f : FaultFlags} (hf : f.transport = s.flags.transport) :
    EngineInv { s with dec := d, ident := i, pageDirty := b, memImage := m, seq := q, flags := f, ports := p } :=
  { h with active_transport := fun ha => hf.trans (h.active_transport ha) }

/-- Latching an outcome (42_engine.md R214, R218, R226). -/
theorem engineInv_done {s : State} (h : EngineInv s) {o : EngOutcome} (ho : o ≠ .none) {n : Nat} (hn : n ≤ s.params.tmoIter)
    {r : List Byte} (hr : r.length ≤ s.params.rxCap) (e : Byte) (f : FaultFlags) :
    EngineInv { s with eng := ⟨.done, e, n, o, r⟩, flags := f } where
  tmo_le := hn
  tmo_poll := nofun
  tmo_sending := nofun
  active_outcome := nofun
  active_transport := nofun
  done_outcome := fun _ => ho
  res_le := hr
  tx_le := h.tx_le
  tx_send1 := nofun
  tx_split := nofun

/-- Collecting an outcome (42_engine.md R230). -/
theorem engineInv_collected {s : State} (h : EngineInv s) : EngineInv (collected s) where
  tmo_le := h.tmo_le
  tmo_poll := nofun
  tmo_sending := nofun
  active_outcome := nofun
  active_transport := nofun
  done_outcome := nofun
  res_le := h.res_le
  tx_le := h.tx_le
  tx_send1 := nofun
  tx_split := nofun

/-- Polling goes on, or begins, with budget left (42_engine.md R218). -/
theorem engineInv_poll {s : State} (h : EngineInv s) (ha : engActive s.eng.state = true) {n : Nat}
    (hn : n < s.params.tmoIter) : EngineInv { s with eng := { s.eng with tmo := n, state := .poll } } where
  tmo_le := Nat.le_of_lt hn
  tmo_poll := fun _ => hn
  tmo_sending := nofun
  active_outcome := fun _ => h.active_outcome ha
  active_transport := fun _ => h.active_transport ha
  done_outcome := nofun
  res_le := h.res_le
  tx_le := h.tx_le
  tx_send1 := nofun
  tx_split := nofun

/-- Between the two writes of a split frame (42_engine.md R215). -/
theorem engineInv_split {s : State} (h : EngineInv s) (hs : engSending s.eng.state = true) {l : EngState}
    (hl : l = .gap ∨ l = .send2) (hx : s.params.txChunk < s.enc.len) :
    EngineInv { s with eng := { s.eng with state := l } } := by
  have ha : engActive s.eng.state = true := by
    simp only [engSending, engActive, Bool.or_eq_true] at hs ⊢; exact .inl hs
  have hout := h.active_outcome ha
  exact { h with
    tmo_poll := by rintro rfl; simp at hl
    tmo_sending := fun _ => h.tmo_sending hs
    active_outcome := fun _ => hout
    active_transport := fun _ => h.active_transport ha
    done_outcome := by rintro rfl; simp at hl
    tx_send1 := by rintro rfl; simp at hl
    tx_split := fun _ => hx }

/-- The start of an EXECUTE (42_engine.md R211): the frame of a payload of legal length fits `tx_buf`. -/
theorem engineInv_started {s : State} (h : EngineInv s) (ht : s.flags.transport = false) {p : List Byte}
    (hp : p.length ≤ s.params.payloadMax) (op e : Byte) :
    EngineInv { s with
      enc := encodeFrame s.params op p
      eng := { s.eng with expected := e, tmo := 0, outcome := .none, state := .send1 } } where
  tmo_le := Nat.zero_le _
  tmo_poll := nofun
  tmo_sending := fun _ => rfl
  active_outcome := fun _ => rfl
  active_transport := fun _ => ht
  done_outcome := nofun
  res_le := h.res_le
  tx_le := by
    have := (rawFrame_length_le s.params op p).2
    simp only [Encoder.len, encodeFrame, Params.txCap]; omega
  tx_send1 := fun _ => (rawFrame_length_le s.params op p).1
  tx_split := nofun

/-- The tick of a poll iteration (42_engine.md R218). -/
theorem engineInv_timeoutTick {s : State} (h : EngineInv s) (hp : s.eng.state = .poll) : EngineInv (timeoutTick s) := by
  have hlt := h.tmo_poll hp
  rw [timeoutTick_eq]
  split
  · exact engineInv_done h (o := .timeout) nofun hlt h.res_le s.eng.expected s.flags
  · have := engineInv_poll h (by rw [hp]; rfl) (n := s.eng.tmo + 1) (by omega)
    rwa [← hp] at this

/-! ### The sequencer -/

/-- The decoder, the encoder, the identification, the flags and the ports are not read by the sequencer's invariant. -/
theorem seqInv_congr {s : State} (h : SeqInv s) (d : Decoder) (n : Encoder) (i : Ident) (f : FaultFlags) (p : Ports) :
    SeqInv { s with dec := d, enc := n, ident := i, flags := f, ports := p } :=
  { h with }

/-- The engine moves: idle, or while a label waits or nothing is in progress (10_state.md R38). -/
theorem seqInv_engine {s : State} (h : SeqInv s) {e : Engine}
    (he : e.state ≠ .idle → opWaiting s.seq.state = true ∨ opResting s = true) : SeqInv { s with eng := e } :=
  { h with engine_waits := he }

/-- The memories change outside the scan and keep their background. -/
theorem seqInv_memories {s : State} (h : SeqInv s) (hl : s.seq.state ≠ .raScan) {b : Memory Bool} {m : Memory Byte}
    (hb : b.bg = s.pageDirty.bg) (hm : m.bg = s.memImage.bg) : SeqInv { s with pageDirty := b, memImage := m } :=
  { h with
    scan_clean := fun hs => absurd hs hl
    dump_filled := fun hd => hm.trans (h.dump_filled hd)
    dump_marked := fun hd => hb.trans (h.dump_marked hd)
    read_all_filled := fun hr => hm.trans (h.read_all_filled hr) }

/-- An operation ends (44_flash_operations.md R281). -/
theorem seqInv_finish {s : State} (h : SeqInv s) {st : OpStatus} {c : ErrCode} {r : Bool} (hst : st ≠ .busy)
    (hc : st = .fail ↔ c ≠ .none) (hr : r = true → s.memImage.bg = some s.params.fill) :
    SeqInv { s with seq := { s.seq with status := st, err := c, state := .done, readAllOk := r } } :=
  { h with
    engine_waits := fun _ => .inr rfl
    addr_sector := nofun
    addr_wait := nofun
    page_wait := nofun
    found_wait := nofun
    fails_wait := nofun
    scan_clean := nofun
    dump_filled := nofun
    dump_marked := nofun
    status_busy := nofun
    status_rest := fun _ => hst
    err_none := fun hne => Decidable.not_not.1 (mt hc.2 hne)
    err_fail := hc.1
    verify_after_read_all := nofun
    read_all_filled := hr }

/-- The labels of sector erase and of program. -/
def opErasing (l : OpState) : Bool := l == .seNext || l == .seWait || l == .pgNext || l == .pgWait

theorem opErasing_busy : ∀ {l}, opErasing l = true → opDumping l = false ∧ (l == .idle || l == .done) = false := by
  rintro ⟨⟩ <;> decide

theorem opDumping_busy : ∀ {l}, opDumping l = true → (l == .idle || l == .done) = false := by
  rintro ⟨⟩ <;> decide

/-- Sector erase and program go from label to label (44_flash_operations.md R290, R293). -/
theorem seqInv_erasing {s : State} (h : SeqInv s) (he : s.eng.state = .idle) (hb : opResting s = false) {l : OpState}
    (hl : opErasing l = true) {a : Nat} (ha : a ≤ s.params.imageSize) (hp : a % s.params.pageSize = 0)
    (hs : l = .seNext ∨ l = .seWait → a % s.params.sectorSize = 0) (hw : l = .seWait ∨ l = .pgWait → a < s.seq.srcLen)
    (f : Bool) (n : Nat) :
    SeqInv { s with seq := { s.seq with state := l, addr := a, anyFail := f, tries := n } } :=
  { h with
    engine_waits := fun hne => absurd he hne
    addr_le := ha
    addr_page := hp
    addr_sector := hs
    addr_wait := hw
    page_wait := by rintro rfl; cases hl
    found_wait := by rintro rfl; cases hl
    fails_wait := by rintro rfl; cases hl
    scan_clean := by rintro rfl; cases hl
    dump_filled := fun hd => absurd ((opErasing_busy hl).1.symm.trans hd) (by decide)
    dump_marked := fun hd => absurd ((opErasing_busy hl).1.symm.trans hd) (by decide)
    status_busy := fun _ => h.status_busy hb
    status_rest := fun hr => absurd ((opErasing_busy hl).2.symm.trans hr) (by decide)
    verify_after_read_all := by rintro rfl; cases hl }

/-- A read-all goes from label to label after its initialisation (44_flash_operations.md R302 to R306). -/
theorem seqInv_dumping {s : State} (h : SeqInv s) (he : s.eng.state = .idle) (hd : opDumping s.seq.state = true)
    {l : OpState} (hl : opDumping l = true) {p n : Nat} {f : Bool} (hp : p ≤ s.params.pageCount)
    (hn : n ≤ s.params.failMax + 1) (hw : l = .raWait → p < s.params.pageCount ∧ f = true ∧ n ≤ s.params.failMax)
    (hc : l = .raScan → f = false → ∀ q < p, ptTest s.pageDirty q = some false) :
    SeqInv { s with seq := { s.seq with state := l, page := p, found := f, failCount := n } } := by
  exact { h with
    engine_waits := fun hne => absurd he hne
    addr_sector := by rintro (rfl | rfl) <;> cases hl
    addr_wait := by rintro (rfl | rfl) <;> cases hl
    page_le := hp
    page_wait := fun h => (hw h).1
    found_wait := fun h => (hw h).2.1
    fails_le := hn
    fails_wait := fun h => (hw h).2.2
    scan_clean := hc
    dump_filled := fun _ => h.dump_filled hd
    dump_marked := fun _ => h.dump_marked hd
    status_busy := fun _ => h.status_busy (opDumping_busy hd)
    status_rest := fun hr => absurd ((opDumping_busy hl).symm.trans hr) (by decide)
    verify_after_read_all := by rintro rfl; cases hl }

/-! ### The memories -/

/-- The bytes of a page in range lie inside the image (20_memory.md R71, R81). -/
theorem page_end_le {p : Params} {n : Nat} (h : n < p.pageCount) : n * p.pageSize + p.pageSize ≤ p.imageSize :=
  calc n * p.pageSize + p.pageSize
      _ = (n + 1) * p.pageSize := (Nat.succ_mul n p.pageSize).symm
      _ ≤ p.pageCount * p.pageSize := Nat.mul_le_mul_right _ h
      _ ≤ p.imageSize := Nat.div_mul_le_self _ _

theorem frameData_length_le (p : Params) (d : Decoder) : (frameData p d).length ≤ p.pageSize :=
  List.length_take_le _ _

theorem imageInv_blank (p : Params) : ImageInv p Memory.blank := ⟨blank_wf, nofun, .inl rfl⟩

theorem imageInv_filled (p : Params) : ImageInv p (Memory.filled p.fill) := ⟨filled_wf _, nofun, .inr rfl⟩

theorem imageInv_writeBytes {p : Params} {m : Memory Byte} (h : ImageInv p m) {a : Nat} {vs : List Byte}
    (ha : a + vs.length ≤ p.imageSize) : ImageInv p (m.writeBytes a vs) where
  canonical := writeBytes_wf a h.canonical
  in_range := fun c hc => by
    obtain hc | hc := mem_cells_writeBytes hc
    · omega
    · exact h.in_range c hc
  background := by rw [writeBytes_bg]; exact h.background

theorem bitmapInv_blank (p : Params) : BitmapInv p Memory.blank := ⟨blank_wf, nofun, .inl rfl⟩

theorem bitmapInv_ptInit (p : Params) : BitmapInv p ptInit := ⟨ptInit_wf, nofun, .inr rfl⟩

theorem bitmapInv_ptClear {p : Params} {m : Memory Bool} (h : BitmapInv p m) {n : Nat} (hn : n < p.pageCount) :
    BitmapInv p (ptClear m n) where
  canonical := write_wf h.canonical n false
  in_range := fun c hc => by
    obtain ⟨rfl, -⟩ | hc := mem_writeCell hc
    · exact hn
    · exact h.in_range c hc
  background := h.background

/-- The side effect of a frame keeps the Memory Image sound, and its background. -/
theorem imageInv_sideEffect {s : State} (h : ImageInv s.params s.memImage) :
    ImageInv s.params (sideEffect s).memImage ∧ (sideEffect s).memImage.bg = s.memImage.bg := by
  obtain e | ⟨-, -, hp, e⟩ := sideEffect_memImage s <;> rw [e]
  · exact ⟨h, rfl⟩
  · have hend := page_end_le hp
    have hlen := frameData_length_le s.params s.dec
    exact ⟨imageInv_writeBytes h (by omega), writeBytes_bg _ _ _⟩

/-- The side effect of a frame keeps the Page Bitmap sound, and its background. -/
theorem bitmapInv_sideEffect {s : State} (h : BitmapInv s.params s.pageDirty) :
    BitmapInv s.params (sideEffect s).pageDirty ∧ (sideEffect s).pageDirty.bg = s.pageDirty.bg := by
  obtain e | ⟨hp, e⟩ := sideEffect_pageDirty s <;> rw [e]
  · exact ⟨h, rfl⟩
  · exact ⟨bitmapInv_ptClear h hp, rfl⟩

end Sys2Proof.Machine
end

