-- ==== Sys2Proof/Proofs/SoundSteps.lean ====
section
/-! PROOFS. Proofs/SoundSteps.lean: every step keeps the invariant `Sound`: first the core's own steps, case by case, then the
caller's moves. -/

namespace Sys2Proof.Machine

/-! ### The sequencer, with the engine idle -/

/-- A step that writes the sequencer and the ports alone. -/
theorem sound_of_seqInv {s : State} (h : Sound s) {q : Sequencer} (hq : SeqInv { s with seq := q }) (p : Ports) :
    Sound { s with seq := q, ports := p } :=
  { h with
    engine := engineInv_congr h.engine s.dec s.ident s.pageDirty s.memImage q p (f := s.flags) rfl
    sequencer := seqInv_congr hq s.dec s.enc s.ident s.flags p }

theorem sound_setMoves {s : State} (h : Sound s) (ms : List CallerMove) : Sound (setMoves ms s) :=
  sound_of_seqInv h h.sequencer _

theorem sound_finishOk {s : State} (h : Sound s) (hb : opResting s = false) : Sound (finishOk s) := by
  have herr : s.seq.err = .none := h.sequencer.err_none (by rw [h.sequencer.status_busy hb]; decide)
  exact sound_of_seqInv h (seqInv_finish h.sequencer (by decide) (by simp [herr]) h.sequencer.read_all_filled) s.ports

theorem sound_finishFail {s : State} (h : Sound s) {c : ErrCode} (hc : c ≠ .none) : Sound (finishFail c s) :=
  sound_of_seqInv h (seqInv_finish h.sequencer (by decide) (by simp [hc]) h.sequencer.read_all_filled) s.ports

theorem sound_report {s : State} (h : Sound s) (c : ErrCode) (i : ReportInfo) : Sound (report c i s) :=
  sound_of_seqInv h h.sequencer _

theorem sound_raiseOp {s : State} (h : Sound s) {c : ErrCode} (hc : c ≠ .none) (i : ReportInfo) : Sound (raiseOp c i s) :=
  sound_finishFail (sound_report h c i) hc

theorem not_resting_of_label {s : State} {l : OpState} (hl : s.seq.state = l) (h : (l == .idle || l == .done) = false) :
    opResting s = false := by
  rw [opResting, hl, h]

/-- Past an aligned address below the top there is room for one more granule (20_memory.md R81 to R83). -/
theorem add_granule_le {a n k : Nat} (ha : a < n) (hk : a % k = 0) (hn : k ∣ n) : a + k ≤ n := by
  obtain ⟨q, rfl⟩ := Nat.dvd_of_mod_eq_zero hk
  obtain ⟨m, rfl⟩ := hn
  rw [← Nat.mul_succ]
  exact Nat.mul_le_mul_left k (Nat.lt_of_mul_lt_mul_left ha)

theorem page_dvd_image {p : Params} (h : ParamsInv p) : p.pageSize ∣ p.imageSize := h.page_sector.trans h.sector_image

theorem sound_sectorNext {s : State} (h : Sound s) (he : s.eng.state = .idle) (hl : s.seq.state = .seNext) :
    Sound (sectorNext s) := by
  have hb := not_resting_of_label hl rfl
  have hq := h.sequencer
  unfold sectorNext
  split
  · rename_i hlt
    exact sound_of_seqInv h (seqInv_erasing hq he hb (l := .seWait) rfl hq.addr_le hq.addr_page
      (fun _ => hq.addr_sector (.inl hl)) (fun _ => hlt) s.seq.anyFail s.seq.tries) s.ports
  · split
    · exact sound_finishFail h (by decide)
    · exact sound_finishOk h hb

/-- The next page of a program, from an address below the size (44_flash_operations.md R293, R294). -/
theorem sound_advancePage {s : State} (h : Sound s) (he : s.eng.state = .idle) (hb : opResting s = false)
    (hlt : s.seq.addr < s.seq.srcLen) : Sound (advanceAddr s.params.pageSize .pgNext s) := by
  have hq := h.sequencer
  exact sound_of_seqInv h (seqInv_erasing hq he hb (l := .pgNext) rfl
    (add_granule_le (Nat.lt_of_lt_of_le hlt hq.src_le) hq.addr_page (page_dvd_image h.params))
    (by rw [Nat.add_mod_right, hq.addr_page]) nofun nofun s.seq.anyFail s.seq.tries) s.ports

/-- The next sector of an erase, from an address below the size (44_flash_operations.md R290). -/
theorem sound_advanceSector {s : State} (h : Sound s) (he : s.eng.state = .idle) (hl : s.seq.state = .seWait) (f : Bool)
    (p : Ports) :
    Sound { s with
      seq := { s.seq with addr := s.seq.addr + s.params.sectorSize, anyFail := f, state := .seNext }, ports := p } := by
  have hq := h.sequencer
  have hsec : s.seq.addr % s.params.sectorSize = 0 := hq.addr_sector (.inr hl)
  have hnext : (s.seq.addr + s.params.sectorSize) % s.params.sectorSize = 0 := by rw [Nat.add_mod_right, hsec]
  have hpage : (s.seq.addr + s.params.sectorSize) % s.params.pageSize = 0 :=
    Nat.mod_eq_zero_of_dvd (h.params.page_sector.trans (Nat.dvd_of_mod_eq_zero hnext))
  exact sound_of_seqInv h (seqInv_erasing hq he (not_resting_of_label hl rfl) (l := .seNext) rfl
    (add_granule_le (Nat.lt_of_lt_of_le (hq.addr_wait (.inl hl)) hq.src_le) hsec h.params.sector_image)
    hpage (fun _ => hnext) nofun f s.seq.tries) p

theorem sound_programNext {s : State} (h : Sound s) (he : s.eng.state = .idle) (hl : s.seq.state = .pgNext) :
    Sound (programNext s) := by
  have hb := not_resting_of_label hl rfl
  have hq := h.sequencer
  unfold programNext
  split
  · rename_i hlt
    split
    · exact sound_of_seqInv h (seqInv_erasing hq he hb (l := .pgWait) rfl hq.addr_le hq.addr_page nofun (fun _ => hlt)
        s.seq.anyFail 0) s.ports
    · exact sound_advancePage h he hb hlt
  · exact sound_finishOk h hb

/-- A program send timed out: the label stays `PG_WAIT`, or the operation ends (44_flash_operations.md R295). -/
theorem sound_programTimeout {s : State} (h : Sound s) (he : s.eng.state = .idle) (hl : s.seq.state = .pgWait) :
    Sound (programTimeout s) := by
  have hq := h.sequencer
  have hcount := sound_of_seqInv h (seqInv_erasing hq he (not_resting_of_label hl rfl) (l := .pgWait) rfl hq.addr_le
    hq.addr_page nofun (fun _ => hq.addr_wait (.inr hl)) s.seq.anyFail (s.seq.tries + 1))
    (report .protocolTimeout (.address s.seq.addr) s).ports
  rw [← hl] at hcount
  unfold programTimeout
  dsimp only
  split
  · exact sound_finishFail hcount (by decide)
  · exact hcount

/-! ### Read-all and verify -/

theorem sound_readAllInit {s : State} (h : Sound s) (he : s.eng.state = .idle) (hl : s.seq.state = .raInit) :
    Sound (readAllInit s) := by
  have hb := h.sequencer.status_busy (not_resting_of_label hl rfl)
  exact { h with
    engine := engineInv_congr h.engine s.dec s.ident ptInit (Memory.filled s.params.fill)
      { s.seq with state := .raStartWait } s.ports (f := s.flags) rfl
    sequencer := { h.sequencer with
      engine_waits := fun hne => absurd he hne
      addr_sector := nofun
      addr_wait := nofun
      page_wait := nofun
      found_wait := nofun
      fails_wait := nofun
      scan_clean := nofun
      dump_filled := fun _ => rfl
      dump_marked := fun _ => rfl
      status_busy := fun _ => hb
      status_rest := nofun
      verify_after_read_all := nofun
      read_all_filled := fun _ => rfl }
    image := imageInv_filled _
    bitmap := bitmapInv_ptInit _ }

theorem sound_readAllPass {s : State} (h : Sound s) (he : s.eng.state = .idle) (hd : opDumping s.seq.state = true) :
    Sound (readAllPass s) :=
  sound_of_seqInv h (seqInv_dumping h.sequencer he hd (l := .raScan) rfl (Nat.zero_le _) (Nat.zero_le _) nofun
    (fun _ _ q hq => absurd hq (Nat.not_lt_zero q))) s.ports

theorem sound_goTo_raPass {s : State} (h : Sound s) (he : s.eng.state = .idle) (hd : opDumping s.seq.state = true) :
    Sound (goTo .raPass s) :=
  sound_of_seqInv h (seqInv_dumping h.sequencer he hd (l := .raPass) rfl h.sequencer.page_le h.sequencer.fails_le nofun
    nofun) s.ports

/-- The scan goes on to the next page: past a clean one, or in a pass that has met a dirty one. -/
theorem sound_nextPage {s : State} (h : Sound s) (he : s.eng.state = .idle) (hd : opDumping s.seq.state = true)
    (hp : s.seq.page < s.params.pageCount)
    (hc : s.seq.found = false → ∀ q < s.seq.page + 1, ptTest s.pageDirty q = some false)
    {n : Nat} (hn : n ≤ s.params.failMax + 1) :
    Sound { s with seq := { s.seq with failCount := n, page := s.seq.page + 1, state := .raScan } } :=
  sound_of_seqInv h (seqInv_dumping h.sequencer he hd (l := .raScan) rfl hp hn nofun fun _ => hc) s.ports

/-- A dirty page below the threshold is read (44_flash_operations.md R304). -/
theorem sound_dirtyPage {s : State} (h : Sound s) (he : s.eng.state = .idle) (hd : opDumping s.seq.state = true)
    (hp : s.seq.page < s.params.pageCount) : Sound (dirtyPage { s with seq := { s.seq with found := true } }) := by
  have hq := h.sequencer
  by_cases hle : s.seq.failCount ≤ s.params.failMax
  · rw [dirtyPage_of_le (by exact hle)]
    exact sound_of_seqInv h (seqInv_dumping hq he hd (l := .raWait) rfl hq.page_le hq.fails_le
      (fun _ => ⟨hp, rfl, hle⟩) nofun) s.ports
  · rw [dirtyPage_of_lt (by exact Nat.lt_of_not_le hle)]
    have hfound : SeqInv { s with seq := { s.seq with found := true } } :=
      { hq with found_wait := fun _ => rfl, scan_clean := fun _ hf => nomatch hf }
    exact sound_raiseOp (sound_of_seqInv h hfound s.ports) (by decide) _

/-- What the scan can answer (44_flash_operations.md R304, R306). -/
theorem readAllScan_next {s t : State} (h : readAllScan s = .next t) :
    (s.seq.page < s.params.pageCount ∧ ptTest s.pageDirty s.seq.page = some true ∧
      t = dirtyPage { s with seq := { s.seq with found := true } }) ∨
    (s.seq.page < s.params.pageCount ∧ ptTest s.pageDirty s.seq.page = some false ∧ t = nextPage s) ∨
    (s.params.pageCount ≤ s.seq.page ∧ s.seq.found = true ∧ t = goTo .raPass s) ∨
    (s.params.pageCount ≤ s.seq.page ∧ s.seq.found = false ∧ t = finishReadAll s) := by
  unfold readAllScan at h
  split at h
  · rename_i hp
    split at h <;> cases h
    · rename_i hd; exact .inl ⟨hp, hd, rfl⟩
    · rename_i hd; exact .inr (.inl ⟨hp, hd, rfl⟩)
  · rename_i hp
    split at h <;> cases h
    · rename_i hf; exact .inr (.inr (.inl ⟨Nat.le_of_not_lt hp, hf, rfl⟩))
    · rename_i hf; exact .inr (.inr (.inr ⟨Nat.le_of_not_lt hp, by simpa using hf, rfl⟩))

theorem sound_finishReadAll {s : State} (h : Sound s) (hd : opDumping s.seq.state = true) : Sound (finishReadAll s) := by
  have herr : s.seq.err = .none :=
    h.sequencer.err_none (by rw [h.sequencer.status_busy (opDumping_busy hd)]; decide)
  exact sound_of_seqInv h (seqInv_finish h.sequencer (by decide) (by simp [herr]) fun _ => h.sequencer.dump_filled hd)
    s.ports

theorem sound_readAllScan {s t : State} (h : Sound s) (he : s.eng.state = .idle) (hl : s.seq.state = .raScan)
    (hx : readAllScan s = .next t) : Sound t := by
  have hd : opDumping s.seq.state = true := by rw [hl]; rfl
  obtain ⟨hp, -, rfl⟩ | ⟨hp, hclean, rfl⟩ | ⟨-, -, rfl⟩ | ⟨-, -, rfl⟩ := readAllScan_next hx
  · exact sound_dirtyPage h he hd hp
  · refine sound_nextPage h he hd hp (fun hf q hq => ?_) h.sequencer.fails_le
    obtain hq | rfl := Nat.lt_succ_iff_lt_or_eq.1 hq
    · exact h.sequencer.scan_clean hl hf q hq
    · exact hclean
  · exact sound_goTo_raPass h he hd
  · exact sound_finishReadAll h hd

/-- What verify can answer (44_flash_operations.md R310). -/
theorem verifyRun_next {s t : State} (h : verifyRun s = .next t) :
    t = finishOk s ∨ ∃ a, t = raiseOp .verificationMismatch (.address a) s := by
  unfold verifyRun at h
  split at h
  · cases h
  · split at h <;> cases h
    · exact .inl rfl
    · exact .inr ⟨_, rfl⟩

theorem sound_verifyRun {s t : State} (h : Sound s) (hl : s.seq.state = .vfRun) (hx : verifyRun s = .next t) :
    Sound t := by
  obtain rfl | ⟨a, rfl⟩ := verifyRun_next hx
  · exact sound_finishOk h (not_resting_of_label hl rfl)
  · exact sound_raiseOp h (by decide) _

/-! ### EXECUTE and the engine -/

/-- A step that writes the engine, the encoder, `err_transport` and the ports alone. -/
theorem sound_of_engineInv {s : State} (h : Sound s) {n : Encoder} {e : Engine} {f : FaultFlags}
    (hi : EngineInv { s with enc := n, eng := e, flags := f })
    (he : e.state ≠ .idle → opWaiting s.seq.state = true ∨ opResting s = true) (p : Ports) :
    Sound { s with enc := n, eng := e, flags := f, ports := p } :=
  { h with
    engine := engineInv_congr hi s.dec s.ident s.pageDirty s.memImage s.seq p (f := f) rfl
    sequencer := seqInv_congr (seqInv_engine h.sequencer he) s.dec n s.ident f p }

theorem sound_collected {s : State} (h : Sound s) : Sound (collected s) :=
  sound_of_engineInv h (engineInv_collected h.engine) (fun hne => absurd rfl hne) s.ports

theorem sound_executeStart {s t : State} (h : Sound s) (hw : opWaiting s.seq.state = true ∨ opResting s = true)
    {op : Opcode} {p : List Byte} {e : Byte} (hx : executeStart (opcodeByte op) p e s = .next t) : Sound t := by
  obtain ⟨-, ⟨-, rfl⟩ | ⟨ht, hp, rfl⟩⟩ := executeStart_cases hx
  · exact sound_of_engineInv h
      (engineInv_done h.engine (o := .transportFailure) (by decide) h.engine.tmo_le h.engine.res_le s.eng.expected s.flags)
      (fun _ => hw) s.ports
  · exact sound_of_engineInv h (engineInv_started h.engine ht hp _ e) (fun _ => hw) s.ports

theorem sound_transportError {s : State} (h : Sound s) (he : s.eng.state ≠ .idle) : Sound (transportError s) :=
  sound_of_engineInv h
    (engineInv_done h.engine (o := .transportFailure) (by decide) h.engine.tmo_le h.engine.res_le s.eng.expected
      { s.flags with transport := true })
    (fun _ => h.sequencer.engine_waits he) s.ports

/-- `CHECK_WRITE` on a sending engine, to a state the engine's invariant allows (42_engine.md R214). -/
theorem sound_checkWrite {s : State} (h : Sound s) (he : s.eng.state ≠ .idle) {l : EngState}
    (hl : EngineInv { s with eng := { s.eng with state := l } }) (r : TxAnswer) (k : Nat) :
    Sound (checkWrite r k l s) := by
  unfold checkWrite
  split
  · exact sound_of_engineInv h (n := s.enc) (f := s.flags) hl (fun _ => h.sequencer.engine_waits he) s.ports
  · exact sound_transportError h he

/-- The wait begins with the whole budget (42_engine.md R211, R218). -/
theorem engineInv_poll_of_sending {s : State} (h : Sound s) (hs : engSending s.eng.state = true) :
    EngineInv { s with eng := { s.eng with state := .poll } } := by
  have hactive : engActive s.eng.state = true := by
    simp only [engSending, engActive, Bool.or_eq_true] at hs ⊢; exact .inl hs
  have htmo : s.eng.tmo < s.params.tmoIter := by rw [h.engine.tmo_sending hs]; exact h.params.tmoIter_pos
  exact engineInv_poll h.engine hactive htmo

theorem sound_ports {s : State} (h : Sound s) (p : Ports) : Sound { s with ports := p } :=
  sound_of_seqInv h h.sequencer p

theorem sound_firstWrite {s : State} (h : Sound s) (he : s.eng.state = .send1) : Sound (firstWrite s) := by
  obtain ⟨p, hp, -⟩ := txWrite_frame (s.enc.buf.take s.params.txChunk) s
  have hsending : engSending s.eng.state = true := by rw [he]; rfl
  have hu := sound_ports h p
  have hne : s.eng.state ≠ .idle := by rw [he]; decide
  unfold firstWrite
  dsimp only
  rw [hp]
  by_cases hlen : s.enc.len ≤ s.params.txChunk
  · rw [if_pos hlen]; exact sound_checkWrite hu hne (engineInv_poll_of_sending hu hsending) _ _
  · rw [if_neg hlen]
    exact sound_checkWrite hu hne (engineInv_split hu.engine hsending (.inl rfl) (Nat.lt_of_not_le hlen)) _ _

theorem sound_gapStep {s : State} (h : Sound s) (he : s.eng.state = .gap) : Sound (gapStep s) :=
  sound_of_engineInv h
    (engineInv_split h.engine (by rw [he]; rfl) (.inr rfl) (h.engine.tx_split (.inl he)))
    (fun _ => h.sequencer.engine_waits (by rw [he]; decide)) s.ports

theorem sound_secondWrite {s : State} (h : Sound s) (he : s.eng.state = .send2) : Sound (secondWrite s) := by
  obtain ⟨p, hp, -⟩ := txWrite_frame (s.enc.buf.drop s.params.txChunk) s
  have hu := sound_ports h p
  unfold secondWrite
  dsimp only
  rw [hp]
  exact sound_checkWrite hu (by rw [he]; decide) (engineInv_poll_of_sending hu (by rw [he]; rfl)) _ _

/-! ### The poll iteration -/

/-- The tick of an iteration in which no frame is ready (42_engine.md R218). -/
theorem sound_timeoutTick {s : State} (h : Sound s) (he : s.eng.state = .poll) : Sound (timeoutTick s) := by
  have hwait := h.sequencer.engine_waits (by rw [he]; decide)
  have htick := engineInv_timeoutTick h.engine he
  rw [timeoutTick_eq] at htick ⊢
  exact sound_of_engineInv h (n := s.enc) (f := s.flags) htick (fun _ => hwait) s.ports

/-- With budget for an iteration, a counter at zero does not expire. -/
theorem timeoutExpiry_of_tmo_zero {s : State} (h0 : s.eng.tmo = 0) (hi : 1 ≤ s.params.tmoIter) : timeoutExpiry s = s := by
  unfold timeoutExpiry
  rw [if_neg (by omega)]

/-- The ending of a verdict and its tick, on a polling engine with the frame still in the buffer (42_engine.md R225 to R229). -/
theorem sound_afterVerdict {s : State} (h : Sound { s with dec := Decoder.clear }) (he : s.eng.state = .poll)
    (hbuf : s.dec.cur ≤ s.params.rxCap) (v : Verdict) : Sound (afterVerdict v (ending v s)) := by
  have hwait : opWaiting s.seq.state = true ∨ opResting s = true := h.sequencer.engine_waits (by rw [he]; decide)
  have hzero : Sound { s with dec := Decoder.clear, eng := { s.eng with tmo := 0 } } := by
    have hi := engineInv_poll h.engine (n := 0) (by rw [he]; rfl) h.params.tmoIter_pos
    rw [← he] at hi
    exact sound_of_engineInv h (n := s.enc) (f := s.flags) hi (fun _ => hwait) s.ports
  have hfault (f : FaultFlags) (hf : f.transport = s.flags.transport) :
      Sound { s with dec := Decoder.clear, flags := f } :=
    sound_of_engineInv h (n := s.enc) (e := s.eng)
      (engineInv_congr h.engine Decoder.clear s.ident s.pageDirty s.memImage s.seq s.ports hf) (fun _ => hwait) s.ports
  cases v with
  | succeed =>
    exact sound_of_engineInv h (n := s.enc) (f := s.flags)
      (engineInv_done h.engine (o := .success) (by decide) h.engine.tmo_le hbuf s.eng.expected s.flags)
      (fun _ => hwait) s.ports
  | absorb | ignoreOther =>
    change Sound (timeoutExpiry (absorb s))
    rw [timeoutExpiry_of_tmo_zero (s := absorb s) rfl h.params.tmoIter_pos]
    exact hzero
  | malformed => exact sound_timeoutTick (hfault { s.flags with malformed := true } rfl) he
  | addrRange => exact sound_timeoutTick (hfault { s.flags with addrRange := true } rfl) he

/-- The side effect of a frame writes the two memories and the identification. -/
theorem sideEffect_frame (s : State) : ∃ i, sideEffect s =
    { s with ident := i, pageDirty := (sideEffect s).pageDirty, memImage := (sideEffect s).memImage } := by
  unfold sideEffect
  split
  · split <;> exact ⟨_, rfl⟩
  · split
    · split <;> exact ⟨_, rfl⟩
    · split
      · split <;> exact ⟨_, rfl⟩
      · exact ⟨_, rfl⟩

theorem sound_sideEffect {s : State} (h : Sound { s with dec := Decoder.clear }) (he : s.eng.state = .poll) :
    Sound { sideEffect s with dec := Decoder.clear } := by
  have hwait : opWaiting s.seq.state = true ∨ opResting s = true := h.sequencer.engine_waits (by rw [he]; decide)
  have hscan : s.seq.state ≠ .raScan := by
    intro hl; simp [opWaiting, opResting, hl] at hwait
  obtain ⟨hm, hmbg⟩ := imageInv_sideEffect (s := s) h.image
  obtain ⟨hb, hbbg⟩ := bitmapInv_sideEffect (s := s) h.bitmap
  obtain ⟨i, hi⟩ := sideEffect_frame s
  rw [hi]
  exact { h with
    engine := engineInv_congr h.engine _ i _ _ s.seq s.ports (f := s.flags) rfl
    sequencer := seqInv_congr (seqInv_memories h.sequencer hscan hbbg hmbg) _ s.enc i s.flags s.ports
    image := hm
    bitmap := hb }

/-- The second half of an iteration, with whatever the byte left in the decoder. -/
theorem sound_afterByte {s t : State} (h : Sound s) (he : s.eng.state = .poll) {d : Decoder} (hd : DecoderInv s.params d)
    (hx : afterByte { s with dec := d } = .next t) : Sound t := by
  have hclear : Sound { s with dec := Decoder.clear } := { h with
    decoder := decoderInv_clear _
    not_ready := rfl
    engine := { h.engine with }
    sequencer := { h.sequencer with } }
  obtain ⟨hr, rfl⟩ | ⟨-, rfl⟩ := afterByte_next hx
  · have hu : Sound { s with dec := d } := { hclear with
      decoder := hd
      not_ready := hr
      engine := { h.engine with }
      sequencer := { h.sequencer with } }
    exact sound_timeoutTick hu he
  · refine sound_afterVerdict (sound_sideEffect (s := { s with dec := d }) hclear he) ?_ ?_ _
    · rw [sideEffect_eng]; exact he
    · rw [sideEffect_dec, sideEffect_params]; exact hd.cur_le

theorem sound_pollIteration {s t : State} (h : Sound s) (he : s.eng.state = .poll) (hx : pollIteration s = .next t) :
    Sound t := by
  obtain ⟨p, hp, -⟩ := rxPoll_frame s
  have hu := sound_ports h p
  obtain ⟨-, rfl⟩ | ⟨-, hx⟩ | ⟨b, -, hr, hx⟩ := pollIteration_next hx
  · rw [hp]; exact sound_transportError hu (by rw [he]; decide)
  · rw [hp] at hx; exact sound_afterByte hu he h.decoder hx
  · rw [hp] at hx
    exact sound_afterByte hu he (decoderInv_wireStep h.params.framing.target hr h.decoder b) hx

/-! ### Collecting an outcome -/

theorem sound_onSuccess {s t : State} (h : Sound s) (he : s.eng.state = .idle) (hx : onSuccess s = .next t) : Sound t := by
  have hq := h.sequencer
  unfold onSuccess at hx
  cases hl : s.seq.state <;> simp only [hl] at hx <;> cases hx
  case idWait => exact sound_finishOk (sound_report h _ _) (not_resting_of_label hl rfl)
  case beWait => exact sound_finishOk h (not_resting_of_label hl rfl)
  case seWait => exact sound_advanceSector h he hl s.seq.anyFail s.ports
  case pgWait => exact sound_advancePage h he (not_resting_of_label hl rfl) (hq.addr_wait (.inr hl))
  case raStartWait => exact sound_goTo_raPass h he (by rw [hl]; rfl)
  case raWait =>
    exact sound_nextPage h he (by rw [hl]; rfl) (hq.page_wait hl) (by simp [hq.found_wait hl]) hq.fails_le

theorem sound_onTimeout {s t : State} (h : Sound s) (he : s.eng.state = .idle) (hx : onTimeout s = .next t) : Sound t := by
  have hq := h.sequencer
  unfold onTimeout at hx
  cases hl : s.seq.state <;> simp only [hl] at hx <;> cases hx
  case idWait => exact sound_raiseOp h (by decide) _
  case beWait => exact sound_raiseOp h (by decide) _
  case seWait => exact sound_advanceSector h he hl true _
  case pgWait => exact sound_programTimeout h he hl
  case raStartWait => exact sound_raiseOp h (by decide) _
  case raWait =>
    exact sound_nextPage h he (by rw [hl]; rfl) (hq.page_wait hl) (by simp [hq.found_wait hl])
      (Nat.succ_le_succ (hq.fails_wait hl))

theorem sound_collectOutcome {s t : State} (h : Sound s) (hx : collectOutcome s = .next t) : Sound t := by
  have hc := sound_collected h
  unfold collectOutcome at hx
  split at hx
  · exact sound_onSuccess hc rfl hx
  · exact sound_onTimeout hc rfl hx
  · cases hx; exact sound_raiseOp hc (by decide) _
  · cases hx

/-! ### The steps -/

theorem coreStep_keeps_sound {s t : State} (h : Sound s) (hx : coreStep s = .next t) : Sound t := by
  cases coreStep_case hx with
  | rest => exact h
  | execute _ hw hx => exact sound_executeStart h (.inl hw) hx
  | sectorNext he hl => exact sound_sectorNext h he hl
  | programNext he hl => exact sound_programNext h he hl
  | readAllInit he hl => exact sound_readAllInit h he hl
  | readAllPass he hl => exact sound_readAllPass h he (by rw [hl]; rfl)
  | scan he hl hx => exact sound_readAllScan h he hl hx
  | verify _ hl hx => exact sound_verifyRun h hl hx
  | firstWrite he => exact sound_firstWrite h he
  | gap he => exact sound_gapStep h he
  | secondWrite he => exact sound_secondWrite h he
  | poll he hx => exact sound_pollIteration h he hx
  | collect _ _ hx => exact sound_collectOutcome h hx

/-- The reset state is sound for any parameters that are (70_reset_and_hazards.md R371). -/
theorem sound_resetCore {s : State} (h : ParamsInv s.params) : Sound (resetCore s) where
  params := h
  decoder := decoderInv_clear _
  not_ready := rfl
  engine := by constructor <;> simp [State.reset, engActive, Engine.resLen, Encoder.len]
  sequencer := by constructor <;> simp [State.reset, opDumping, opResting]
  image := imageInv_blank _
  bitmap := bitmapInv_blank _

theorem firstLabel_busy (o : OpSel) :
    opDumping (firstLabel o) = false ∧ (firstLabel o == .idle || firstLabel o == .done) = false := by
  cases o <;> decide

theorem firstLabel_eq_seNext {o : OpSel} (h : firstLabel o = .seNext) : needsSource o = true := by cases o <;> trivial

theorem firstLabel_eq_vfRun {o : OpSel} (h : firstLabel o = .vfRun) : needsReadAll o = true := by cases o <;> trivial

theorem firstLabel_ne_wait (o : OpSel) : firstLabel o ≠ .seWait ∧ firstLabel o ≠ .pgWait := by cases o <;> decide

/-- The registers a start latches are in their ranges (44_flash_operations.md R280, 10_state.md R39). -/
theorem seqInv_latchArgs {a : OpArgs} {s : State} (h : SeqInv s) (he : s.eng.state = .idle)
    (hv : (needsReadAll a.sel && !s.seq.readAllOk) = false) : SeqInv (latchArgs a s) := by
  obtain ⟨hdump, hrest⟩ := firstLabel_busy a.sel
  have notDumping {l : OpState} (hl : firstLabel a.sel = l) : opDumping l = true → False := by
    rw [← hl, hdump]; exact nofun
  exact { h with
    engine_waits := fun hne => absurd he hne
    src_le := latchedLen_le _ _
    ref_le := latchedLen_le _ _
    addr_le := by simp only [latchArgs]; split; exacts [Nat.zero_le _, h.addr_le]
    addr_page := by simp only [latchArgs]; split; exacts [Nat.zero_mod _, h.addr_page]
    addr_sector := fun hl => by
      have hsel := firstLabel_eq_seNext (hl.resolve_right (firstLabel_ne_wait a.sel).1)
      simp only [latchArgs, hsel, if_true, Nat.zero_mod]
    addr_wait := fun hl => absurd hl (by simpa [latchArgs] using firstLabel_ne_wait a.sel)
    page_wait := fun hl => (notDumping hl rfl).elim
    found_wait := fun hl => (notDumping hl rfl).elim
    fails_wait := fun hl => (notDumping hl rfl).elim
    scan_clean := fun hl => (notDumping hl rfl).elim
    dump_filled := fun hd => (notDumping rfl hd).elim
    dump_marked := fun hd => (notDumping rfl hd).elim
    status_busy := fun _ => rfl
    status_rest := fun hr => absurd (hrest.symm.trans hr) (by decide)
    err_none := fun _ => rfl
    err_fail := nofun
    verify_after_read_all := fun hl => by
      have hok : s.seq.readAllOk = true := by simpa [firstLabel_eq_vfRun hl] using hv
      exact hok }

theorem sound_startOp {a : OpArgs} {s t : State} (h : Sound s) (hx : startOp a s = .next t) : Sound t := by
  obtain ⟨-, he, -, -, hv, -, -, rfl⟩ := startOp_next hx
  exact { h with
    engine := engineInv_congr h.engine s.dec s.ident s.pageDirty s.memImage _ _ (f := s.flags) rfl
    sequencer := seqInv_latchArgs h.sequencer he hv }

theorem step_keeps_sound {s t : State} (h : Sound s) (hx : step s = .next t) : Sound t := by
  cases step_case hx with
  | core ms hx => exact coreStep_keeps_sound (sound_setMoves h ms) hx
  | start a ms hx => exact sound_startOp (sound_setMoves h ms) hx
  | execute ms hr hx => exact sound_executeStart (sound_setMoves h ms) (.inr hr) hx
  | collect ms => exact sound_collected (sound_setMoves h ms)
  | dump => exact sound_ports h _
  | reset => exact sound_resetCore h.params

end Sys2Proof.Machine
end

