-- ==== Sys2Proof/Proofs/StepFrames.lean ====
section
/-! PROOFS. Proofs/StepFrames.lean: what every step leaves as it is: the parameters always, and the flags, the report stream, the
offered bytes, the bitmap and the image except where the rules write them. -/

namespace Sys2Proof.Machine

/-- Sequencer work: the engine's registers, the sequencer's, and at most one report; nothing else. -/
def SeqFrame (s t : State) : Prop :=
  ∃ e q r, t = { s with eng := e, seq := q, ports := { s.ports with reports := r } } ∧
    (r = s.ports.reports ∨ ∃ x, r = s.ports.reports ++ [x])

theorem seqFrame_quiet (s : State) (e : Engine) (q : Sequencer) : SeqFrame s { s with eng := e, seq := q } :=
  ⟨e, q, _, rfl, .inl rfl⟩

theorem seqFrame_report (s : State) (e : Engine) (q : Sequencer) (x : Report) :
    SeqFrame s { s with eng := e, seq := q, ports := { s.ports with reports := s.ports.reports ++ [x] } } :=
  ⟨e, q, _, rfl, .inr ⟨x, rfl⟩⟩

theorem sectorNext_frame (s : State) : SeqFrame s (sectorNext s) := by
  unfold sectorNext
  split
  · exact seqFrame_quiet s s.eng _
  · split <;> exact seqFrame_quiet s s.eng _

theorem programNext_frame (s : State) : SeqFrame s (programNext s) := by
  unfold programNext
  split
  · split <;> exact seqFrame_quiet s s.eng _
  · exact seqFrame_quiet s s.eng _

theorem readAllScan_frame {s t : State} (h : readAllScan s = .next t) : SeqFrame s t := by
  obtain ⟨-, -, rfl⟩ | ⟨-, -, rfl⟩ | ⟨-, -, rfl⟩ | ⟨-, -, rfl⟩ := readAllScan_next h
  · unfold dirtyPage
    split
    · exact seqFrame_report s s.eng _ _
    · exact seqFrame_quiet s s.eng _
  all_goals exact seqFrame_quiet s s.eng _

theorem verifyRun_frame {s t : State} (h : verifyRun s = .next t) : SeqFrame s t := by
  obtain rfl | ⟨a, rfl⟩ := verifyRun_next h
  · exact seqFrame_quiet s s.eng _
  · exact seqFrame_report s s.eng _ _

theorem onSuccess_frame {s t : State} (h : onSuccess (collected s) = .next t) : SeqFrame s t := by
  unfold onSuccess at h
  cases hl : s.seq.state <;> simp only [collected_seq, hl] at h <;> cases h
  case idWait => exact seqFrame_report s _ _ _
  all_goals exact seqFrame_quiet s _ _

theorem programTimeout_frame (s : State) : SeqFrame s (programTimeout (collected s)) := by
  unfold programTimeout
  dsimp only
  split <;> exact seqFrame_report s _ _ _

theorem onTimeout_frame {s t : State} (h : onTimeout (collected s) = .next t) : SeqFrame s t := by
  unfold onTimeout at h
  cases hl : s.seq.state <;> simp only [collected_seq, hl] at h <;> cases h
  case pgWait => exact programTimeout_frame s
  case raWait => exact seqFrame_quiet s _ _
  all_goals exact seqFrame_report s _ _ _

theorem collectOutcome_frame {s t : State} (h : collectOutcome s = .next t) : SeqFrame s t := by
  unfold collectOutcome at h
  split at h
  · exact onSuccess_frame h
  · exact onTimeout_frame h
  · cases h; exact seqFrame_report s _ _ _
  · cases h

/-- No sticky flag is cleared (10_state.md R43, R44). -/
def FlagsKept (f g : FaultFlags) : Prop :=
  (f.malformed = true → g.malformed = true) ∧ (f.addrRange = true → g.addrRange = true) ∧
    (f.transport = true → g.transport = true)

/-- One write: the bytes offered are recorded, the engine moves, and a short answer raises `err_transport` (42_engine.md R214). -/
def WriteFrame (bytes : List Byte) (s t : State) : Prop :=
  ∃ e f q, t = { s with eng := e, flags := f, ports := q } ∧ FlagsKept s.flags f ∧ q.reports = s.ports.reports ∧
    q.wireOut = s.ports.wireOut ++ [bytes]

theorem checkWrite_txWrite_frame (bytes : List Byte) (k : Nat) (l : EngState) (s : State) :
    WriteFrame bytes s (checkWrite (txWrite bytes s).1 k l (txWrite bytes s).2) := by
  obtain ⟨q, hq, hrep, hout, -⟩ := txWrite_frame bytes s
  obtain ⟨e, f, hc, hm, ha, ht⟩ := checkWrite_frame (txWrite bytes s).1 k l (txWrite bytes s).2
  rw [hc]
  simp only [hq] at hm ha ht ⊢
  exact ⟨e, f, q, rfl, ⟨hm.trans, ha.trans, ht⟩, hrep, hout⟩

theorem firstWrite_frame (s : State) : WriteFrame (s.enc.buf.take s.params.txChunk) s (firstWrite s) :=
  checkWrite_txWrite_frame _ _ _ s

theorem secondWrite_frame (s : State) : WriteFrame (s.enc.buf.drop s.params.txChunk) s (secondWrite s) :=
  checkWrite_txWrite_frame _ _ _ s

/-- A poll iteration: it neither reports nor offers bytes, writes no sequencer register, and of the bitmap at most clears a page. -/
def PollFrame (s t : State) : Prop :=
  ∃ d e i b m f q, t = { s with dec := d, eng := e, ident := i, pageDirty := b, memImage := m, flags := f, ports := q } ∧
    FlagsKept s.flags f ∧ q.reports = s.ports.reports ∧ q.wireOut = s.ports.wireOut ∧
    (b = s.pageDirty ∨ ∃ n, b = ptClear s.pageDirty n)

theorem timeoutTick_frame (s : State) : PollFrame s (timeoutTick s) := by
  rw [timeoutTick_eq]
  exact ⟨_, _, _, _, _, _, _, rfl, ⟨id, id, id⟩, rfl, rfl, .inl rfl⟩

theorem classify_frame (v : Verdict) (s : State) : PollFrame s (afterVerdict v (ending v (sideEffect s))) := by
  obtain ⟨i, hi⟩ := sideEffect_frame s
  have hb : (sideEffect s).pageDirty = s.pageDirty ∨ ∃ n, (sideEffect s).pageDirty = ptClear s.pageDirty n :=
    (sideEffect_pageDirty s).imp_right fun h => ⟨_, h.2⟩
  rw [hi]
  generalize (sideEffect s).pageDirty = b at hb
  generalize (sideEffect s).memImage = m
  obtain ⟨e, f, he, hm, ha, ht⟩ := ending_frame v { s with ident := i, pageDirty := b, memImage := m }
  rw [he]
  obtain ⟨e', ht'⟩ := afterVerdict_frame v { s with
    ident := i, pageDirty := b, memImage := m, dec := Decoder.clear, eng := e, flags := f }
  exact ⟨_, e', i, b, m, f, s.ports, ht', ⟨hm, ha, ht.trans⟩, rfl, rfl, hb⟩

theorem afterByte_frame {s t : State} (h : afterByte s = .next t) : PollFrame s t := by
  obtain ⟨-, rfl⟩ | ⟨-, rfl⟩ := afterByte_next h
  · exact timeoutTick_frame s
  · exact classify_frame _ s

theorem pollIteration_frame {s t : State} (h : pollIteration s = .next t) : PollFrame s t := by
  obtain ⟨q, hq, hrep, hout, -⟩ := rxPoll_frame s
  obtain ⟨-, rfl⟩ | ⟨-, h⟩ | ⟨b, -, -, h⟩ := pollIteration_next h <;> rw [hq] at *
  · exact ⟨_, _, _, _, _, _, q, rfl, ⟨id, id, fun _ => rfl⟩, hrep, hout, .inl rfl⟩
  all_goals
    obtain ⟨d, e, i, b, m, f, p, rfl, hf, hr, hw, hb⟩ := afterByte_frame h
    exact ⟨d, e, i, b, m, f, p, rfl, hf, hr.trans hrep, hw.trans hout, hb⟩

/-- What a step of the core does to the components that the rules of the whole machine speak of. -/
structure CoreEffects (s t : State) : Prop where
  params : t.params = s.params
  flags : FlagsKept s.flags t.flags
  reports : t.ports.reports = s.ports.reports ∨ ∃ r, t.ports.reports = s.ports.reports ++ [r]
  wireOut : t.ports.wireOut = s.ports.wireOut ∨
    (s.eng.state = .send1 ∧ t.ports.wireOut = s.ports.wireOut ++ [s.enc.buf.take s.params.txChunk]) ∨
    (s.eng.state = .send2 ∧ t.ports.wireOut = s.ports.wireOut ++ [s.enc.buf.drop s.params.txChunk])
  pageDirty : t.pageDirty = s.pageDirty ∨ (∃ n, t.pageDirty = ptClear s.pageDirty n) ∨ s.seq.state = .raInit
  memImage : t.memImage = s.memImage ∨ (s.eng.state = .idle ∧ s.seq.state = .raInit) ∨
    (s.eng.state = .poll ∧ pollIteration s = .next t)

theorem FlagsKept.refl (f : FaultFlags) : FlagsKept f f := ⟨id, id, id⟩

theorem SeqFrame.effects {s t : State} (h : SeqFrame s t) : CoreEffects s t := by
  obtain ⟨e, q, r, rfl, hr⟩ := h
  exact ⟨rfl, .refl _, hr, .inl rfl, .inl rfl, .inl rfl⟩

theorem PollFrame.effects {s t : State} (he : s.eng.state = .poll) (hx : pollIteration s = .next t) (h : PollFrame s t) :
    CoreEffects s t := by
  obtain ⟨d, e, i, b, m, f, q, rfl, hf, hr, hw, hb⟩ := h
  exact ⟨rfl, hf, .inl hr, .inl hw, hb.imp_right .inl, .inr (.inr ⟨he, hx⟩)⟩

/-- EXECUTE writes the encoder and the engine. -/
theorem executeStart_frame {op : Byte} {p : List Byte} {e : Byte} {s t : State} (h : executeStart op p e s = .next t) :
    ∃ n g, t = { s with enc := n, eng := g } := by
  obtain ⟨-, ⟨-, rfl⟩ | ⟨-, -, rfl⟩⟩ := executeStart_cases h <;> exact ⟨_, _, rfl⟩

theorem coreStep_effects {s t : State} (h : coreStep s = .next t) : CoreEffects s t := by
  cases coreStep_case h with
  | rest => exact (seqFrame_quiet s s.eng s.seq).effects
  | execute _ _ hx =>
    obtain ⟨n, g, rfl⟩ := executeStart_frame hx
    exact ⟨rfl, .refl _, .inl rfl, .inl rfl, .inl rfl, .inl rfl⟩
  | sectorNext => exact (sectorNext_frame s).effects
  | programNext => exact (programNext_frame s).effects
  | readAllInit he hl => exact ⟨rfl, .refl _, .inl rfl, .inl rfl, .inr (.inr hl), .inr (.inl ⟨he, hl⟩)⟩
  | readAllPass => exact (seqFrame_quiet s s.eng _).effects
  | scan _ _ hx => exact (readAllScan_frame hx).effects
  | verify _ _ hx => exact (verifyRun_frame hx).effects
  | firstWrite he =>
    obtain ⟨e, f, q, ht, hf, hr, hw⟩ := firstWrite_frame s
    rw [ht]
    exact ⟨rfl, hf, .inl hr, .inr (.inl ⟨he, hw⟩), .inl rfl, .inl rfl⟩
  | gap => exact (seqFrame_quiet s _ s.seq).effects
  | secondWrite he =>
    obtain ⟨e, f, q, ht, hf, hr, hw⟩ := secondWrite_frame s
    rw [ht]
    exact ⟨rfl, hf, .inl hr, .inr (.inr ⟨he, hw⟩), .inl rfl, .inl rfl⟩
  | poll he hx => exact (pollIteration_frame hx).effects he hx
  | collect _ _ hx => exact (collectOutcome_frame hx).effects

/-- What the caller's own moves but RESET write: the encoder, the engine, the sequencer, and of the ports neither the report stream
nor the record of what was offered. -/
inductive StepFrame (s t : State) : Prop where
  | core (ms : List CallerMove) : coreStep (setMoves ms s) = .next t → StepFrame s t
  | caller (n : Encoder) (e : Engine) (q : Sequencer) (p : Ports) : t = { s with enc := n, eng := e, seq := q, ports := p } →
      p.reports = s.ports.reports → p.wireOut = s.ports.wireOut → StepFrame s t
  | reset {ms : List CallerMove} : s.ports.moves = .reset :: ms → t = resetCore (setMoves ms s) → StepFrame s t

theorem step_frame {s t : State} (h : step s = .next t) : StepFrame s t := by
  cases step_case h with
  | core ms hx => exact .core ms hx
  | start a ms hx =>
    obtain ⟨-, -, -, -, -, -, -, rfl⟩ := startOp_next hx
    exact .caller s.enc s.eng _ _ rfl rfl rfl
  | execute ms _ hx => obtain ⟨n, g, rfl⟩ := executeStart_frame hx; exact .caller n g s.seq _ rfl rfl rfl
  | collect ms => exact .caller s.enc _ s.seq _ rfl rfl rfl
  | dump => exact .caller s.enc s.eng s.seq _ rfl rfl rfl
  | reset hm => exact .reset hm rfl

theorem step_params {s t : State} (h : step s = .next t) : t.params = s.params := by
  cases step_frame h with
  | core ms hx => exact (coreStep_effects hx).params.trans (setMoves_params ms s)
  | caller n e q p h => rw [h]
  | reset _ h => rw [h]; rfl

/-! ### The rules of the whole machine -/

/-- Settles O53: by the case of the step, the invariant is kept part by part, and no case writes the parameters. -/
theorem stepKeepsTheStateSound : Obligations.StepKeepsTheStateSound := fun _ _ h hx =>
  ⟨step_keeps_sound h hx, step_params hx⟩

/-- Settles O58: the core keeps the flags or raises some, the caller's moves but RESET do not write them. -/
theorem faultFlagsAreStickyUntilReset : Obligations.FaultFlagsAreStickyUntilReset := by
  intro s t hreset h
  cases step_frame h with
  | core ms hx => exact (coreStep_effects hx).flags
  | caller _ _ _ _ h => rw [h]; exact FlagsKept.refl _
  | reset hm => exact absurd hm (hreset _)

/-- Settles O59: only sequencer work reports, once. -/
theorem reportsAreAppendedAtMostOneAStep : Obligations.ReportsAreAppendedAtMostOneAStep := by
  intro s t hreset h
  cases step_frame h with
  | core ms hx => exact (coreStep_effects hx).reports
  | caller _ _ _ _ h hr => rw [h]; exact .inl hr
  | reset hm => exact absurd hm (hreset _)

/-- Settles O60: only the two writes offer bytes. -/
theorem onlyASendingEngineWritesToTheTransport : Obligations.OnlyASendingEngineWritesToTheTransport := by
  intro s t h
  cases step_frame h with
  | core ms hx => exact (coreStep_effects hx).wireOut
  | caller _ _ _ _ h _ hw => rw [h]; exact .inl hw
  | reset _ h => rw [h]; exact .inl rfl

end Sys2Proof.Machine
end

