-- ==== Sys2Proof/Proofs/PageTracker.lean ====
section
/-! PROOFS. Proofs/PageTracker.lean: the Page Bitmap and its count (43_page_tracker.md R261 to R265), and which steps lower it. -/

namespace Sys2Proof.Machine

theorem ptTest_ptInit (p : Nat) : ptTest ptInit p = some true := rfl

theorem ptTest_ptClear {d : Memory Bool} (h : d.wf) (p q : Nat) :
    ptTest (ptClear d p) q = if q = p then some false else ptTest d q := read_write h p false q

theorem ptCount_ptInit (n : Nat) : ptCount n ptInit = n := by
  simp [ptCount, ptTest_ptInit]

theorem ptCount_eq_zero {n : Nat} {d : Memory Bool} (h : ∀ p < n, ptTest d p ≠ some true) : ptCount n d = 0 := by
  simpa [ptCount] using h

/-- A predicate switched off at one number below `n` counts one less there, if it held. -/
theorem countP_range_switchOff {f g : Nat → Bool} {p : Nat} (hp : g p = false) (hg : ∀ q, q ≠ p → g q = f q) {n : Nat}
    (h : p < n) : (List.range n).countP f = (List.range n).countP g + if f p then 1 else 0 := by
  induction n with
  | zero => exact absurd h (Nat.not_lt_zero p)
  | succ n ih =>
    simp only [List.range_succ, List.countP_append, List.countP_singleton]
    obtain h | rfl := Nat.lt_succ_iff_lt_or_eq.1 h
    · rw [ih h, hg n (Nat.ne_of_gt h)]; omega
    · have below : (List.range p).countP g = (List.range p).countP f :=
        List.countP_congr fun q hq => by rw [hg q (Nat.ne_of_lt (List.mem_range.1 hq))]
      rw [below, hp]
      rfl

theorem ptCount_ptClear {d : Memory Bool} (h : d.wf) {n p : Nat} (hp : p < n) :
    ptCount n d = ptCount n (ptClear d p) + if ptTest d p = some true then 1 else 0 := by
  have off : (ptTest (ptClear d p) p == some true) = false := by rw [ptTest_ptClear h, if_pos rfl]; rfl
  have others (q : Nat) (hq : q ≠ p) : (ptTest (ptClear d p) q == some true) = (ptTest d q == some true) := by
    rw [ptTest_ptClear h, if_neg hq]
  simpa [ptCount] using countP_range_switchOff (f := fun q => ptTest d q == some true) off others hp

/-- Settles O27: clearing is a write of one bit, and switches the count's predicate off at one page. -/
theorem pageTrackerClearsOnePageAndCounts : Obligations.PageTrackerClearsOnePageAndCounts :=
  ⟨ptTest_ptInit, ptCount_ptInit, fun _ _ p h hp => ⟨ptTest_ptClear h p, ptCount_ptClear h hp⟩⟩

/-- No page becomes dirty by clearing one, in range or not. -/
theorem ptCount_ptClear_le {d : Memory Bool} (h : d.wf) (n p : Nat) : ptCount n (ptClear d p) ≤ ptCount n d := by
  refine List.countP_mono_left fun q _ hq => ?_
  rw [ptTest_ptClear h] at hq
  split at hq
  · cases hq
  · exact hq

/-- Settles O56: outside RA_INIT a step leaves the bitmap, clears a page, or is RESET, after which no bit has a value. -/
theorem dirtyCountNeverRisesBetweenInits : Obligations.DirtyCountNeverRisesBetweenInits := by
  intro s t hwf hinit h
  cases step_frame h with
  | core ms hx =>
    obtain e | ⟨p, e⟩ | hl := (coreStep_effects hx).pageDirty
    · rw [e]; exact Nat.le_refl _
    · rw [e]; exact ptCount_ptClear_le hwf _ p
    · exact absurd hl hinit
  | caller _ _ _ _ h => rw [h]
  | reset _ h =>
    have unvalued : ptCount s.params.pageCount t.pageDirty = 0 := by rw [h]; exact ptCount_eq_zero fun _ _ => nofun
    rw [unvalued]
    exact Nat.zero_le _

/-- At a label that neither waits nor rests, a sound engine is idle (10_state.md R38). -/
theorem eng_idle_of_label {s : State} (h : SeqInv s) {l : OpState} (hl : s.seq.state = l) (hw : opWaiting l = false)
    (hr : (l == .idle || l == .done) = false) : s.eng.state = .idle := by
  by_contra hne
  obtain hx | hx := h.engine_waits hne
  · rw [hl, hw] at hx; cases hx
  · rw [opResting, hl, hr] at hx; cases hx

/-- Settles O55: the scan ends with `S_OK` only past the last page of a pass that met no dirty page, which by `scan_clean` passed
only clean ones; every other step of the scan leaves `S_BUSY` or `S_FAIL`. -/
theorem readAllEndsOkOnlyWithNoDirtyPage : Obligations.ReadAllEndsOkOnlyWithNoDirtyPage := by
  intro s t h hl hx hok
  have hq := h.sequencer
  have hbusy : s.seq.status = .busy := hq.status_busy (not_resting_of_label hl rfl)
  rw [coreStep_raScan (eng_idle_of_label hq hl rfl rfl) hl] at hx
  obtain ⟨-, -, rfl⟩ | ⟨-, -, rfl⟩ | ⟨-, -, rfl⟩ | ⟨hend, hfound, rfl⟩ := readAllScan_next hx
  · unfold dirtyPage at hok
    split at hok
    · cases hok
    · exact absurd (hbusy.symm.trans hok) (by decide)
  · exact absurd (hbusy.symm.trans hok) (by decide)
  · exact absurd (hbusy.symm.trans hok) (by decide)
  · refine ptCount_eq_zero fun p hp => ?_
    rw [finishReadAll_pageDirty, hq.scan_clean hl hfound p (Nat.lt_of_lt_of_le hp hend)]
    decide

end Sys2Proof.Machine
end

