-- ==== Sys2Proof/Proofs/ImageWrites.lean ====
section
/-! PROOFS. Proofs/ImageWrites.lean: what can change a byte of the Memory Image (20_memory.md R71, 90_conflicts.md C5). -/

namespace Sys2Proof.Machine

theorem afterByte_memImage {s t : State} (h : afterByte s = .next t) :
    t.memImage = s.memImage ∨ (s.dec.ready = true ∧ t.memImage = (sideEffect s).memImage) := by
  obtain ⟨-, rfl⟩ | ⟨hr, rfl⟩ := afterByte_next h
  · rw [timeoutTick_eq]; exact .inl rfl
  · obtain ⟨e, he⟩ := afterVerdict_frame (classifyVerdict s) (ending (classifyVerdict s) (sideEffect s))
    rw [he]
    exact .inr ⟨hr, ending_memImage _ _⟩

/-- Only the delimiter, on a sum that is the target, makes a frame ready, and it leaves the buffer (40_codec.md R141). -/
theorem wireStep_ready {p : Params} {b : Byte} {d : Decoder} (hr : d.ready = false) (h : (wireStep p b d).ready = true) :
    b = p.fend ∧ d.sum = p.csTarget ∧ wireStep p b d = { d with ready := true } := by
  obtain hx | ⟨-, -, e⟩ | ⟨-, e⟩ | ⟨-, -, e⟩ | ⟨-, -, v, e⟩ := wireStep_cases p b d
  · exact hx
  all_goals simp [e, hr, Decoder.clear] at h

/-- A poll iteration from no ready frame writes the image only when its byte completes a READ frame in range. -/
theorem pollIteration_memImage {s t : State} (hr : s.dec.ready = false) (h : pollIteration s = .next t) :
    t.memImage = s.memImage ∨
    ((rxPoll s).1 = .byte s.params.fend ∧ s.dec.sum = s.params.csTarget ∧ frameByte s.dec 0 = 0x03#8 ∧
      s.params.readMin ≤ s.dec.cur ∧ framePage s.dec < s.params.pageCount ∧
      t.memImage = s.memImage.writeBytes (framePage s.dec * s.params.pageSize) (frameData s.params s.dec)) := by
  obtain ⟨q, hq, -⟩ := rxPoll_frame s
  obtain ⟨-, rfl⟩ | ⟨-, h⟩ | ⟨b, hb, -, h⟩ := pollIteration_next h <;> rw [hq] at *
  · exact .inl rfl
  · obtain e | ⟨hready, -⟩ := afterByte_memImage h
    · exact .inl e
    · exact absurd (hr.symm.trans hready) (by decide)
  · obtain e | ⟨hready, e⟩ := afterByte_memImage h
    · exact .inl e
    · obtain ⟨rfl, hsum, hd⟩ := wireStep_ready hr hready
      obtain e' | ⟨htag, hlen, hpage, e'⟩ := sideEffect_memImage
          { s with ports := q, dec := wireStep s.params s.params.fend s.dec }
      · exact .inl (e.trans e')
      · rw [hd] at htag hlen hpage
        refine .inr ⟨hb, hsum, htag, hlen, hpage, e.trans (e'.trans ?_)⟩
        rw [hd]
        rfl

/-- What the Transport answers does not depend on the caller's moves. -/
theorem rxPoll_setMoves (ms : List CallerMove) (s : State) : (rxPoll (setMoves ms s)).1 = (rxPoll s).1 := by
  unfold rxPoll
  rw [setMoves_ports]
  split <;> rename_i hs <;> simp only at hs <;> rw [hs]

/-- The bytes a READ frame writes are those of the page it names (30_encoding.md R113). -/
theorem page_of_read_writeBytes_ne {p : Params} {m : Memory Byte} {d : Decoder} {a : Nat} (hwf : m.wf)
    (h : (m.writeBytes (framePage d * p.pageSize) (frameData p d)).read a ≠ m.read a) : a / p.pageSize = framePage d := by
  have hlen := frameData_length_le p d
  rw [read_writeBytes _ hwf] at h
  have inside : framePage d * p.pageSize ≤ a ∧ a < framePage d * p.pageSize + (frameData p d).length := by
    by_contra outside
    rw [if_neg outside] at h
    exact h rfl
  refine Nat.div_eq_of_lt_le inside.1 ?_
  rw [Nat.succ_mul]
  omega

/-- Settles O57: by the case of the step; a poll writes only when its byte completes a READ frame in range. -/
theorem onlyReadFramesAndInitialisationWriteTheImage : Obligations.OnlyReadFramesAndInitialisationWriteTheImage := by
  intro s t a hwf hr h hne
  cases step_frame h with
  | core ms hx =>
    obtain e | init | ⟨he, hx⟩ := (coreStep_effects hx).memImage
    · rw [e] at hne; exact absurd rfl hne
    · exact .inr (.inl init)
    · obtain e | ⟨hb, hsum, htag, hlen, hpage, e⟩ := pollIteration_memImage (s := setMoves ms s) hr hx <;> rw [e] at hne
      · exact absurd rfl hne
      · have hdiv := page_of_read_writeBytes_ne (p := s.params) (d := s.dec) hwf hne
        exact .inr (.inr ⟨he, (rxPoll_setMoves ms s).symm.trans hb, hsum, htag, hlen, hdiv, hdiv.symm ▸ hpage⟩)
  | caller _ _ _ _ h => rw [h] at hne; exact absurd rfl hne
  | reset hm => exact .inl ⟨_, hm⟩

end Sys2Proof.Machine
end

