-- ==== Sys2Proof/Proofs/Caller.lean ====
section
/-! PROOFS. Proofs/Caller.lean: the moves of the caller (44_flash_operations.md R280, 42_engine.md R210, R230,
70_reset_and_hazards.md R370, R376): which are accepted, what they latch, and the names of the refusals. -/

namespace Sys2Proof.Machine

theorem opResting_eq_false {s : State} (h : ¬(s.seq.state = .idle ∨ s.seq.state = .done)) : opResting s = false := by
  rw [← opResting_iff] at h
  simpa using h

/-! ### Starting an operation -/

theorem step_start {s : State} {a : OpArgs} {rest : List CallerMove} (h : s.ports.moves = .start a :: rest) :
    step s = startOp a (setMoves rest s) := step_cons h nofun

theorem startOp_busy {a : OpArgs} {s : State} (h : opResting s = false) : startOp a s = .refused .operationInProgress := by
  simp [startOp, h]

theorem startOp_engineBusy {a : OpArgs} {s : State} (hr : opResting s = true) (he : s.eng.state ≠ .idle) :
    startOp a s = .refused .engineBusy := by
  simp [startOp, hr, he]

/-- At rest a start goes through the requirements of R376 and U9 in this order. -/
theorem startOp_at_rest {a : OpArgs} {s : State} (hr : opResting s = true) (he : s.eng.state = .idle) :
    startOp a s =
      if needsSource a.sel && a.source.isNone then .refused .sourceNotBound
      else if needsReference a.sel && a.reference.isNone then .refused .referenceNotBound
      else if needsReadAll a.sel && !s.seq.readAllOk then .refused .noReadAllSinceReset
      else if needsSource a.sel && s.params.imageSize < imageLen a.source then .refused (.imageTooLarge (imageLen a.source))
      else if needsReference a.sel && s.params.imageSize < imageLen a.reference then
        .refused (.imageTooLarge (imageLen a.reference))
      else .next (latchArgs a s) := by
  simp only [startOp, hr, he, Bool.not_true, Bool.false_eq_true, ne_eq, not_true, if_false]

/-- Only sector erase and program read the source image, and neither reads the reference (70_reset_and_hazards.md R376). -/
theorem needsSource_iff (o : OpSel) : needsSource o = true ↔ o = .sectorErase ∨ o = .program := by
  cases o <;> simp [needsSource]

theorem needsReference_iff (o : OpSel) : needsReference o = true ↔ o = .verify := by
  cases o <;> simp [needsReference]

theorem needsReadAll_iff (o : OpSel) : needsReadAll o = true ↔ o = .verify := by
  cases o <;> simp [needsReadAll]

theorem needsReference_of_needsSource {o : OpSel} (h : needsSource o = true) :
    needsReference o = false ∧ needsReadAll o = false := by
  cases o <;> simp_all [needsSource, needsReference, needsReadAll]

section refusals
variable {a : OpArgs} {s : State}

theorem startOp_noSource (hr : opResting s = true) (he : s.eng.state = .idle) (hs : needsSource a.sel = true)
    (ha : a.source = none) : startOp a s = .refused .sourceNotBound := by
  simp [startOp_at_rest hr he, hs, ha]

theorem startOp_noReference (hr : opResting s = true) (he : s.eng.state = .idle) (hs : a.sel = .verify)
    (ha : a.reference = none) : startOp a s = .refused .referenceNotBound := by
  simp [startOp_at_rest hr he, hs, ha, needsSource, needsReference]

theorem startOp_noReadAll (hr : opResting s = true) (he : s.eng.state = .idle) (hs : a.sel = .verify)
    (ha : a.reference ≠ none) (hok : s.seq.readAllOk = false) : startOp a s = .refused .noReadAllSinceReset := by
  simp [startOp_at_rest hr he, hs, ha, hok, needsSource, needsReference, needsReadAll]

theorem startOp_sourceTooLarge (hr : opResting s = true) (he : s.eng.state = .idle) (hs : needsSource a.sel = true)
    {i : Image} (ha : a.source = some i) (hlen : s.params.imageSize < i.len) :
    startOp a s = .refused (.imageTooLarge i.len) := by
  simp [startOp_at_rest hr he, hs, ha, needsReference_of_needsSource hs, imageLen, hlen]

theorem startOp_referenceTooLarge (hr : opResting s = true) (he : s.eng.state = .idle) (hs : a.sel = .verify)
    {i : Image} (ha : a.reference = some i) (hok : s.seq.readAllOk = true) (hlen : s.params.imageSize < i.len) :
    startOp a s = .refused (.imageTooLarge i.len) := by
  simp [startOp_at_rest hr he, hs, ha, hok, needsSource, needsReference, imageLen, hlen]

end refusals

/-- Settles O48: the five refusals of a start at rest. -/
theorem startIsRefusedWithoutItsRequirements : Obligations.StartIsRefusedWithoutItsRequirements := by
  intro s a rest hm hrest he
  have hr : opResting (setMoves rest s) = true := (opResting_iff s).2 hrest
  have source := (needsSource_iff a.sel).2
  rw [step_start hm]
  exact ⟨fun hs ha => startOp_noSource hr he (source hs) ha, startOp_noReference hr he, startOp_noReadAll hr he,
    fun i hs ha hlen => startOp_sourceTooLarge hr he (source hs) ha hlen,
    fun i hs ha hok hlen => startOp_referenceTooLarge hr he hs ha hok hlen⟩

theorem imageLen_eq (i : Option Image) : imageLen i = (i.map Image.len).getD 0 := by cases i <;> rfl

theorem imageCells_eq (i : Option Image) : imageCells i = (i.map Image.cells).getD [] := by cases i <;> rfl

/-- A start whose requirements are met latches the arguments. -/
theorem startOp_accepted {a : OpArgs} {s : State} (hr : opResting s = true) (he : s.eng.state = .idle)
    (hs : a.sel = .sectorErase ∨ a.sel = .program → ∃ i, a.source = some i ∧ i.len ≤ s.params.imageSize)
    (hv : a.sel = .verify → s.seq.readAllOk = true ∧ ∃ i, a.reference = some i ∧ i.len ≤ s.params.imageSize) :
    startOp a s = .next (latchArgs a s) := by
  rw [← needsSource_iff] at hs
  rw [← needsReference_iff] at hv
  have hsource (h : needsSource a.sel = true) : a.source.isNone = false ∧ imageLen a.source ≤ s.params.imageSize := by
    obtain ⟨i, hi, hlen⟩ := hs h; rw [hi]; exact ⟨rfl, hlen⟩
  have href (h : needsReference a.sel = true) : a.reference.isNone = false ∧ imageLen a.reference ≤ s.params.imageSize := by
    obtain ⟨-, i, hi, hlen⟩ := hv h; rw [hi]; exact ⟨rfl, hlen⟩
  have hok (h : needsReadAll a.sel = true) : s.seq.readAllOk = true :=
    (hv ((needsReference_iff a.sel).2 ((needsReadAll_iff a.sel).1 h))).1
  exact startOp_of_needs hr he (Bool.and_eq_false_imp.2 fun h => (hsource h).1)
    (Bool.and_eq_false_imp.2 fun h => (href h).1) (Bool.and_eq_false_imp.2 fun h => by rw [hok h]; rfl)
    (fun h => (hsource h).2) (fun h => (href h).2)

/-- Settles O47: a start that is accepted is `latchArgs`, whose sizes are `latchedLen` of the images'. -/
theorem startLatchesTheArgumentsOrIsRefused : Obligations.StartLatchesTheArgumentsOrIsRefused := by
  intro s a rest hm
  rw [step_start hm]
  refine ⟨fun hrest he hs hv => ?_, fun hbusy => startOp_busy (opResting_eq_false hbusy),
    fun hrest he => startOp_engineBusy ((opResting_iff s).2 hrest) he⟩
  refine ⟨latchedLen s.params (imageLen a.source), latchedLen s.params (imageLen a.reference), latchedLen_le _ _,
    latchedLen_le _ _, fun h => ?_, fun h => ?_, ?_⟩
  · rw [imageLen_eq, latchedLen_of_le h]
  · rw [imageLen_eq, latchedLen_of_le h]
  · rw [startOp_accepted (s := setMoves rest s) ((opResting_iff s).2 hrest) he hs hv]
    simp only [latchArgs, needsSource_iff, imageCells_eq]
    obtain ⟨sel, ff, src, ref⟩ := a
    cases sel <;> rfl

/-! ### A hand-made EXECUTE -/

theorem step_execute {s : State} {op : Byte} {p : List Byte} {e : Byte} {rest : List CallerMove}
    (h : s.ports.moves = .execute op p e :: rest) : step s = handExecute op p e (setMoves rest s) := step_cons h nofun

theorem handExecute_busy {op : Byte} {p : List Byte} {e : Byte} {s : State} (h : opResting s = false) :
    handExecute op p e s = .refused .operationInProgress := by
  simp [handExecute, h]

theorem handExecute_engineBusy {op : Byte} {p : List Byte} {e : Byte} {s : State} (hr : opResting s = true)
    (he : s.eng.state ≠ .idle) : handExecute op p e s = .refused .engineBusy := by
  simp [handExecute, hr, he]

theorem handExecute_idle {op : Byte} {p : List Byte} {e : Byte} {s : State} (hr : opResting s = true)
    (he : s.eng.state = .idle) : handExecute op p e s = runCode (.call op p e) s := by
  simp [handExecute, hr, he]

theorem opcodeOf_eq_none {b : Byte} (h : b ∉ opcodeTable.map (·.1)) : opcodeOf b = none := by
  rw [opcodeOf, Option.map_eq_none_iff, List.find?_eq_none]
  intro row hrow hb
  exact h (List.mem_map.2 ⟨row, hrow, by simpa using hb⟩)

theorem runCode_call_of_not_mem {b : Byte} {p : List Byte} {e : Byte} {s : State} (h : b ∉ opcodeTable.map (·.1)) :
    runCode (.call b p e) s = .refused (.opcodeNotInEnumeration b) := by
  simp only [runCode, decode, opcodeOf_eq_none h]

/-- Settles O49: the three refusals of the call, and the collecting of its outcome. -/
theorem handMadeExecuteIsOneAtATime : Obligations.HandMadeExecuteIsOneAtATime := by
  intro s op p e rest
  refine ⟨fun hm => ?_, fun hm hrest he => ?_, fun hm hbusy => ?_⟩
  · rw [step_execute hm]
    refine ⟨fun hbusy => handExecute_busy (opResting_eq_false hbusy),
      fun hrest he => handExecute_engineBusy ((opResting_iff s).2 hrest) he, fun hrest he hop => ?_⟩
    rw [handExecute_idle (s := setMoves rest s) ((opResting_iff s).2 hrest) he]
    exact runCode_call_of_not_mem hop
  · have hr : opResting (setMoves rest s) = true := (opResting_iff s).2 hrest
    rw [step_cons hm nofun, callerStep, handCollect, hr, Bool.not_true, if_neg nofun, if_pos (by exact he)]
    rfl
  · have hr : opResting (setMoves rest s) = false := opResting_eq_false hbusy
    rw [step_cons hm nofun, callerStep, handCollect, hr]
    rfl

/-! ### RESET, and the moves that let the core step -/

/-- Settles O51: the state after RESET is `State.reset` but for the parameters and the ports. -/
theorem resetGivesTheNamedValues : Obligations.ResetGivesTheNamedValues := by
  intro s rest hm
  refine ⟨resetCore (setMoves rest s), step_cons hm nofun, rfl, rfl, rfl, rfl, rfl, rfl, rfl, rfl, rfl, rfl,
    read_blank, read_blank, rfl, rfl, rfl, rfl, rfl, rfl, rfl, rfl, rfl, rfl, rfl, rfl, rfl, rfl, rfl⟩

/-- The core's step at rest, with no EXECUTE that still runs, changes nothing (log entry 4). -/
theorem coreStep_of_coreResting {s : State} (h : coreResting s = true) : coreStep s = .next s := by
  simp only [coreResting, Bool.and_eq_true, Bool.or_eq_true, beq_iff_eq] at h
  obtain ⟨hr, he | he⟩ := h
  · rw [coreStep_idle he, sequencerStep]
    obtain hl | hl := (opResting_iff s).1 hr <;> rw [hl]
  · simp only [coreStep, he, hr, if_true]

/-- Settles O28: `pass` is taken off the list, `await` only when the core rests. -/
theorem stepTakesTheCallersMoveOrTheCoreStep : Obligations.StepTakesTheCallersMoveOrTheCoreStep := by
  intro s rest
  refine ⟨step_nil, fun hm => step_cons hm nofun, fun hm hr => ?_, fun hm hr => ?_⟩
  · have waits : stillAwaiting .await s = true := by simp [stillAwaiting, hr]
    simp only [step, hm, waits, if_true]
  · have done : stillAwaiting .await s = false := by simp [stillAwaiting, hr]
    simp only [step, hm, done, Bool.false_eq_true, if_false, callerStep]
    exact coreStep_of_coreResting (s := setMoves rest s) hr

/-- Settles O29: at rest with the engine idle the call is run, and a label that waits runs its command. -/
theorem stepRunsTheDecodedCall : Obligations.StepRunsTheDecodedCall := by
  refine ⟨fun s op p e rest i hm hrest he hd => ?_, fun s l i hi hm he hl => ?_⟩
  · rw [step_execute hm, handExecute_idle (s := setMoves rest s) ((opResting_iff s).2 hrest) he, runCode,
      setMoves_params, hd]
    rfl
  · rw [step_nil hm, coreStep_idle he, sequencerStep, hl]
    simp only [List.mem_cons, Prod.mk.injEq, List.not_mem_nil, or_false] at hi
    obtain ⟨rfl, rfl⟩ | ⟨rfl, rfl⟩ | ⟨rfl, rfl⟩ | ⟨rfl, rfl⟩ | ⟨rfl, rfl⟩ | ⟨rfl, rfl⟩ := hi <;> rfl

end Sys2Proof.Machine
end

