-- ==== Sys2Proof/Proofs/Verify.lean ====
section
/-! PROOFS. Proofs/Verify.lean: the comparison of verify and the reads of the Memory Image (44_flash_operations.md R310,
10_state.md R37, R47). -/

namespace Sys2Proof.Machine

theorem coreStep_vfRun {s : State} (he : s.eng.state = .idle) (hl : s.seq.state = .vfRun) : coreStep s = verifyRun s := by
  rw [coreStep_idle he, sequencerStep, hl]

/-- How verify ends, by the first difference it found (44_flash_operations.md R310). -/
def verifyEnd (s : State) : Option Nat → State
  | none => finishOk s
  | some a => raiseOp .verificationMismatch (.address a) s

/-- Verify goes on by the comparison when the latched size fits the image. -/
theorem verifyRun_eq {s : State} (h : s.seq.refLen ≤ s.params.imageSize) {r : Option Nat}
    (hr : compareFrom s 0 s.seq.refLen = .ok r) : verifyRun s = .next (verifyEnd s r) := by
  rw [verifyRun, if_neg (Nat.not_lt.2 h)]
  cases r <;> rw [hr] <;> rfl

theorem compareFrom_equal {s : State} {w : Byte} (hw : s.memImage.bg = some w) {n : Nat} (hn : n ≤ s.params.imageSize)
    (h : ∀ b < n, s.memImage.read b = some (imageByte s.ports.reference b)) : compareFrom s 0 n = .ok none := by
  have hagree := compareFrom_agree (s := s) (a := 0) (k := n) 0 hw fun b _ hb => ⟨by omega, h b (by omega)⟩
  simpa [compareFrom] using hagree

theorem compareFrom_difference {s : State} {w v : Byte} (hw : s.memImage.bg = some w) {a n : Nat} (han : a < n)
    (hn : n ≤ s.params.imageSize) (h : ∀ b < a, s.memImage.read b = some (imageByte s.ports.reference b))
    (hv : s.memImage.read a = some v) (hne : v ≠ imageByte s.ports.reference a) : compareFrom s 0 n = .ok (some a) := by
  obtain ⟨k, rfl⟩ : ∃ k, n = a + (k + 1) := ⟨n - a - 1, by omega⟩
  rw [compareFrom_agree (a := 0) (k + 1) hw fun b _ hb => ⟨by omega, h b (by omega)⟩, Nat.zero_add, compareFrom,
    imageRead_filled (by omega) hw hv]
  exact if_neg hne

/-- Settles O45: bytes that agree are passed over, up to the size or to the first that differs. -/
theorem verifyStopsAtTheFirstDifference : Obligations.VerifyStopsAtTheFirstDifference := by
  intro s he hl hlen _ hfilled
  rw [coreStep_vfRun he hl]
  refine ⟨fun hall => ?_, fun a v ha hbelow hv hne => ?_⟩
  · rw [verifyRun_eq hlen (compareFrom_equal hfilled hlen hall), verifyEnd, finishOk]
  · rw [verifyRun_eq hlen (compareFrom_difference hfilled ha hlen hbelow hv hne)]
    rfl

/-- A sound core at `VF_RUN` has a filled image, so its comparison ends with a result (10_state.md R37). -/
theorem verifyRun_total {s : State} (h : SeqInv s) (hl : s.seq.state = .vfRun) :
    ∃ r, verifyRun s = .next (verifyEnd s r) := by
  have hfilled := h.read_all_filled (h.verify_after_read_all hl)
  obtain ⟨r, hr⟩ := compareFrom_filled hfilled (a := 0) (n := s.seq.refLen) (by have := h.ref_le; omega)
  exact ⟨r, verifyRun_eq h.ref_le hr⟩

/-- Settles O46: a read-all that ended `S_OK` has filled the image, so over one never filled the start is refused; at `VF_RUN` the
comparison has a result. -/
theorem verifyNeverReadsAnImageNeverFilled : Obligations.VerifyNeverReadsAnImageNeverFilled := by
  intro s h
  have hq := h.sequencer
  refine ⟨fun hblank a rest hm hsel href hrest he => ?_, fun hl => ?_⟩
  · have hok : s.seq.readAllOk = false := by
      by_contra hok
      exact absurd (hblank.symm.trans (hq.read_all_filled (by simpa using hok))) nofun
    rw [step_start hm]
    exact startOp_noReadAll ((opResting_iff s).2 hrest) he hsel href hok
  · have hstatus : s.seq.status = .busy := hq.status_busy (not_resting_of_label hl rfl)
    have herr : s.seq.err = .none := hq.err_none (by rw [hstatus]; decide)
    refine ⟨hq.read_all_filled (hq.verify_after_read_all hl), ?_⟩
    obtain ⟨r, hr⟩ := verifyRun_total hq hl
    rw [coreStep_vfRun (eng_idle_of_label hq hl rfl rfl) hl, hr]
    cases r with
    | none => exact ⟨_, rfl, rfl, .inl ⟨rfl, herr⟩, rfl⟩
    | some a => exact ⟨_, rfl, rfl, .inr ⟨rfl, rfl⟩, rfl⟩

/-! ### The dump port -/

theorem step_dump {s : State} {a : Nat} {rest : List CallerMove} (h : s.ports.moves = .dump a :: rest) :
    step s = dumpByte a (setMoves rest s) := step_cons h nofun

theorem dumpByte_ok {a : Nat} {s : State} {v : Byte} (h : opResting s = true) (hv : imageRead s a = .ok v) :
    dumpByte a s = .next { s with ports := { s.ports with dumped := s.ports.dumped ++ [(a, v)] } } := by
  rw [dumpByte, if_pos h, hv]

theorem dumpByte_error {a : Nat} {s : State} {r : Fault} (h : opResting s = true) (hr : imageRead s a = .error r) :
    dumpByte a s = .fault r := by
  rw [dumpByte, if_pos h, hr]

/-- Settles O50: at rest the dump port answers what `imageRead` does. -/
theorem dumpPortReadsTheImageAtRest : Obligations.DumpPortReadsTheImageAtRest := by
  intro s a rest hm
  rw [step_dump hm]
  have resting (h : s.seq.state = .idle ∨ s.seq.state = .done) : opResting (setMoves rest s) = true := (opResting_iff s).2 h
  refine ⟨fun hbusy => ?_, fun hrest hout => ?_, fun hrest hin hblank => ?_, fun v hrest hin hfilled hv => ?_⟩
  · have hr : opResting (setMoves rest s) = false := opResting_eq_false hbusy
    simp only [dumpByte, hr, Bool.false_eq_true, if_false]
  · exact dumpByte_error (resting hrest) (if_pos hout)
  · exact dumpByte_error (resting hrest) (imageRead_unfilled hin hblank)
  · exact dumpByte_ok (resting hrest) (imageRead_filled hin hfilled hv)

end Sys2Proof.Machine
end

