-- ==== Sys2Proof/Proofs/Progress.lean ====
section
/-! PROOFS. Proofs/Progress.lean: a sound core with no move of the caller pending takes a step, whatever the Transport answers
(20_memory.md R89). -/

namespace Sys2Proof.Machine

/-- The second half of an iteration answers: a ready frame has a tag. -/
theorem afterByte_total {s : State} (h : DecoderInv s.params s.dec) : ∃ t, afterByte s = .next t := by
  unfold afterByte
  split
  · rename_i hr
    rw [runCode_frame hr (List.length_pos_iff.1 (h.ready_cur hr)), andThen_next]
    exact ⟨_, rfl⟩
  · exact ⟨_, rfl⟩

theorem pollIteration_total {s : State} (h : Sound s) : ∃ t, pollIteration s = .next t := by
  obtain ⟨q, hq, -⟩ := rxPoll_frame s
  unfold pollIteration
  split <;> rename_i u hu <;> rw [hu] at hq <;> cases hq
  · exact ⟨_, rfl⟩
  · exact afterByte_total h.decoder
  · rename_i b
    rw [runCode_wire (by exact h.not_ready), andThen_next]
    exact afterByte_total (decoderInv_wireStep h.params.framing.target h.not_ready h.decoder b)

/-- The scan reads only bits that R261 has given a value (10_state.md R36). -/
theorem readAllScan_total {s : State} (h : SeqInv s) (hl : s.seq.state = .raScan) : ∃ t, readAllScan s = .next t := by
  have hbit : ptTest s.pageDirty s.seq.page ≠ none := by
    rw [ptTest, read_of_bg (h.dump_marked (by rw [hl]; rfl))]; nofun
  unfold readAllScan
  split
  · split
    · exact ⟨_, rfl⟩
    · exact ⟨_, rfl⟩
    · exact absurd ‹_› hbit
  · split <;> exact ⟨_, rfl⟩

theorem sequencerStep_total {s : State} (h : Sound s) (he : s.eng.state = .idle) : ∃ t, sequencerStep s = .next t := by
  by_cases hw : opWaiting s.seq.state = true
  · obtain ⟨op, p, e, hp, hx⟩ := sequencerStep_of_opWaiting hw
    exact ⟨_, hx.trans (executeStart_next he hp)⟩
  unfold sequencerStep
  cases hl : s.seq.state
  case raScan => exact readAllScan_total h.sequencer hl
  case vfRun => obtain ⟨r, hr⟩ := verifyRun_total h.sequencer hl; exact ⟨_, hr⟩
  case idle | seNext | pgNext | raInit | raPass | done => exact ⟨_, rfl⟩
  all_goals rw [hl] at hw; exact absurd rfl hw

/-- A label that waits has an answer to every outcome (60_exceptions.md R323). -/
theorem collectOutcome_total {s : State} (hw : opWaiting s.seq.state = true) (ho : s.eng.outcome ≠ .none) :
    ∃ t, collectOutcome s = .next t := by
  have success : ∃ t, onSuccess (collected s) = .next t := by
    unfold onSuccess
    rw [collected_seq]
    cases hl : s.seq.state <;> rw [hl] at hw
    case idWait | beWait | seWait | pgWait | raStartWait | raWait => exact ⟨_, rfl⟩
    all_goals exact nomatch hw
  have timeout : ∃ t, onTimeout (collected s) = .next t := by
    unfold onTimeout
    rw [collected_seq]
    cases hl : s.seq.state <;> rw [hl] at hw
    case idWait | beWait | seWait | pgWait | raStartWait | raWait => exact ⟨_, rfl⟩
    all_goals exact nomatch hw
  unfold collectOutcome
  cases hs : s.eng.outcome with
  | success => exact success
  | timeout => exact timeout
  | transportFailure => exact ⟨_, rfl⟩
  | none => exact absurd hs ho

/-- Settles O54: by the state of the engine. -/
theorem noTransportAnswerStopsTheCore : Obligations.NoTransportAnswerStopsTheCore := by
  intro s h hm
  rw [step_nil hm]
  cases he : s.eng.state with
  | idle => rw [coreStep_idle he]; exact sequencerStep_total h he
  | send1 => exact ⟨_, coreStep_send1 he⟩
  | gap => exact ⟨_, coreStep_gap he⟩
  | send2 => exact ⟨_, coreStep_send2 he⟩
  | poll => rw [coreStep_poll he]; exact pollIteration_total h
  | done =>
    cases hr : opResting s with
    | true => exact ⟨s, by simp [coreStep, he, hr]⟩
    | false =>
      have hw := (h.sequencer.engine_waits (by rw [he]; decide)).resolve_right (by simp [hr])
      rw [coreStep_done he hr]
      exact collectOutcome_total hw (h.engine.done_outcome he)

end Sys2Proof.Machine
end

