-- ==== Sys2Proof/Proofs/Encoding.lean ====
section
/-! PROOFS. Proofs/Encoding.lean: decoder and encoder undo each other at each of the three ports (30_encoding.md R116, R111,
R102), and the length of a raw frame (40_codec.md R134). -/

namespace Sys2Proof.Machine

/-! ### The three families -/

/-- Every instruction is a command, a response or a raw byte. -/
theorem instr_family (i : Instr) : (∃ op p e, i = commandOf op p e) ∨ (∃ op, i = responseOf op) ∨
    i = .fend ∨ i = .fesc ∨ i = .tfesc ∨ i = .tfend ∨ ∃ b, i = .ordinary b := by
  cases i with
  | readId p e => exact .inl ⟨.readId, p, e, rfl⟩
  | powerUp p e => exact .inl ⟨.powerUp, p, e, rfl⟩
  | powerDown p e => exact .inl ⟨.powerDown, p, e, rfl⟩
  | writeEnable p e => exact .inl ⟨.writeEnable, p, e, rfl⟩
  | bulkErase p e => exact .inl ⟨.bulkErase, p, e, rfl⟩
  | sectorErase p e => exact .inl ⟨.sectorErase, p, e, rfl⟩
  | program p e => exact .inl ⟨.program, p, e, rfl⟩
  | read p e => exact .inl ⟨.read, p, e, rfl⟩
  | ready p e => exact .inl ⟨.ready, p, e, rfl⟩
  | readAll p e => exact .inl ⟨.readAll, p, e, rfl⟩
  | empty p e => exact .inl ⟨.empty, p, e, rfl⟩
  | readIdRsp => exact .inr (.inl ⟨.readId, rfl⟩)
  | powerUpRsp => exact .inr (.inl ⟨.powerUp, rfl⟩)
  | powerDownRsp => exact .inr (.inl ⟨.powerDown, rfl⟩)
  | writeEnableRsp => exact .inr (.inl ⟨.writeEnable, rfl⟩)
  | bulkEraseRsp => exact .inr (.inl ⟨.bulkErase, rfl⟩)
  | sectorEraseRsp => exact .inr (.inl ⟨.sectorErase, rfl⟩)
  | programRsp => exact .inr (.inl ⟨.program, rfl⟩)
  | readRsp => exact .inr (.inl ⟨.read, rfl⟩)
  | readyRsp => exact .inr (.inl ⟨.ready, rfl⟩)
  | readAllRsp => exact .inr (.inl ⟨.readAll, rfl⟩)
  | emptyRsp => exact .inr (.inl ⟨.empty, rfl⟩)
  | fend | fesc | tfesc | tfend | ordinary => simp

theorem opcodeOf_opcodeByte (op : Opcode) : opcodeOf (opcodeByte op) = some op := by cases op <;> rfl

theorem wf_commandOf (q : Params) (op : Opcode) (p : List Byte) (e : Byte) : (commandOf op p e).wf q = payloadOk q p := by
  cases op <;> rfl

theorem encode_commandOf (q : Params) (op : Opcode) (p : List Byte) (e : Byte) :
    encode q (commandOf op p e) = .call (opcodeByte op) p e := by cases op <;> rfl

theorem wf_responseOf (q : Params) (op : Opcode) : (responseOf op).wf q = true := by cases op <;> rfl

theorem encode_responseOf (q : Params) (op : Opcode) : encode q (responseOf op) = .frame [opcodeByte op] := by
  cases op <;> rfl

theorem decode_call {q : Params} {op : Opcode} {p : List Byte} {e : Byte} (h : payloadOk q p = true) :
    decode q (.call (opcodeByte op) p e) = .ok (commandOf op p e) := by
  simp only [decode, opcodeOf_opcodeByte, h, if_true]

theorem decode_frame (q : Params) (op : Opcode) (bytes : List Byte) :
    decode q (.frame (opcodeByte op :: bytes)) = .ok (responseOf op) := by
  simp only [decode, opcodeOf_opcodeByte]

theorem decode_wire (q : Params) (b : Byte) : decode q (.wire b) = .ok (wireOf q b) := rfl

/-- Settles O1: each word is evaluated at its port. -/
theorem someTableWordsDecodeAtTheirPorts : Obligations.SomeTableWordsDecodeAtTheirPorts :=
  ⟨rfl, rfl, rfl, rfl, rfl, rfl, rfl, rfl, rfl⟩

/-- Settles O2: a command and a response by the opcode map, a raw byte because the four special bytes differ. -/
theorem decodeUndoesEncode : Obligations.DecodeUndoesEncode := by
  intro q i hq hwf
  obtain ⟨op, p, e, rfl⟩ | ⟨op, rfl⟩ | rfl | rfl | rfl | rfl | ⟨b, rfl⟩ := instr_family i
  · rw [encode_commandOf, decode_call ((wf_commandOf q op p e).symm.trans hwf)]
  · rw [encode_responseOf, decode_frame]
  · simp [encode, decode_wire, wireOf]
  · simp [encode, decode_wire, wireOf, hq.fend_fesc.symm]
  · simp [encode, decode_wire, wireOf, hq.fend_tfesc.symm, hq.fesc_tfesc.symm]
  · simp [encode, decode_wire, wireOf, hq.fend_tfend.symm, hq.fesc_tfend.symm, hq.tfend_tfesc]
  · obtain ⟨h1, h2, h3, h4⟩ := isSpecial_eq_false.1 (by simpa [Instr.wf] using hwf)
    simp [encode, decode_wire, wireOf, h1, h2, h3, h4]

/-- A raw byte's instruction is well-formed and is encoded as the byte (40_codec.md R148). -/
theorem wireOf_wf_encode (q : Params) (b : Byte) : (wireOf q b).wf q = true ∧ encode q (wireOf q b) = .wire b := by
  unfold wireOf
  split
  · rename_i h; exact ⟨rfl, congrArg Code.wire h.symm⟩
  · split
    · rename_i h; exact ⟨rfl, congrArg Code.wire h.symm⟩
    · split
      · rename_i h; exact ⟨rfl, congrArg Code.wire h.symm⟩
      · split
        · rename_i h; exact ⟨rfl, congrArg Code.wire h.symm⟩
        · have ordinary : isSpecial q b = false := isSpecial_eq_false.2 ⟨‹_›, ‹_›, ‹_›, ‹_›⟩
          exact ⟨by simp [Instr.wf, ordinary], rfl⟩

/-- Settles O3: by the port; a call and a frame carry the byte of the opcode they decode to. -/
theorem decodedInstructionsAreWellFormedAndEncodeBack : Obligations.DecodedInstructionsAreWellFormedAndEncodeBack := by
  intro q c i h
  cases c with
  | call b p e =>
    simp only [decode] at h
    split at h
    · cases h
    · rename_i op hop
      split at h <;> cases h
      rename_i hp
      exact ⟨(wf_commandOf q op p e).trans hp, by rw [encode_commandOf, eq_opcodeByte_of_opcodeOf hop]⟩
  | frame bytes =>
    cases bytes with
    | nil => cases h
    | cons tag rest =>
      simp only [decode] at h
      split at h <;> cases h
      rename_i op hop
      exact ⟨wf_responseOf q op, tag, rest, rfl, by rw [encode_responseOf, eq_opcodeByte_of_opcodeOf hop]⟩
  | wire b => cases h; exact wireOf_wf_encode q b

/-! ### The length of a raw frame -/

theorem escAll_append (q : Params) (xs ys : List Byte) : escAll q (xs ++ ys) = escAll q xs ++ escAll q ys := by
  simp [escAll_eq_flatMap]

/-- Escaping adds one byte for each delimiter or escape byte (40_codec.md R134). -/
theorem escAll_length_eq (q : Params) (bytes : List Byte) :
    (escAll q bytes).length = bytes.length + bytes.countP (fun b => b == q.fend || b == q.fesc) := by
  induction bytes with
  | nil => rfl
  | cons b bytes ih =>
    simp only [escAll, List.length_append, esc_length, ih, List.length_cons, List.countP_cons, Bool.or_eq_true, beq_iff_eq]
    split <;> omega

/-- Settles O5: payload and checksum are escaped together; delimiters and opcode are three bytes more. -/
theorem rawFrameLength : Obligations.RawFrameLength := by
  intro q op payload hlen
  have escaped : rawFrame q op payload = q.fend :: op :: (escAll q (payload ++ [checksum q op payload]) ++ [q.fend]) := by
    simp [rawFrame, escAll_append, escAll]
  obtain ⟨lower, upper⟩ := rawFrame_length_le q op payload
  refine ⟨?_, lower, ?_⟩
  · rw [escaped]
    simp only [List.length_cons, List.length_append, List.length_nil, escAll_length_eq]
    omega
  · rw [Params.txCap]
    omega

end Sys2Proof.Machine
end

