-- ==== Sys2Proof/Proofs/DecoderSteps.lean ====
section
/-! PROOFS. Proofs/DecoderSteps.lean: the stored bytes (40_codec.md R143 to R146), the decoder step as one function (R148), and the
refusals of the two inbound ports (R147, log entry 20). -/

namespace Sys2Proof.Machine

theorem decTransposed_eq (cap : Nat) (real literal : Byte) (d : Decoder) :
    decTransposed cap real literal d = decStore cap (if d.esc then real else literal) d := by
  unfold decTransposed
  split <;> rfl

/-- `STORE` with no frame ready, every register written out (40_codec.md R146). -/
theorem decStore_eq {d : Decoder} (hr : d.ready = false) (cap : Nat) (v : Byte) :
    decStore cap v d = if cap ≤ d.buf.length then { buf := [], sum := 0#8, esc := false, ready := false }
      else { buf := d.buf ++ [v], sum := d.sum + v, esc := false, ready := false } := by
  rw [decStore, hr]
  rfl

/-- Settles O12: a transposed byte stores the real or the literal byte by the flag. -/
theorem transposedBytesStoreByTheFlag : Obligations.TransposedBytesStoreByTheFlag := by
  intro s i real literal hi hr
  have step : exec i s = decStepWith (decTransposed s.params.rxCap real literal) s := by
    obtain ⟨rfl, rfl, rfl⟩ | ⟨rfl, rfl, rfl⟩ := hi <;> rfl
  rw [step, decStepWith_next _ hr, decTransposed_eq, decStore_eq hr]

/-- Settles O13: a byte that is not special is stored as it is. -/
theorem ordinaryByteIsStoredAndSummed : Obligations.OrdinaryByteIsStoredAndSummed := by
  intro s b h1 h2 h3 h4 hr
  have step : exec (.ordinary b) s = decStepWith (decStore s.params.rxCap b) s :=
    if_neg (by simp [isSpecial_eq_false.2 ⟨h1, h2, h3, h4⟩])
  rw [step, decStepWith_next _ hr, decStore_eq hr]

/-- Settles O14: the one function is `wireStep`. -/
theorem decodeStepIsTotalAndLocalToTheDecoder : Obligations.DecodeStepIsTotalAndLocalToTheDecoder :=
  ⟨fun _ => rfl, fun _ _ => rfl, wireStep, fun _ _ => runCode_wire⟩

/-- Settles O15: a byte that is accepted is a `wireStep`, and no step writes the parameters. -/
theorem decodeStepKeepsTheDecoderInvariant : Obligations.DecodeStepKeepsTheDecoderInvariant := by
  intro b s t ht h hx
  obtain ⟨hr, rfl⟩ := runCode_wire_next hx
  exact decoderInv_wireStep ht hr h b

theorem onFrame_not_ready {f : State → State} {s : State} (h : s.dec.ready = false) :
    onFrame f s = .refused .noFrameReady := if_neg (by simp [h])

/-- Each of the eleven response arms is a handler on a ready frame (41_commands.md R171 to R191). -/
theorem exec_responseOf_not_ready (op : Opcode) {s : State} (h : s.dec.ready = false) :
    exec (responseOf op) s = .refused .noFrameReady := by
  cases op <;>
    simp only [responseOf, exec, execReadIdRsp, execPowerUpRsp, execPowerDownRsp, execWriteEnableRsp, execBulkEraseRsp,
      execSectorEraseRsp, execProgramRsp, execReadRsp, execReadyRsp, execReadAllRsp, execEmptyRsp, onFrame_not_ready h]

/-- Settles O26: a handler needs a frame, a raw byte needs none, and no special byte is ORDINARY. -/
theorem responsesAndWireBytesAreRefusedOutOfTurn : Obligations.ResponsesAndWireBytesAreRefusedOutOfTurn := by
  refine ⟨fun op _ => exec_responseOf_not_ready op, fun _ _ => runCode_wire_ready, fun b s hb => ?_⟩
  have special : isSpecial s.params b = true := by simpa [isSpecial, or_assoc] using hb
  exact if_pos special

end Sys2Proof.Machine
end

