-- ==== Sys2Proof/Proofs/FrameErrors.lean ====
section
/-! PROOFS. Proofs/FrameErrors.lean: a decoder fed something other than a frame: it finds the next frame after any garbage (40_codec.md
R152), and a frame with a flipped checksum bit never makes it ready (R151). -/

namespace Sys2Proof.Machine

/-- Raw bytes change the decoder alone. -/
theorem feedRaw_params {bytes : List Byte} : ∀ {s t : State}, feedRaw bytes s = .next t → t.params = s.params := by
  induction bytes with
  | nil => intro s t h; cases h; rfl
  | cons b bytes ih =>
    intro s t h
    obtain ⟨u, hu, h⟩ := andThen_eq_next h
    obtain ⟨-, rfl⟩ := runCode_wire_next hu
    have kept := ih h
    exact kept

/-- Settles O8: after the garbage the frame's opening delimiter resets the decoder, whatever it holds. -/
theorem resynchronisesAtTheNextDelimiter : Obligations.ResynchronisesAtTheNextDelimiter := by
  intro op payload garbage s t hp hc hg hr hs
  rw [← feedRaw_params hg] at hp hc hs ⊢
  rw [feedRaw_append, hg, andThen_next, feedRaw_rawFrame op hp hc hr hs]

/-! ### A flipped bit of the checksum -/

/-- The decoder holds no frame, and a delimiter now would not make one. -/
def OffTarget (p : Params) (d : Decoder) : Prop := d.ready = false ∧ d.sum ≠ p.csTarget

theorem offTarget_clear {p : Params} (hp : FramingInv p) : OffTarget p Decoder.clear := ⟨rfl, hp.target.symm⟩

/-- The closing delimiter resets a decoder off its target (40_codec.md R141). -/
theorem feedRaw_fend_of_offTarget {s : State} (h : OffTarget s.params s.dec) :
    ∃ t, feedRaw [s.params.fend] s = .next t ∧ t.dec.ready = false :=
  ⟨_, feedRaw_fend_of_sum_ne h.1 h.2 [], rfl⟩

/-- Storing a byte that does not complete the sum leaves the decoder off its target, also when the byte no longer fits. -/
theorem offTarget_decStore {p : Params} (hp : FramingInv p) {d : Decoder} (hr : d.ready = false) {v : Byte}
    (hv : d.sum + v ≠ p.csTarget) : OffTarget p (decStore p.rxCap v d) := by
  unfold decStore
  split
  · exact offTarget_clear hp
  · exact ⟨hr, hv⟩

/-- Outside an escape a byte that is neither delimiter nor escape byte stands for itself (40_codec.md R143 to R145). -/
theorem wireStep_literal {p : Params} {b : Byte} {d : Decoder} (hp : FramingInv p) (h1 : b ≠ p.fend) (h2 : b ≠ p.fesc)
    (he : d.esc = false) : wireStep p b d = decStore p.rxCap b d := by
  by_cases h3 : b = p.tfesc
  · rw [h3, wireStep_tfesc hp, he]; rfl
  by_cases h4 : b = p.tfend
  · rw [h4, wireStep_tfend hp, he]; rfl
  exact wireStep_ordinary h1 h2 h3 h4 d

/-- The byte an escape pair stands for (40_codec.md R143, R144, R145; a broken pair: D9). -/
def unescaped (p : Params) (b : Byte) : Byte := if b = p.tfesc then p.fesc else if b = p.tfend then p.fend else b

theorem wireStep_escaped {p : Params} {b : Byte} {d : Decoder} (hp : FramingInv p) (h1 : b ≠ p.fend) (h2 : b ≠ p.fesc)
    (he : d.esc = true) : wireStep p b d = decStore p.rxCap (unescaped p b) d := by
  unfold unescaped
  split
  · subst b; rw [wireStep_tfesc hp, he]; rfl
  · split
    · subst b; rw [wireStep_tfend hp, he]; rfl
    · exact wireStep_ordinary h1 h2 ‹_› ‹_› d

/-- Feeding the bytes is accepted and leaves the decoder off its target. -/
def EndsOffTarget (bytes : List Byte) (s : State) : Prop :=
  ∃ d, feedRaw bytes s = .next { s with dec := d } ∧ OffTarget s.params d

section flipped
variable {s : State} {cs : Byte} (hp : FramingInv s.params) (hr : s.dec.ready = false) (he : s.dec.esc = false)
  (hc : s.dec.cur < s.params.rxCap) (hsum : s.dec.sum + cs = s.params.csTarget)
include hp hr he hsum

/-- Another byte where an unescaped checksum was due: a delimiter or an escape byte stores nothing, and the checksum is missing. -/
theorem endsOffTarget_single {b : Byte} (hb : b ≠ cs) (h0 : b = s.params.fend ∨ b = s.params.fesc → cs ≠ 0#8) :
    EndsOffTarget [b] s := by
  have missing (hcs : cs ≠ 0#8) : s.dec.sum ≠ s.params.csTarget := fun h =>
    hcs (by rw [← hsum] at h; exact left_eq_add.1 h)
  refine ⟨wireStep s.params b s.dec, by rw [feedRaw_cons hr, feedRaw_nil], ?_⟩
  by_cases h1 : b = s.params.fend
  · rw [h1, wireStep_fend, decFend_eq, if_neg (missing (h0 (.inl h1)))]
    exact offTarget_clear hp
  by_cases h2 : b = s.params.fesc
  · rw [h2, wireStep_fesc hp]
    exact ⟨hr, missing (h0 (.inr h2))⟩
  rw [wireStep_literal hp h1 h2 he]
  exact offTarget_decStore hp hr fun h => hb (add_left_cancel (h.trans hsum.symm))

include hc in
/-- The escape byte of the pair is another byte: both bytes are stored as they are. -/
theorem endsOffTarget_first {b c : Byte} (hb : b ≠ s.params.fend ∧ b ≠ s.params.fesc)
    (hc' : c ≠ s.params.fend ∧ c ≠ s.params.fesc) (hne : b + c ≠ cs) : EndsOffTarget [b, c] s := by
  have first : wireStep s.params b s.dec =
      { s.dec with buf := s.dec.buf ++ [b], sum := s.dec.sum + b, esc := false } := by
    rw [wireStep_literal hp hb.1 hb.2 he, decStore_room hc]
  refine ⟨_, by rw [feedRaw_cons hr, first, feedRaw_cons (by exact hr), feedRaw_nil], ?_⟩
  rw [wireStep_literal hp hc'.1 hc'.2 rfl]
  refine offTarget_decStore hp (by exact hr) fun h => hne ?_
  have total : s.dec.sum + (b + c) = s.dec.sum + cs := by rw [hsum, ← add_assoc]; exact h
  exact add_left_cancel total

omit he in
/-- The second byte of the pair is another byte: what it stands for is not the checksum. -/
theorem endsOffTarget_second {b : Byte} (hb : b ≠ s.params.fend ∧ b ≠ s.params.fesc) (hne : unescaped s.params b ≠ cs) :
    EndsOffTarget [s.params.fesc, b] s := by
  refine ⟨_, by rw [feedRaw_cons hr, wireStep_fesc hp, feedRaw_cons (by exact hr), feedRaw_nil], ?_⟩
  rw [wireStep_escaped hp hb.1 hb.2 rfl]
  exact offTarget_decStore hp hr fun h => hne (add_left_cancel (h.trans hsum.symm))

end flipped

/-- The five bytes of the frame format have their default values. -/
def DefaultFormat (p : Params) : Prop :=
  p.fend = 0xC0#8 ∧ p.fesc = 0xDB#8 ∧ p.tfend = 0xDC#8 ∧ p.tfesc = 0xDD#8 ∧ p.csTarget = 0xFF#8

theorem framingInv_of_defaultFormat {p : Params} (h : DefaultFormat p) : FramingInv p := by
  obtain ⟨h1, h2, h3, h4, h5⟩ := h
  have d := framingInv_default
  exact {
    fend_fesc := by rw [h1, h2]; exact d.fend_fesc
    fend_tfend := by rw [h1, h3]; exact d.fend_tfend
    fend_tfesc := by rw [h1, h4]; exact d.fend_tfesc
    fesc_tfend := by rw [h2, h3]; exact d.fesc_tfend
    fesc_tfesc := by rw [h2, h4]; exact d.fesc_tfesc
    tfend_tfesc := by rw [h3, h4]; exact d.tfend_tfesc
    opcode := by rw [h1, h2]; exact d.opcode
    target := by rw [h5]; exact d.target }

/-- A byte with one bit flipped (40_codec.md R151). -/
def flipBit (k : Nat) (b : Byte) : Byte := b ^^^ (1#8 <<< k)

theorem bit_ne_zero : ∀ k < 8, (1#8 <<< k) ≠ 0#8 := by decide

theorem flipBit_ne {k : Nat} (hk : k < 8) (b : Byte) : flipBit k b ≠ b := fun h =>
  bit_ne_zero k hk (by simpa [flipBit, ← BitVec.xor_assoc] using congrArg (b ^^^ ·) h)

/-- No default special byte is a single bit: flipping a bit of zero gives neither delimiter nor escape byte. -/
theorem flipBit_zero : ∀ k < 8, flipBit k 0#8 ≠ 0xC0#8 ∧ flipBit k 0#8 ≠ 0xDB#8 := by decide

/-- One bit away from the default escape byte stands neither delimiter nor escape byte, and a transposed byte does not add up with
it to the byte the pair stood for. -/
theorem flipBit_fesc : ∀ k < 8, (flipBit k 0xDB#8 ≠ 0xC0#8 ∧ flipBit k 0xDB#8 ≠ 0xDB#8) ∧
    flipBit k 0xDB#8 + 0xDC#8 ≠ 0xC0#8 ∧ flipBit k 0xDB#8 + 0xDD#8 ≠ 0xDB#8 := by decide

/-- One bit away from a default transposed byte stands neither delimiter nor escape byte, and none that stands for the same byte. -/
theorem flipBit_transposed : ∀ k < 8,
    (flipBit k 0xDC#8 ≠ 0xC0#8 ∧ flipBit k 0xDC#8 ≠ 0xDB#8) ∧ (flipBit k 0xDD#8 ≠ 0xC0#8 ∧ flipBit k 0xDD#8 ≠ 0xDB#8) ∧
    unescaped .default (flipBit k 0xDC#8) ≠ 0xC0#8 ∧ unescaped .default (flipBit k 0xDD#8) ≠ 0xDB#8 := by decide

theorem unescaped_of_defaultFormat {p : Params} (h : DefaultFormat p) (b : Byte) :
    unescaped p b = unescaped .default b := by
  obtain ⟨h1, h2, h3, h4, -⟩ := h
  simp only [unescaped, h1, h2, h3, h4]
  rfl

/-- The escaped checksum with one bit flipped, fed where the checksum was due: by its form, and which of its bytes is flipped. -/
theorem endsOffTarget_flipped {s : State} {cs : Byte} {j k : Nat} (hf : DefaultFormat s.params) (hr : s.dec.ready = false)
    (he : s.dec.esc = false) (hc : s.dec.cur < s.params.rxCap) (hsum : s.dec.sum + cs = s.params.csTarget) (hk : k < 8)
    (hj : j < (esc s.params cs).length) : EndsOffTarget ((esc s.params cs).modify j (flipBit k)) s := by
  have hp := framingInv_of_defaultFormat hf
  obtain ⟨h1, h2, h3, h4, -⟩ := id hf
  obtain ⟨escFirst, sumEnd, sumEsc⟩ := flipBit_fesc k hk
  obtain ⟨tfend, tfesc, meansEnd, meansEsc⟩ := flipBit_transposed k hk
  rw [← unescaped_of_defaultFormat hf] at meansEnd meansEsc
  have notSpecial {b : Byte} (hb : b ≠ 0xC0#8 ∧ b ≠ 0xDB#8) : b ≠ s.params.fend ∧ b ≠ s.params.fesc := by
    rwa [h1, h2]
  by_cases hend : cs = s.params.fend
  · have form : esc s.params cs = [0xDB#8, 0xDC#8] := by rw [esc, if_pos hend, h2, h3]
    rw [form] at hj ⊢
    rw [h1] at hend
    subst hend
    match j with
    | 0 => exact endsOffTarget_first hp hr he hc hsum (notSpecial escFirst) (notSpecial (by decide)) sumEnd
    | 1 => exact h2 ▸ endsOffTarget_second hp hr hsum (notSpecial tfend) meansEnd
  by_cases hesc : cs = s.params.fesc
  · have form : esc s.params cs = [0xDB#8, 0xDD#8] := by rw [esc, if_neg hend, if_pos hesc, h2, h4]
    rw [form] at hj ⊢
    rw [h2] at hesc
    subst hesc
    match j with
    | 0 => exact endsOffTarget_first hp hr he hc hsum (notSpecial escFirst) (notSpecial (by decide)) sumEsc
    | 1 => exact h2 ▸ endsOffTarget_second hp hr hsum (notSpecial tfesc) meansEsc
  · have form : esc s.params cs = [cs] := by rw [esc, if_neg hend, if_neg hesc]
    rw [form] at hj ⊢
    obtain rfl : j = 0 := Nat.lt_one_iff.1 hj
    refine endsOffTarget_single hp hr he hsum (flipBit_ne hk cs) ?_
    rintro hspecial rfl
    rw [h1, h2] at hspecial
    obtain ⟨notEnd, notEsc⟩ := flipBit_zero k hk
    exact hspecial.elim notEnd notEsc

/-- A frame fed to a reset decoder with something else where its escaped checksum was due, which leaves the decoder off its
target: the closing delimiter resets it. -/
theorem feedRaw_badChecksum {s : State} {op : Opcode} {payload bytes : List Byte} (hp : FramingInv s.params)
    (hd : s.dec = Decoder.clear) (hlen : payload.length + 1 ≤ s.params.rxCap)
    (h : EndsOffTarget bytes { s with dec := ⟨opcodeByte op :: payload, sum8 (opcodeByte op :: payload), false, false⟩ }) :
    ∃ t, feedRaw (s.params.fend :: opcodeByte op :: (escAll s.params payload ++ (bytes ++ [s.params.fend]))) s = .next t ∧
      t.dec.ready = false := by
  have fits : Decoder.clear.cur + (opcodeByte op :: payload).length ≤ s.params.rxCap :=
    (Nat.zero_add _).symm ▸ hlen
  have stored := feedRaw_escAll (s := { s with dec := Decoder.clear }) hp rfl rfl fits
  have sum : Decoder.clear.sum + sum8 (opcodeByte op :: payload) = sum8 (opcodeByte op :: payload) := BitVec.zero_add _
  simp only [sum] at stored
  obtain ⟨d, hfed, hoff⟩ := h
  obtain ⟨t, ht, hready⟩ := feedRaw_fend_of_offTarget (s := { s with dec := d }) hoff
  refine ⟨t, ?_, hready⟩
  calc feedRaw (s.params.fend :: opcodeByte op :: (escAll s.params payload ++ (bytes ++ [s.params.fend]))) s
      _ = feedRaw (opcodeByte op :: (escAll s.params payload ++ (bytes ++ [s.params.fend])))
            { s with dec := Decoder.clear } :=
        feedRaw_fend_of_sum_ne (by rw [hd]; rfl) (by rw [hd]; exact hp.target.symm) _
      _ = feedRaw (escAll s.params (opcodeByte op :: payload) ++ (bytes ++ [s.params.fend]))
            { s with dec := Decoder.clear } := by rw [escAll, esc_opcodeByte hp]; rfl
      _ = feedRaw (bytes ++ [s.params.fend]) _ := by rw [feedRaw_append]; exact congrArg (andThen · _) stored
      _ = feedRaw [s.params.fend] _ := by rw [feedRaw_append]; exact congrArg (andThen · _) hfed
      _ = .next t := ht

/-- Settles O9: the sum of opcode and payload lacks exactly the checksum, so a flipped one leaves the decoder off its target. -/
theorem flippedChecksumBitIsRejected : Obligations.FlippedChecksumBitIsRejected := by
  intro op payload s j k hdefault hlen hk hj hd
  have hf : DefaultFormat s.params := by simpa [DefaultFormat] using hdefault
  have room : (opcodeByte op :: payload).length < s.params.rxCap := by rw [List.length_cons]; omega
  have due : sum8 (opcodeByte op :: payload) + checksum s.params (opcodeByte op) payload = s.params.csTarget := by
    rw [← sum8_append_checksum s.params (opcodeByte op) payload, sum8_append, sum8_cons _ [], sum8_nil, BitVec.add_zero]
  have flipped := endsOffTarget_flipped
    (s := { s with dec := ⟨opcodeByte op :: payload, sum8 (opcodeByte op :: payload), false, false⟩ })
    hf rfl rfl room due hk hj
  have rejected := feedRaw_badChecksum (framingInv_of_defaultFormat hf) hd (Nat.le_of_succ_le hlen) flipped
  rwa [hf.1] at rejected

end Sys2Proof.Machine
end

