-- ==== Sys2Proof/Proofs/Commands.lean ====
section
/-! PROOFS. Proofs/Commands.lean: the refusals of EXECUTE (42_engine.md R210, 40_codec.md R133) and the commands of the flash
operations with their operands (41_commands.md R170 to R188). -/

namespace Sys2Proof.Machine

theorem executeStart_busy {op : Byte} {p : List Byte} {e : Byte} {s : State} (h : s.eng.state ≠ .idle) :
    executeStart op p e s = .refused .engineBusy := if_pos h

theorem executeStart_tooLong {op : Byte} {p : List Byte} {e : Byte} {s : State} (h : s.eng.state = .idle)
    (ht : s.flags.transport = false) (hp : s.params.payloadMax < p.length) :
    executeStart op p e s = .refused (.payloadTooLong p.length) := by
  simp [executeStart, h, ht, hp]

/-- Settles O17: every command is the start of an EXECUTE. -/
theorem commandsRefusedWhenBusyOrTooLong : Obligations.CommandsRefusedWhenBusyOrTooLong := by
  intro op p e s
  rw [exec_commandOf]
  exact ⟨executeStart_busy, executeStart_tooLong⟩

/-- A command that starts puts its frame in `tx_buf` and its expected response in `eng_expected` (42_engine.md R211). -/
theorem exec_commandOf_sends (op : Opcode) {p : List Byte} (e : Byte) {s : State} (h : s.eng.state = .idle)
    (ht : s.flags.transport = false) (hp : p.length ≤ s.params.payloadMax) :
    ∃ t, exec (commandOf op p e) s = .next t ∧ t.enc.buf = rawFrame s.params (opcodeByte op) p ∧ t.eng.expected = e ∧
      t.eng.state = .send1 := by
  refine ⟨_, (exec_commandOf op p e s).trans (executeStart_next h hp), ?_⟩
  rw [ht]
  exact ⟨rfl, rfl, rfl⟩

/-- Settles O18: the three commands have no payload; their default frames are evaluated. -/
theorem commandsWithoutOperandsPutTheirFrame : Obligations.CommandsWithoutOperandsPutTheirFrame := by
  intro s i op raw expected hi h ht
  simp only [List.mem_cons, Prod.mk.injEq, List.not_mem_nil, or_false] at hi
  obtain ⟨rfl, rfl, rfl, rfl⟩ | ⟨rfl, rfl, rfl, rfl⟩ | ⟨rfl, rfl, rfl, rfl⟩ := hi
  · exact ⟨by decide, exec_commandOf_sends .readId _ h ht (Nat.zero_le _)⟩
  · exact ⟨by decide, exec_commandOf_sends .bulkErase _ h ht (Nat.zero_le _)⟩
  · exact ⟨by decide, exec_commandOf_sends .readAll _ h ht (Nat.zero_le _)⟩

/-- The address bytes of a page-aligned address of the flash (20_memory.md R78, 30_encoding.md R107). -/
theorem addrBytes_value {a : Nat} (h : a < 2097152) (ha : a % 256 = 0) :
    (BitVec.ofNat 8 (a / 65536)).toNat * 65536 + (BitVec.ofNat 8 (a / 256)).toNat * 256 = a ∧
    (BitVec.ofNat 8 (a / 65536)).toNat ≤ 0x1F := by
  simp only [BitVec.toNat_ofNat]
  omega

/-- A page index of a page-aligned address is sent as that address (43_page_tracker.md R266). -/
theorem pageBytes_eq_addrBytes (a : Nat) : pageBytes (a / 256) = addrBytes a := by
  rw [pageBytes, addrBytes, Nat.div_div_eq_div_mul]

theorem addrBytes_sector {a : Nat} (h : a % 65536 = 0) : addrBytes a = [BitVec.ofNat 8 (a / 65536), 0#8] := by
  have low : (a / 256) % 256 = 0 := by omega
  have zero : BitVec.ofNat 8 (a / 256) = 0#8 := BitVec.eq_of_toNat_eq (by rw [BitVec.toNat_ofNat]; exact low)
  rw [addrBytes, zero]

/-- No byte of a default SECTOR_ERASE frame needs escaping when the high byte is at most `0x1F` (41_commands.md R180). -/
theorem rawFrame_sectorErase {hi : Byte} (h : hi.toNat ≤ 0x1F) :
    rawFrame .default 0xD8#8 [hi, 0x00#8] = [0xC0#8, 0xD8#8, hi, 0x00#8, 0x27#8 - hi, 0xC0#8] := by
  have sum : checksum .default 0xD8#8 [hi, 0x00#8] = 0x27#8 - hi := by
    simp only [checksum, sum8_cons, sum8_nil, show Params.default.csTarget = 0xFF#8 from rfl]
    bv_omega
  have plain {b : Byte} (hb : b.toNat ≤ 0x27) : esc .default b = [b] := by
    rw [esc, if_neg, if_neg] <;> rintro rfl <;> exact absurd hb (by decide)
  rw [rawFrame, sum, escAll, escAll, escAll, plain (by omega), plain (by decide), plain (by bv_omega)]
  rfl

/-- Settles O19: `hi` and `mid` are the address bytes; the payloads have at most two bytes more than the data. -/
theorem addressedCommandsCarryHighAndMidByte : Obligations.AddressedCommandsCarryHighAndMidByte := by
  intro s a data ha hpage _ hdata h ht
  obtain ⟨value, small⟩ := addrBytes_value ha hpage
  have two : (addrBytes a).length ≤ s.params.payloadMax := Nat.le_add_right 2 _
  have fits : (addrBytes a ++ data).length ≤ s.params.payloadMax := by
    rw [List.length_append, Params.payloadMax]
    exact Nat.add_le_add_left hdata 2
  refine ⟨_, _, value, small, ?_, ?_, ?_, fun hsec => ?_, rawFrame_sectorErase small⟩
  · obtain ⟨t, hx, hbuf, hexp, -⟩ := exec_commandOf_sends .read 0x03#8 h ht two
    exact ⟨t, hx, hbuf, hexp⟩
  · rw [cmdReadPage, pageBytes_eq_addrBytes, cmdRead]
  · obtain ⟨t, hx, hbuf, hexp, -⟩ := exec_commandOf_sends .program 0x44#8 h ht fits
    exact ⟨t, hx, hbuf, hexp⟩
  · obtain ⟨t, hx, hbuf, hexp, -⟩ := exec_commandOf_sends .sectorErase 0x44#8 h ht two
    rw [addrBytes_sector hsec] at hbuf
    exact ⟨t, hx, hbuf, hexp⟩

end Sys2Proof.Machine
end

