-- ==== Sys2Proof/Proofs/Responses.lean ====
section
/-! PROOFS. Proofs/Responses.lean: the four tags with a handler (41_commands.md R171, R185, R187, R191): the verdict on the frame
by its cases, and the state it leaves. -/

namespace Sys2Proof.Machine

/-! ### The verdicts -/

theorem verdictReadId_succeed {s : State} (he : s.eng.expected = 0x9F#8) (h : 5 ≤ s.dec.cur) :
    verdictReadId s = .succeed := by
  rw [verdictReadId, if_pos he, if_neg (Nat.not_lt.2 h)]

theorem verdictReadId_short {s : State} (he : s.eng.expected = 0x9F#8) (h : s.dec.cur < 5) :
    verdictReadId s = .malformed := by
  rw [verdictReadId, if_pos he, if_pos h]

theorem verdictReadId_unexpected {s : State} (he : s.eng.expected ≠ 0x9F#8) : verdictReadId s = .ignoreOther :=
  if_neg he

theorem verdictPage_short {n : Nat} {s : State} (h : s.dec.cur < n) : verdictPage n s = .malformed := if_pos h

theorem verdictPage_outOfRange {n : Nat} {s : State} (h : n ≤ s.dec.cur) (hp : s.params.pageCount ≤ framePage s.dec) :
    verdictPage n s = .addrRange := by
  rw [verdictPage, if_neg (Nat.not_lt.2 h), if_pos hp]

/-- The verdict on a frame that resolved its page, by the expected response (41_commands.md R185, R191). -/
def resolvedVerdict (expected : Byte) : Verdict := if expected = 0x03#8 then .succeed else .absorb

theorem verdictPage_inRange {n : Nat} {s : State} (h : n ≤ s.dec.cur) (hp : framePage s.dec < s.params.pageCount) :
    verdictPage n s = resolvedVerdict s.eng.expected := by
  rw [verdictPage, if_neg (Nat.not_lt.2 h), if_neg (Nat.not_le.2 hp), resolvedVerdict]

theorem bulkAcknowledged_iff (p : Params) (d : Decoder) :
    bulkAcknowledged p d = true ↔ 3 ≤ d.cur ∧ frameByte d 1 = p.bulkAck := by
  simp [bulkAcknowledged]

/-- A READY frame ends the wait: READY is expected, or the frame confirms an expected bulk erase (41_commands.md R187). -/
def ReadyQualifies (s : State) : Prop :=
  s.eng.expected = 0x44#8 ∨ (s.eng.expected = 0xC7#8 ∧ 3 ≤ s.dec.cur ∧ frameByte s.dec 1 = s.params.bulkAck)

theorem verdictReady_succeed {s : State} (h : ReadyQualifies s) : verdictReady s = .succeed := by
  unfold verdictReady
  obtain h | ⟨h, hack⟩ := h
  · rw [if_pos h]
  · simp [h, (bulkAcknowledged_iff s.params s.dec).2 hack]

theorem verdictReady_absorb {s : State} (h : ¬ReadyQualifies s) : verdictReady s = .absorb := by
  simp only [ReadyQualifies, ← bulkAcknowledged_iff, not_or] at h
  simp [verdictReady, h.1, h.2]

/-- The engine after a frame that resolved its page (42_engine.md R226, R227). -/
theorem ending_resolved_eng (s : State) : (ending (resolvedVerdict s.eng.expected) s).eng =
    if s.eng.expected = 0x03#8 then { s.eng with resFrame := s.dec.buf, outcome := .success, state := .done }
    else { s.eng with tmo := 0 } := by
  unfold resolvedVerdict
  split <;> rfl

theorem ending_resolved_flags (e : Byte) (s : State) : (ending (resolvedVerdict e) s).flags = s.flags := by
  unfold resolvedVerdict
  split <;> rfl

/-! ### READ_ID and READY -/

/-- Settles O21: by the verdict; only Success latches the identification. -/
theorem readIdResponseLatchesTheIdentification : Obligations.ReadIdResponseLatchesTheIdentification := by
  intro s hr
  rw [exec_readIdRsp hr]
  refine ⟨fun he hlen => ?_, fun he hlen => ?_, fun he => ?_⟩
  · rw [verdictReadId_succeed he hlen]; rfl
  · rw [verdictReadId_short he hlen]; rfl
  · rw [verdictReadId_unexpected he]; rfl

/-- Settles O24: the verdict is Success or Absorb by the statement's own condition. -/
theorem readyResponseSucceedsWhenExpected : Obligations.ReadyResponseSucceedsWhenExpected := by
  intro s hr
  rw [exec_readyRsp hr]
  split
  · rename_i h; rw [verdictReady_succeed h]; rfl
  · rename_i h; rw [verdictReady_absorb h]; rfl

/-! ### READ and EMPTY -/

/-- A frame of at least `readMin` bytes has a page of data bytes (30_encoding.md R113). -/
theorem frameData_length {p : Params} {d : Decoder} (h : p.readMin ≤ d.buf.length) :
    (frameData p d).length = p.pageSize := by
  simp only [Params.readMin, Params.dataMax] at h
  simp only [frameData, Params.dataMax, List.length_take, List.length_drop]
  omega

theorem getD_frameData {p : Params} {d : Decoder} {i : Nat} (h : i < p.pageSize) :
    (frameData p d).getD i 0#8 = d.buf.getD (3 + i) 0#8 := by
  simp [frameData, Params.dataMax, List.getD_eq_getElem?_getD, h]

theorem exec_readRsp_inRange {s : State} (hr : s.dec.ready = true) (h : s.params.readMin ≤ s.dec.cur)
    (hp : framePage s.dec < s.params.pageCount) :
    exec .readRsp s = .next (ending (resolvedVerdict s.eng.expected) (storePage s)) := by
  rw [exec_readRsp hr, if_pos ((resolvesPage_verdictPage _ s).2 ⟨h, hp⟩), verdictPage_inRange h hp]

theorem exec_emptyRsp_inRange {s : State} (hr : s.dec.ready = true) (h : 4 ≤ s.dec.cur)
    (hp : framePage s.dec < s.params.pageCount) :
    exec .emptyRsp s = .next (ending (resolvedVerdict s.eng.expected) (clearPage s)) := by
  rw [exec_emptyRsp hr, if_pos ((resolvesPage_verdictPage _ s).2 ⟨h, hp⟩), verdictPage_inRange h hp]

/-- Settles O22: the side effect is `storePage`, whatever is expected. -/
theorem readResponseWritesThePageItNames : Obligations.ReadResponseWritesThePageItNames := by
  intro s p hm hb hr hlen hpage hp
  have hframe : framePage s.dec = p := hpage.symm
  have hdata := frameData_length hlen
  refine ⟨_, exec_readRsp_inRange hr hlen (hframe ▸ hp), fun i hi => ?_, fun a ha => ?_, ?_, fun q hq => ?_,
    ending_resolved_eng (storePage s), ending_dec _ _, ending_enc _ _, ending_ident _ _, ending_seq _ _,
    ending_resolved_flags _ _, ending_params _ _, ending_ports _ _⟩
  · have inside : p * s.params.pageSize ≤ p * s.params.pageSize + i ∧
        p * s.params.pageSize + i < p * s.params.pageSize + s.params.pageSize :=
      ⟨Nat.le_add_right _ _, Nat.add_lt_add_left hi _⟩
    rw [ending_memImage, storePage_memImage, read_writeBytes _ hm, hframe, hdata, if_pos inside, Nat.add_sub_cancel_left,
      getD_frameData hi]
  · rw [ending_memImage, storePage_memImage, read_writeBytes _ hm, hframe, hdata, if_neg ha]
  · rw [ending_pageDirty, storePage_pageDirty, ptTest_ptClear hb, if_pos hframe.symm]
  · rw [ending_pageDirty, storePage_pageDirty, ptTest_ptClear hb, hframe, if_neg hq]

/-- Settles O23: the side effect is `clearPage`, whatever is expected. -/
theorem emptyResponseClearsThePageItNames : Obligations.EmptyResponseClearsThePageItNames := by
  intro s p hb hr hlen hpage hp
  have hframe : framePage s.dec = p := hpage.symm
  refine ⟨_, exec_emptyRsp_inRange hr hlen (hframe ▸ hp), ending_memImage _ _, ?_, fun q hq => ?_,
    ending_resolved_eng (clearPage s), ending_dec _ _, ending_enc _ _, ending_ident _ _, ending_seq _ _,
    ending_resolved_flags _ _, ending_params _ _, ending_ports _ _⟩
  · rw [ending_pageDirty, clearPage_pageDirty, ptTest_ptClear hb, if_pos hframe.symm]
  · rw [ending_pageDirty, clearPage_pageDirty, ptTest_ptClear hb, hframe, if_neg hq]

/-- Settles O25: a faulty frame has no side effect; its ending is the flag and the decoder reset. -/
theorem shortAndOutOfRangePagesSetTheFaultFlags : Obligations.ShortAndOutOfRangePagesSetTheFaultFlags := by
  intro s i n hi hr
  obtain ⟨rfl, rfl⟩ | ⟨rfl, rfl⟩ := hi
  · rw [exec_readRsp hr]
    refine ⟨fun hlen => ?_, fun hlen hp => ?_⟩
    · rw [verdictPage_short hlen]; rfl
    · rw [verdictPage_outOfRange hlen hp]; rfl
  · rw [exec_emptyRsp hr]
    refine ⟨fun hlen => ?_, fun hlen hp => ?_⟩
    · rw [verdictPage_short hlen]; rfl
    · rw [verdictPage_outOfRange hlen hp]; rfl

end Sys2Proof.Machine
end

