-- ==== Sys2Proof/Proofs/EngineSteps.lean ====
section
/-! PROOFS. Proofs/EngineSteps.lean: the engine's own steps (42_engine.md R212 to R218): the writes, the poll by its answer, the
counting of iterations. -/

namespace Sys2Proof.Machine

/-! ### The writes -/

theorem txWrite_cons {s : State} {r : TxAnswer} {rest : List TxAnswer} (h : s.ports.txScript = r :: rest)
    (bytes : List Byte) : txWrite bytes s =
      (r, { s with ports := { s.ports with txScript := rest, wireOut := s.ports.wireOut ++ [bytes] } }) := by
  simp only [txWrite, h]

/-- Settles O31: `CHECK_WRITE` compares the answer with the number of bytes offered. -/
theorem writesOfferTheFrameInOneOrTwoParts : Obligations.WritesOfferTheFrameInOneOrTwoParts := by
  refine ⟨fun s r rest he hs => ?_, fun s => coreStep_gap, fun s r rest he hs => ?_⟩
  · rw [coreStep_send1 he, firstWrite, txWrite_cons hs]
    simp only [checkWrite, List.length_take]
    split <;> rfl
  · rw [coreStep_send2 he, secondWrite, txWrite_cons hs]
    simp only [checkWrite, List.length_drop]
    split <;> rfl

/-! ### The poll, by its answer -/

theorem rxPoll_cons {s : State} {r : RxAnswer} {rest : List RxAnswer} (h : s.ports.rxScript = r :: rest) :
    rxPoll s = (r, { s with ports := { s.ports with rxScript := rest } }) := by
  simp only [rxPoll, h]

theorem coreStep_poll_fail {s : State} {rest : List RxAnswer} (he : s.eng.state = .poll)
    (h : s.ports.rxScript = .fail :: rest) :
    coreStep s = .next (transportError { s with ports := { s.ports with rxScript := rest } }) := by
  rw [coreStep_poll he, pollIteration, rxPoll_cons h]

theorem coreStep_poll_none {s : State} {rest : List RxAnswer} (he : s.eng.state = .poll)
    (h : s.ports.rxScript = .none :: rest) :
    coreStep s = afterByte { s with ports := { s.ports with rxScript := rest } } := by
  rw [coreStep_poll he, pollIteration, rxPoll_cons h]

theorem coreStep_poll_byte {s : State} {b : Byte} {rest : List RxAnswer} (he : s.eng.state = .poll)
    (h : s.ports.rxScript = .byte b :: rest) :
    coreStep s = andThen (runCode (.wire b) { s with ports := { s.ports with rxScript := rest } }) afterByte := by
  rw [coreStep_poll he, pollIteration, rxPoll_cons h]

/-- With no frame ready the byte is a `wireStep` of the decoder (40_codec.md R148). -/
theorem coreStep_poll_byte_unready {s : State} {b : Byte} {rest : List RxAnswer} (he : s.eng.state = .poll)
    (hr : s.dec.ready = false) (h : s.ports.rxScript = .byte b :: rest) :
    coreStep s = afterByte { s with
      dec := wireStep s.params b s.dec, ports := { s.ports with rxScript := rest } } := by
  rw [coreStep_poll_byte he h, runCode_wire (by exact hr), andThen_next]

theorem afterByte_ready {s : State} (h : s.dec.ready = true) : afterByte s =
    andThen (runCode (.frame s.dec.buf) s) (fun t => .next (afterVerdict (classifyVerdict s) t)) := if_pos h

theorem afterByte_unready {s : State} (h : s.dec.ready = false) : afterByte s = .next (timeoutTick s) :=
  if_neg (by simp [h])

/-- The classification of a ready frame with a tag, and its tick, in one expression (42_engine.md R217, R220). -/
theorem afterByte_classify {s : State} (h : s.dec.ready = true) (hb : s.dec.buf ≠ []) :
    afterByte s = .next (afterVerdict (classifyVerdict s) (ending (classifyVerdict s) (sideEffect s))) := by
  rw [afterByte_ready h, runCode_frame h hb, andThen_next]

/-- Settles O32: a failing poll takes the transport error before any decoder step. -/
theorem pollFailureEndsTheExecute : Obligations.PollFailureEndsTheExecute := fun _ _ he h => coreStep_poll_fail he h

theorem runCode_decoded {c : Code} {s : State} {i : Instr} (h : decode s.params c = .ok i) : runCode c s = exec i s := by
  rw [runCode, h]

/-- A tag that is no opcode is none of the four with a handler (30_encoding.md R118). -/
theorem classifyVerdict_of_not_opcode {s : State} (h : opcodeOf (frameByte s.dec 0) = none) :
    classifyVerdict s = .ignoreOther := by
  have differs (op : Opcode) : frameByte s.dec 0 ≠ opcodeByte op := fun htag => by
    rw [htag, opcodeOf_opcodeByte] at h
    cases h
  have notReadId : frameByte s.dec 0 ≠ 0x9F#8 := differs .readId
  have notRead : frameByte s.dec 0 ≠ 0x03#8 := differs .read
  have notReady : frameByte s.dec 0 ≠ 0x44#8 := differs .ready
  have notEmpty : frameByte s.dec 0 ≠ 0x45#8 := differs .empty
  rw [classifyVerdict, if_neg notReadId, if_neg notRead, if_neg notReady, if_neg notEmpty]

/-- A frame whose tag is no opcode is ignored and its verdict says so (30_encoding.md R118). -/
theorem runCode_frame_tagNotAnOpcode {s : State} {tag : Byte} (hr : s.dec.ready = true)
    (h : decode s.params (.frame s.dec.buf) = .error (.tagNotAnOpcode tag)) :
    runCode (.frame s.dec.buf) s = .next (ignoreOther s) ∧ classifyVerdict s = .ignoreOther := by
  refine ⟨by rw [runCode, h]; exact onFrame_ready hr, classifyVerdict_of_not_opcode ?_⟩
  cases hb : s.dec.buf with
  | nil => rw [hb] at h; cases h
  | cons b rest =>
    rw [hb] at h
    simp only [decode] at h
    split at h <;> cases h
    rename_i hop
    simpa [frameByte, hb] using hop

/-- Settles O30: the poll and the frame port run what the decoder reads. -/
theorem stepRunsTheDecodedByteAndFrame : Obligations.StepRunsTheDecodedByteAndFrame := by
  refine ⟨fun s b rest i hm he hs hd => ?_, fun t i hr hd => ?_, fun t tag hr hd => ?_, fun t => afterByte_unready⟩
  · rw [step_nil hm, coreStep_poll_byte he hs, runCode_decoded (by exact hd)]
  · rw [afterByte_ready hr, runCode_decoded hd]
  · obtain ⟨hrun, hverdict⟩ := runCode_frame_tagNotAnOpcode hr hd
    rw [afterByte_ready hr, hrun, hverdict]
    rfl

/-! ### Counting iterations -/

/-- The tick with the counter written as the budget where it expires (42_engine.md R218). -/
theorem timeoutTick_eng (s : State) : timeoutTick s = { s with eng :=
    if s.eng.tmo + 1 = s.params.tmoIter then
      { s.eng with tmo := s.params.tmoIter, outcome := .timeout, state := .done }
    else { s.eng with tmo := s.eng.tmo + 1 } } := by
  rw [timeoutTick_eq]
  split
  · rename_i h; rw [h]
  · rfl

theorem step_silent {s : State} {rest : List RxAnswer} (hm : s.ports.moves = []) (he : s.eng.state = .poll)
    (hr : s.dec.ready = false) (h : s.ports.rxScript = .none :: rest) :
    step s = .next (timeoutTick { s with ports := { s.ports with rxScript := rest } }) := by
  rw [step_nil hm, coreStep_poll_none he h]
  exact afterByte_unready hr

/-- Silent polls below the budget only count (42_engine.md R218). -/
theorem steps_silent {n : Nat} : ∀ {s : State} {rest : List RxAnswer}, s.ports.moves = [] → s.eng.state = .poll →
    s.dec.ready = false → s.eng.tmo + n < s.params.tmoIter → s.ports.rxScript = List.replicate n .none ++ rest →
    steps n s = .next { s with
      ports := { s.ports with rxScript := rest }, eng := { s.eng with tmo := s.eng.tmo + n } } := by
  induction n with
  | zero => intro s rest _ _ _ _ h; cases h; rfl
  | succ n ih =>
    intro s rest hm he hr hlt h
    rw [List.replicate_succ, List.cons_append] at h
    have below : ¬(s.eng.tmo + 1 = s.params.tmoIter) := by omega
    rw [steps_succ, step_silent hm he hr h, andThen_next, timeoutTick_eng, if_neg below]
    have tail := ih (rest := rest) (s := { s with
      ports := { s.ports with rxScript := List.replicate n .none ++ rest }, eng := { s.eng with tmo := s.eng.tmo + 1 } })
      hm he hr (by simp only; omega) rfl
    rw [tail]
    simp only [Nat.add_assoc, Nat.add_comm 1]

/-- Settles O33: all polls but the last only count; the last is a tick that may expire. -/
theorem silentPollsCountToTimeout : Obligations.SilentPollsCountToTimeout := by
  intro n s rest hm he hr hn hle h
  obtain ⟨n, rfl⟩ : ∃ k, n = k + 1 := ⟨n - 1, by omega⟩
  rw [List.replicate_succ', List.append_assoc] at h
  have last := step_silent (rest := rest) (s := { s with
    ports := { s.ports with rxScript := .none :: rest }, eng := { s.eng with tmo := s.eng.tmo + n } }) hm he hr rfl
  rw [steps_add 1 (steps_silent hm he hr (by omega) h), steps_succ, List.singleton_append, last, andThen_next, steps_zero,
    timeoutTick_eng]
  rfl

/-- Settles O34: such a byte leaves no frame ready, so the iteration ticks. -/
theorem bytesAloneDoNotRefreshTheTimeout : Obligations.BytesAloneDoNotRefreshTheTimeout := by
  intro s b rest he hr h hb
  have unready : (wireStep s.params b s.dec).ready = false := by
    by_contra hready
    obtain ⟨hfend, hsum, -⟩ := wireStep_ready hr (by simpa using hready)
    exact hb.elim (fun h => h hfend) (fun h => h hsum)
  refine ⟨_, unready, ?_⟩
  rw [coreStep_poll_byte_unready he hr h, afterByte_unready unready, timeoutTick_eng]

/-! ### The iteration that completes a frame -/

/-- The engine after a verdict and its tick, by the verdict (42_engine.md R218, R225 to R229). -/
def engineAfter (p : Params) (frame : List Byte) (e : Engine) : Verdict → Engine
  | .succeed => { e with resFrame := frame, outcome := .success, state := .done }
  | .absorb | .ignoreOther => { e with tmo := 0 }
  | .malformed | .addrRange =>
    if e.tmo + 1 = p.tmoIter then { e with tmo := p.tmoIter, outcome := .timeout, state := .done }
    else { e with tmo := e.tmo + 1 }

/-- A verdict and its tick write the decoder, the engine and the flags. -/
theorem afterVerdict_ending {s : State} (hi : 1 ≤ s.params.tmoIter) (v : Verdict) :
    ∃ f, afterVerdict v (ending v s) =
      { s with dec := Decoder.clear, eng := engineAfter s.params s.dec.buf s.eng v, flags := f } := by
  cases v with
  | succeed => exact ⟨_, rfl⟩
  | absorb | ignoreOther => exact ⟨_, timeoutExpiry_of_tmo_zero (s := absorb s) rfl hi⟩
  | malformed | addrRange => exact ⟨_, timeoutTick_eng _⟩

section classify
variable {s : State} {tag : Byte} {body : List Byte}

/-- The frame ends the wait with Success: READ_ID, a page or READY, long enough, in range, and expected. -/
def Qualifies (s : State) (tag : Byte) (body : List Byte) : Prop :=
  (tag = 0x9F#8 ∧ s.eng.expected = 0x9F#8 ∧ 4 ≤ body.length) ∨
  ((tag = 0x03#8 ∧ s.params.readMin ≤ body.length + 1 ∨ tag = 0x45#8 ∧ 3 ≤ body.length) ∧ s.eng.expected = 0x03#8 ∧
    (body.getD 0 0#8).toNat * 256 + (body.getD 1 0#8).toNat < s.params.pageCount) ∨
  (tag = 0x44#8 ∧ (s.eng.expected = 0x44#8 ∨
    s.eng.expected = 0xC7#8 ∧ 2 ≤ body.length ∧ body.getD 0 0#8 = s.params.bulkAck))

/-- The frame is faulty: too short for its tag, or out of range. -/
def Faulty (s : State) (tag : Byte) (body : List Byte) : Prop :=
  (tag = 0x9F#8 ∧ s.eng.expected = 0x9F#8 ∧ body.length < 4) ∨
  (tag = 0x03#8 ∧ body.length + 1 < s.params.readMin) ∨ (tag = 0x45#8 ∧ body.length < 3) ∨
  ((tag = 0x03#8 ∨ tag = 0x45#8) ∧
    s.params.pageCount ≤ (body.getD 0 0#8).toNat * 256 + (body.getD 1 0#8).toNat)

variable (hb : s.dec.buf = tag :: body)
include hb

theorem cur_of_buf : s.dec.cur = body.length + 1 := congrArg List.length hb

theorem framePage_of_buf : framePage s.dec = (body.getD 0 0#8).toNat * 256 + (body.getD 1 0#8).toNat := by
  simp [framePage, frameByte, hb]

/-- `CLASSIFY` by the tag that leads the frame (42_engine.md R220). -/
theorem classifyVerdict_of_buf : classifyVerdict s =
    if tag = 0x9F#8 then verdictReadId s else if tag = 0x03#8 then verdictPage s.params.readMin s
    else if tag = 0x44#8 then verdictReady s else if tag = 0x45#8 then verdictPage 4 s else .ignoreOther := by
  have htag : frameByte s.dec 0 = tag := by simp [frameByte, hb]
  rw [classifyVerdict, htag]

theorem readyQualifies_of_buf : ReadyQualifies s ↔ s.eng.expected = 0x44#8 ∨
    s.eng.expected = 0xC7#8 ∧ 2 ≤ body.length ∧ body.getD 0 0#8 = s.params.bulkAck := by
  simp [ReadyQualifies, cur_of_buf hb, frameByte, hb]

theorem classifyVerdict_of_qualifies (h : Qualifies s tag body) : classifyVerdict s = .succeed := by
  have hcur := cur_of_buf hb
  have hpage := framePage_of_buf hb
  rw [classifyVerdict_of_buf hb]
  obtain ⟨rfl, he, hlen⟩ | ⟨⟨rfl, hlen⟩ | ⟨rfl, hlen⟩, he, hp⟩ | ⟨rfl, he⟩ := h
  · exact verdictReadId_succeed he (by omega)
  · exact (verdictPage_inRange (n := s.params.readMin) (by omega) (by omega)).trans (if_pos he)
  · exact (verdictPage_inRange (n := 4) (by omega) (by omega)).trans (if_pos he)
  · exact verdictReady_succeed ((readyQualifies_of_buf hb).2 he)

/-- A page frame that is too short or out of range is faulty, the length tested first (60_exceptions.md R331). -/
theorem verdictPage_faulty {n : Nat} (h : body.length + 1 < n ∨
    s.params.pageCount ≤ (body.getD 0 0#8).toNat * 256 + (body.getD 1 0#8).toNat) :
    verdictPage n s = .malformed ∨ verdictPage n s = .addrRange := by
  rw [← cur_of_buf hb, ← framePage_of_buf hb] at h
  by_cases hlen : s.dec.cur < n
  · exact .inl (verdictPage_short hlen)
  · exact .inr (verdictPage_outOfRange (Nat.le_of_not_lt hlen) (h.resolve_left hlen))

theorem classifyVerdict_of_faulty (h : Faulty s tag body) :
    classifyVerdict s = .malformed ∨ classifyVerdict s = .addrRange := by
  rw [classifyVerdict_of_buf hb]
  obtain ⟨rfl, he, hlen⟩ | ⟨rfl, hlen⟩ | ⟨rfl, hlen⟩ | ⟨rfl | rfl, hp⟩ := h
  · exact .inl (verdictReadId_short he (by rw [cur_of_buf hb]; omega))
  · exact verdictPage_faulty hb (.inl hlen)
  · exact verdictPage_faulty (n := 4) hb (.inl (by omega))
  · exact verdictPage_faulty hb (.inr hp)
  · exact verdictPage_faulty hb (.inr hp)

/-- A page frame without fault that is not expected is absorbed (42_engine.md R227). -/
theorem verdictPage_absorb {n : Nat} (hlen : n ≤ body.length + 1)
    (hp : (body.getD 0 0#8).toNat * 256 + (body.getD 1 0#8).toNat < s.params.pageCount) (he : s.eng.expected ≠ 0x03#8) :
    verdictPage n s = .absorb := by
  rw [← cur_of_buf hb] at hlen
  rw [← framePage_of_buf hb] at hp
  exact (verdictPage_inRange hlen hp).trans (if_neg he)

theorem classifyVerdict_of_other (hq : ¬Qualifies s tag body) (hf : ¬Faulty s tag body) :
    classifyVerdict s = .absorb ∨ classifyVerdict s = .ignoreOther := by
  simp only [Qualifies, Faulty, not_or] at hq hf
  obtain ⟨notId, notPage, notReady⟩ := hq
  obtain ⟨notShortId, notShortRead, notShortEmpty, notOut⟩ := hf
  rw [classifyVerdict_of_buf hb]
  by_cases h1 : tag = 0x9F#8
  · rw [if_pos h1]
    refine .inr (verdictReadId_unexpected fun he => ?_)
    obtain hlen | hlen := Nat.lt_or_ge body.length 4
    · exact notShortId ⟨h1, he, hlen⟩
    · exact notId ⟨h1, he, hlen⟩
  rw [if_neg h1]
  by_cases h2 : tag = 0x03#8
  · have hlen := Nat.le_of_not_lt fun h => notShortRead ⟨h2, h⟩
    have hp := Nat.lt_of_not_le fun h => notOut ⟨.inl h2, h⟩
    rw [if_pos h2]
    exact .inl (verdictPage_absorb hb hlen hp fun he => notPage ⟨.inl ⟨h2, hlen⟩, he, hp⟩)
  rw [if_neg h2]
  by_cases h3 : tag = 0x44#8
  · rw [if_pos h3]
    exact .inl (verdictReady_absorb fun h => notReady ⟨h3, (readyQualifies_of_buf hb).1 h⟩)
  rw [if_neg h3]
  by_cases h4 : tag = 0x45#8
  · have hlen := Nat.le_of_not_lt fun h => notShortEmpty ⟨h4, h⟩
    have hp := Nat.lt_of_not_le fun h => notOut ⟨.inr h4, h⟩
    rw [if_pos h4]
    exact .inl (verdictPage_absorb hb (by omega) hp fun he => notPage ⟨.inr ⟨h4, hlen⟩, he, hp⟩)
  · exact .inr (if_neg h4)

/-- The engine after the classification, by the two conditions on the frame. -/
theorem engineAfter_classifyVerdict (e : Engine) {_ : Decidable (Qualifies s tag body)}
    {_ : Decidable (Faulty s tag body)} :
    engineAfter s.params s.dec.buf e (classifyVerdict s) =
      if Qualifies s tag body then { e with resFrame := s.dec.buf, outcome := .success, state := .done }
      else if Faulty s tag body then
        if e.tmo + 1 = s.params.tmoIter then { e with tmo := s.params.tmoIter, outcome := .timeout, state := .done }
        else { e with tmo := e.tmo + 1 }
      else { e with tmo := 0 } := by
  split
  · rename_i hq; rw [classifyVerdict_of_qualifies hb hq]; rfl
  · rename_i hq
    split
    · rename_i hf; obtain hv | hv := classifyVerdict_of_faulty hb hf <;> rw [hv] <;> rfl
    · rename_i hf; obtain hv | hv := classifyVerdict_of_other hb hq hf <;> rw [hv] <;> rfl

end classify

/-- The delimiter on a sum that is the target makes the frame ready (40_codec.md R141). -/
theorem wireStep_fend_of_sum_eq {p : Params} {d : Decoder} (h : d.sum = p.csTarget) :
    wireStep p p.fend d = { d with ready := true } := by
  rw [wireStep_fend, decFend_eq, if_pos h]

/-- A poll that answered the delimiter has completed the frame in the buffer. -/
def frameCompleted (rest : List RxAnswer) (s : State) : State :=
  { s with dec := { s.dec with ready := true }, ports := { s.ports with rxScript := rest } }

/-- Settles O35: the delimiter makes the frame ready, and the iteration classifies it. -/
theorem completedFrameEndsTheWaitExactlyWhenItQualifies :
    Obligations.CompletedFrameEndsTheWaitExactlyWhenItQualifies := by
  intro s tag body rest he _ hr hsum hbuf h hi
  have iteration : coreStep s = afterByte (frameCompleted rest s) := by
    rw [coreStep_poll_byte_unready he hr h, wireStep_fend_of_sum_eq hsum]
    rfl
  have hbuf' : (frameCompleted rest s).dec.buf = tag :: body := hbuf
  obtain ⟨f, hf⟩ := afterVerdict_ending (s := sideEffect (frameCompleted rest s))
    (by rw [sideEffect_params]; exact hi) (classifyVerdict (frameCompleted rest s))
  rw [iteration, afterByte_classify rfl (by rw [hbuf']; exact List.cons_ne_nil _ _), hf]
  refine ⟨_, rfl, rfl, ?_, sideEffect_enc _, sideEffect_seq _, sideEffect_params _, sideEffect_ports _⟩
  rw [sideEffect_params, sideEffect_dec, sideEffect_eng]
  exact engineAfter_classifyVerdict hbuf' s.eng

end Sys2Proof.Machine
end

