-- ==== Sys2Proof/Proofs/Operations.lean ====
section
/-! PROOFS. Proofs/Operations.lean: the flash operations label by label (44_flash_operations.md R282 to R306): what a label does with
the engine idle, and with each outcome; and the whole run of a bulk erase that nothing answers. -/

namespace Sys2Proof.Machine

/-! ### The policies of the labels that wait -/

theorem opWaiting_busy : ∀ {l}, opWaiting l = true → (l == .idle || l == .done) = false := by
  rintro ⟨⟩ <;> decide

section policy
variable {s : State}

theorem onSuccess_idWait (h : s.seq.state = .idWait) :
    onSuccess s = .next (finishOk (report .none (.ids s.ident.mfr s.ident.dev0 s.ident.dev1) s)) := by rw [onSuccess, h]

theorem onSuccess_beWait (h : s.seq.state = .beWait) : onSuccess s = .next (finishOk s) := by rw [onSuccess, h]

theorem onSuccess_seWait (h : s.seq.state = .seWait) :
    onSuccess s = .next (advanceAddr s.params.sectorSize .seNext s) := by rw [onSuccess, h]

theorem onSuccess_pgWait (h : s.seq.state = .pgWait) :
    onSuccess s = .next (advanceAddr s.params.pageSize .pgNext s) := by rw [onSuccess, h]

theorem onSuccess_raStartWait (h : s.seq.state = .raStartWait) : onSuccess s = .next (goTo .raPass s) := by
  rw [onSuccess, h]

theorem onSuccess_raWait (h : s.seq.state = .raWait) : onSuccess s = .next (nextPage s) := by rw [onSuccess, h]

theorem onTimeout_idWait (h : s.seq.state = .idWait) :
    onTimeout s = .next (raiseOp .protocolTimeout (.operation .identify) s) := by rw [onTimeout, h]

theorem onTimeout_beWait (h : s.seq.state = .beWait) :
    onTimeout s = .next (raiseOp .protocolTimeout .noAnswerFromProgrammer s) := by rw [onTimeout, h]

theorem onTimeout_seWait (h : s.seq.state = .seWait) : onTimeout s = .next (sectorTimeout s) := by rw [onTimeout, h]

theorem onTimeout_pgWait (h : s.seq.state = .pgWait) : onTimeout s = .next (programTimeout s) := by rw [onTimeout, h]

theorem onTimeout_raStartWait (h : s.seq.state = .raStartWait) :
    onTimeout s = .next (raiseOp .protocolTimeout (.operation .readAll) s) := by rw [onTimeout, h]

theorem onTimeout_raWait (h : s.seq.state = .raWait) : onTimeout s = .next (readTimeout s) := by rw [onTimeout, h]

end policy

/-! ### Collecting an outcome -/

section outcome
variable {s : State} {l : OpState} (he : s.eng.state = .done) (hl : s.seq.state = l) (hw : opWaiting l = true)
include he hl hw

theorem coreStep_collects : coreStep s = collectOutcome s :=
  coreStep_done he (not_resting_of_label hl (opWaiting_busy hw))

theorem coreStep_success (ho : s.eng.outcome = .success) : coreStep s = onSuccess (collected s) := by
  rw [coreStep_collects he hl hw, collectOutcome, ho]

theorem coreStep_timeout (ho : s.eng.outcome = .timeout) : coreStep s = onTimeout (collected s) := by
  rw [coreStep_collects he hl hw, collectOutcome, ho]

theorem coreStep_transportFailure (ho : s.eng.outcome = .transportFailure) :
    coreStep s = .next (onTransportFailure (collected s)) := by
  rw [coreStep_collects he hl hw, collectOutcome, ho]

end outcome

/-- Settles O36: the outcome raises the operation's error, and at `OP_DONE` with the engine idle nothing moves. -/
theorem transportFailureEndsTheOperation : Obligations.TransportFailureEndsTheOperation := by
  intro s hl he ho
  have hw : opWaiting s.seq.state = true := by
    simp only [List.mem_cons, List.not_mem_nil, or_false] at hl
    obtain hl | hl | hl | hl | hl | hl := hl <;> rw [hl] <;> rfl
  exact ⟨_, rfl, coreStep_transportFailure he rfl hw ho, coreStep_of_coreResting rfl⟩

/-- Settles O37: the policies of the two operations with one command. -/
theorem identifyAndBulkEraseEndOnTheirOneOutcome : Obligations.IdentifyAndBulkEraseEndOnTheirOneOutcome := by
  intro s he
  refine ⟨fun hl ho => ?_, fun hl ho => ?_, fun hl ho => ?_, fun hl ho => ?_⟩
  · exact (coreStep_success he hl rfl ho).trans (onSuccess_idWait hl)
  · exact (coreStep_timeout he hl rfl ho).trans (onTimeout_idWait hl)
  · exact (coreStep_success he hl rfl ho).trans (onSuccess_beWait hl)
  · exact (coreStep_timeout he hl rfl ho).trans (onTimeout_beWait hl)

/-! ### Sector erase -/

/-- Settles O39: the two ends of the loop at `SE_NEXT`, and the two outcomes at `SE_WAIT`, both of which move on. -/
theorem sectorEraseLoopStepsFromSectorToSector : Obligations.SectorEraseLoopStepsFromSectorToSector := by
  intro s
  refine ⟨fun he hl => ?_, fun he hl ho => ?_, fun he hl ho => ?_⟩
  · rw [coreStep_idle he, sequencerStep, hl]
    simp only [sectorNext]
    split
    · rfl
    · split <;> rfl
  · exact (coreStep_success he hl rfl ho).trans (onSuccess_seWait hl)
  · exact (coreStep_timeout he hl rfl ho).trans (onTimeout_seWait hl)

/-! ### Program -/

theorem allFill_iff (p : Params) (bytes : List Byte) : allFill p bytes = true ↔ ∀ b ∈ bytes, b = p.fill := by
  simp [allFill]

/-- Settles O40: `PG_NEXT` skips by the same test, written on the bytes of the chunk. -/
theorem programSkipsFillChunksUnlessForced : Obligations.ProgramSkipsFillChunksUnlessForced := by
  refine ⟨fun s => ⟨imageBytes_length _ _ _, fun k hk => ?_⟩, fun s he hl => ?_⟩
  · rw [chunk, imageBytes_length] at hk
    exact getElem?_imageBytes _ hk
  rw [coreStep_idle he, sequencerStep, hl]
  refine congrArg Host.Outcome.next ?_
  by_cases hend : s.seq.srcLen ≤ s.seq.addr
  · rw [programNext, if_neg (Nat.not_lt.2 hend), if_pos hend, finishOk]
  rw [programNext, if_pos (Nat.lt_of_not_le hend), if_neg hend]
  by_cases hskip : s.seq.forceFill = false ∧ ∀ b ∈ chunk s, b = s.params.fill
  · have skips : ¬(s.seq.forceFill || !allFill s.params (chunk s)) = true := by
      simp [hskip.1, (allFill_iff s.params (chunk s)).2 hskip.2]
    rw [if_neg skips, if_pos hskip, advanceAddr, ← hl]
  · have sends : (s.seq.forceFill || !allFill s.params (chunk s)) = true := by
      by_contra hno
      simp only [Bool.or_eq_true, Bool.not_eq_true', not_or, Bool.not_eq_true, Bool.not_eq_false] at hno
      exact hskip ⟨hno.1, (allFill_iff s.params (chunk s)).1 hno.2⟩
    rw [if_pos sends, if_neg hskip]

/-- A program Timeout with the bound not reached reports and counts; the label stays (44_flash_operations.md R295). -/
theorem programTimeout_retry {s : State} (h : retriesExhausted s.params.progRetryMax (s.seq.tries + 1) = false) :
    programTimeout s = { s with
      seq := { s.seq with tries := s.seq.tries + 1 }
      ports := { s.ports with reports := s.ports.reports ++ [⟨.protocolTimeout, .address s.seq.addr⟩] } } :=
  if_neg (by simpa using h)

theorem programTimeout_exhausted {s : State} (h : retriesExhausted s.params.progRetryMax (s.seq.tries + 1) = true) :
    programTimeout s = { s with
      seq := { s.seq with tries := s.seq.tries + 1, status := .fail, err := .protocolTimeout, state := .done }
      ports := { s.ports with reports := s.ports.reports ++ [⟨.protocolTimeout, .address s.seq.addr⟩] } } :=
  if_pos h

theorem retriesExhausted_eq_false {bound : Option Nat} {n : Nat} (h : ∀ k, bound = some k → n < k) :
    retriesExhausted bound n = false := by
  cases bound with
  | none => rfl
  | some k => simpa [retriesExhausted] using h k rfl

/-- Settles O41: a retry leaves the address and the images, so the same label issues the same command. -/
theorem programRetriesTheIdenticalSend : Obligations.ProgramRetriesTheIdenticalSend := by
  intro s he hl
  have timeout (ho : s.eng.outcome = .timeout) : coreStep s = .next (programTimeout (collected s)) :=
    (coreStep_timeout he hl rfl ho).trans (onTimeout_pgWait hl)
  refine ⟨fun ho => ?_, fun ho hbound => ⟨_, rfl, ?_, ?_⟩, fun k ho hk hle => ?_⟩
  · exact (coreStep_success he hl rfl ho).trans (onSuccess_pgWait hl)
  · rw [timeout ho, programTimeout_retry (s := collected s) (retriesExhausted_eq_false hbound)]; rfl
  · rw [coreStep_idle rfl, sequencerStep, hl]; rfl
  · have exhausted : retriesExhausted (collected s).params.progRetryMax ((collected s).seq.tries + 1) = true := by
      rw [collected_params, hk]; exact decide_eq_true hle
    rw [timeout ho, programTimeout_exhausted exhausted]; rfl

/-! ### Read-all -/

/-- Settles O42: the initialisation is one step at `RA_INIT`, before the label that issues READ_ALL. -/
theorem readAllInitialisesBeforeItsCommand : Obligations.ReadAllInitialisesBeforeItsCommand := by
  intro s
  refine ⟨fun he hl => ⟨readAllInit s, ?_, read_filled _, ptTest_ptInit, rfl, rfl, rfl, rfl, rfl, rfl, rfl, rfl⟩,
    fun he hl ho => ?_, fun he hl ho => ?_, fun he hl => ?_⟩
  · rw [coreStep_idle he, sequencerStep, hl]
  · exact (coreStep_success he hl rfl ho).trans (onSuccess_raStartWait hl)
  · exact (coreStep_timeout he hl rfl ho).trans (onTimeout_raStartWait hl)
  · rw [coreStep_idle he, sequencerStep, hl]; rfl

/-- Past the last page the scan ends the pass, by whether it met a dirty page (44_flash_operations.md R306). -/
theorem readAllScan_end {s : State} (h : s.params.pageCount ≤ s.seq.page) :
    readAllScan s = .next (if s.seq.found then goTo .raPass s else finishReadAll s) := by
  rw [readAllScan, if_neg (Nat.not_lt.2 h)]
  split <;> rfl

/-- Settles O44: either outcome of the explicit READ is `nextPage`, the Timeout counted. -/
theorem explicitReadAndEndOfPass : Obligations.ExplicitReadAndEndOfPass := by
  intro s
  refine ⟨fun he hl ho => ?_, fun he hl ho => ?_, fun he hl hend => ?_⟩
  · exact (coreStep_success he hl rfl ho).trans (onSuccess_raWait hl)
  · exact (coreStep_timeout he hl rfl ho).trans (onTimeout_raWait hl)
  · rw [coreStep_raScan he hl, readAllScan_end hend]
    split <;> rfl

/-! ### A bulk erase that nothing answers -/

/-- A frame that fits the first chunk, taken whole, is sent in one write and the wait begins (42_engine.md R212, R213). -/
theorem coreStep_send1_whole {s : State} {rest : List TxAnswer} (he : s.eng.state = .send1)
    (hfit : s.enc.buf.length ≤ s.params.txChunk) (h : s.ports.txScript = .count s.enc.buf.length :: rest) :
    coreStep s = .next { s with
      eng := { s.eng with state := .poll }
      ports := { s.ports with txScript := rest, wireOut := s.ports.wireOut ++ [s.enc.buf] } } := by
  rw [coreStep_send1 he, firstWrite, List.take_of_length_le hfit, txWrite_cons h]
  simp only [checkWrite, Encoder.len, hfit, if_true]

/-- The EXECUTE of a bulk erase (44_flash_operations.md R287). -/
theorem coreStep_beWait {s : State} (he : s.eng.state = .idle) (hl : s.seq.state = .beWait)
    (ht : s.flags.transport = false) : coreStep s = .next { s with
      enc := encodeFrame s.params 0xC7#8 []
      eng := { s.eng with expected := 0xC7#8, tmo := 0, outcome := .none, state := .send1 } } := by
  have start : coreStep s = executeStart 0xC7#8 [] 0xC7#8 s := by rw [coreStep_idle he, sequencerStep, hl]; rfl
  rw [start, executeStart_next he (Nat.zero_le _), ht]
  rfl

/-- A core that waits for the answer to a bulk erase it was asked for: started, its frame taken in one write. -/
def bulkEraseSent (ff : Bool) (txRest : List TxAnswer) (s : State) : State :=
  let started := latchArgs ⟨.bulkErase, ff, none, none⟩ (setMoves [] s)
  { started with
    enc := encodeFrame s.params 0xC7#8 []
    eng := { s.eng with expected := 0xC7#8, tmo := 0, outcome := .none, state := .poll }
    ports := { started.ports with txScript := txRest, wireOut := s.ports.wireOut ++ [rawFrame s.params 0xC7#8 []] } }

/-- The start of a bulk erase, its EXECUTE and its one write: three steps (44_flash_operations.md R287). -/
theorem steps_bulkErase_sent {s : State} {ff : Bool} {txRest : List TxAnswer}
    (hrest : s.seq.state = .idle ∨ s.seq.state = .done) (he : s.eng.state = .idle) (ht : s.flags.transport = false)
    (hm : s.ports.moves = [.start ⟨.bulkErase, ff, none, none⟩])
    (hfit : (rawFrame s.params 0xC7#8 []).length ≤ s.params.txChunk)
    (htx : s.ports.txScript = .count (rawFrame s.params 0xC7#8 []).length :: txRest) :
    steps 3 s = .next (bulkEraseSent ff txRest s) := by
  have start : step s = .next (latchArgs ⟨.bulkErase, ff, none, none⟩ (setMoves [] s)) := by
    rw [step_start hm, startOp_accepted (s := setMoves [] s) ((opResting_iff s).2 hrest) he (by simp) (by simp)]
  have execute := coreStep_beWait (s := latchArgs ⟨.bulkErase, ff, none, none⟩ (setMoves [] s)) he rfl ht
  rw [steps_succ, start, andThen_next, steps_succ, step_nil rfl, execute, andThen_next, steps_succ, step_nil rfl,
    coreStep_send1_whole rfl hfit htx, andThen_next, steps_zero]
  rfl

/-- A wait that has used up its budget. -/
def waitTimedOut (rest : List RxAnswer) (s : State) : State :=
  { s with
    ports := { s.ports with rxScript := rest }
    eng := { s.eng with tmo := s.params.tmoIter, outcome := .timeout, state := .done } }

/-- The silent wait: `TMO_ITER` polls, and the outcome is Timeout (42_engine.md R218). -/
theorem steps_silent_timeout {s : State} {rest : List RxAnswer} (hm : s.ports.moves = []) (he : s.eng.state = .poll)
    (hr : s.dec.ready = false) (h0 : s.eng.tmo = 0) (hi : 1 ≤ s.params.tmoIter)
    (h : s.ports.rxScript = List.replicate s.params.tmoIter .none ++ rest) :
    steps s.params.tmoIter s = .next (waitTimedOut rest s) := by
  have whole := silentPollsCountToTimeout s.params.tmoIter s rest hm he hr hi (by omega) h
  rwa [if_pos (by omega)] at whole

/-- Settles O38: three steps send the frame, `TMO_ITER` polls end the wait, and one step collects the Timeout. -/
theorem silentBulkEraseReportsNoAnswerAndEnds : Obligations.SilentBulkEraseReportsNoAnswerAndEnds := by
  refine ⟨by decide, fun s ff txRest rxRest hrest he ht hr hm hfit hi htx hrx => ?_⟩
  have sent := steps_bulkErase_sent hrest he ht hm hfit htx
  have waited : steps s.params.tmoIter (bulkEraseSent ff txRest s) = .next (waitTimedOut rxRest (bulkEraseSent ff txRest s)) :=
    steps_silent_timeout (s := bulkEraseSent ff txRest s) rfl rfl hr rfl hi hrx
  have collect : step (waitTimedOut rxRest (bulkEraseSent ff txRest s)) = .next
      (raiseOp .protocolTimeout .noAnswerFromProgrammer (collected (waitTimedOut rxRest (bulkEraseSent ff txRest s)))) :=
    (step_nil rfl).trans ((coreStep_timeout rfl rfl rfl rfl).trans (onTimeout_beWait rfl))
  have run : steps (s.params.tmoIter + 4) s = .next
      (raiseOp .protocolTimeout .noAnswerFromProgrammer (collected (waitTimedOut rxRest (bulkEraseSent ff txRest s)))) := by
    rw [show s.params.tmoIter + 4 = 3 + (s.params.tmoIter + 1) by omega, steps_add _ sent, steps_add 1 waited, steps_succ,
      collect, andThen_next, steps_zero]
  exact ⟨_, run, rfl, rfl, rfl, rfl, rfl, rfl, rfl, rfl, rfl, rfl, rfl, rfl, rfl, rfl⟩

end Sys2Proof.Machine
end

