-- ==== Sys2Proof/Proofs/ResetState.lean ====
section
/-! PROOFS. Proofs/ResetState.lean: the state after reset with the default parameters (70_reset_and_hazards.md R371,
00_scope.md R8). -/

namespace Sys2Proof.Machine

theorem paramsInv_default : ParamsInv .default where
  framing := framingInv_default
  txChunk_pos := by decide
  tmoIter_pos := by decide
  sector_pos := by decide
  page_sector := ⟨256, rfl⟩
  sector_image := ⟨32, rfl⟩

/-- RESET of the reset state changes nothing. -/
theorem resetCore_reset : resetCore State.reset = State.reset := rfl

/-- Settles O52: the reset state is what RESET leaves, with parameters that are sound; its other values are evaluated. -/
theorem theResetStateIsSoundWithTheDefaultParameters : Obligations.TheResetStateIsSoundWithTheDefaultParameters :=
  ⟨resetCore_reset ▸ sound_resetCore paramsInv_default, rfl, rfl, rfl, rfl, rfl, rfl⟩

end Sys2Proof.Machine
end
